-- ==== Sys2Proof/Word.lean ====
section
/-! DEFINITION. The word types of CSIDEC. Widths are those `10_state.md` gives its registers (R23 to R39). -/

namespace Sys2Proof

/-- One byte of the frame buffer (R61). -/
abbrev Byte := BitVec 8

/-- A 16-bit register: `CNT`, `CUR`, `LIM`, `ERRINFO` (R23, R29, R32, R39). -/
abbrev Word16 := BitVec 16

/-- The command word (R90) and the accumulator (R30). -/
abbrev Word32 := BitVec 32

/-- The 26 bytes of a timestamp (R23, `TS_LEN`): the first byte of the text in bits 7..0. -/
abbrev Stamp := BitVec 208

end Sys2Proof
end

