-- ==== Sys2Proof/Syntax.lean ====
section
/-! DEFINITION. The commands of CSIDEC and the fields of a command word (`30_encoding.md` R90 to R93). -/

namespace Sys2Proof

/-- The source mode of a command (`00_scope.md` R12): `L` live, `R` replay. -/
inductive Src where
  | live
  | replay
  deriving DecidableEq, Repr

/-- The fields of a 32-bit word of format `CMD` (R91). -/
structure CmdWord where
  op : BitVec 4
  src : BitVec 1
  z : BitVec 3
  a : BitVec 8
  b : BitVec 8
  c : BitVec 8
  deriving DecidableEq, Repr

/-- The commands: one constructor per row of the opcode table (R92, R290). -/
inductive Instr where
  /-- `HPARSE.L` (R120). -/
  | hparseL
  /-- `HPARSE.R` (R120). -/
  | hparseR
  /-- `DECODE.L nr, nc, nt` (R140). -/
  | decodeL (nr nc nt : BitVec 8)
  /-- `DECODE.R nr, nc, nt` (R140). -/
  | decodeR (nr nc nt : BitVec 8)
  /-- `MAGDB` (R180). -/
  | magdb
  /-- `STAB thr` (R186). -/
  | stab (thr : BitVec 8)
  deriving DecidableEq, Repr

end Sys2Proof
end

