-- ==== Sys2Proof/WellFormed.lean ====
section
/-! DEFINITION. Which command words are legal (`30_encoding.md` R94), one check per clause of the rule, and the fields
an instruction is written with (R92). -/

namespace Sys2Proof

/-- `op` is one of 0x1 to 0x4 (R94). -/
def CmdWord.opDefined (f : CmdWord) : Bool := 1 ≤ f.op.toNat && f.op.toNat ≤ 4

/-- `z` is 0 (R94). -/
def CmdWord.zClear (f : CmdWord) : Bool := f.z == 0

/-- With `op` 0x1 or 0x3 the operands `a`, `b`, `c` are 0; with `op` 0x4 the operands `b`, `c` are 0 (R94). -/
def CmdWord.operandsAllowed (f : CmdWord) : Bool :=
  (!(f.op == 1 || f.op == 3) || (f.a == 0 && f.b == 0 && f.c == 0)) &&
    (!(f.op == 4) || (f.b == 0 && f.c == 0))

/-- With `op` 0x3 or 0x4 the bit `src` is 0 (R94). -/
def CmdWord.srcAllowed (f : CmdWord) : Bool := !(f.op == 3 || f.op == 4) || f.src == 0

/-- A legal command word: none of R94's conditions holds. -/
def CmdWord.legal (f : CmdWord) : Bool :=
  f.opDefined && f.zClear && f.operandsAllowed && f.srcAllowed

/-- The fields each command is written with (R92). -/
def Instr.fields : Instr → CmdWord
  | .hparseL => { op := 1, src := 0, z := 0, a := 0, b := 0, c := 0 }
  | .hparseR => { op := 1, src := 1, z := 0, a := 0, b := 0, c := 0 }
  | .decodeL nr nc nt => { op := 2, src := 0, z := 0, a := nr, b := nc, c := nt }
  | .decodeR nr nc nt => { op := 2, src := 1, z := 0, a := nr, b := nc, c := nt }
  | .magdb => { op := 3, src := 0, z := 0, a := 0, b := 0, c := 0 }
  | .stab thr => { op := 4, src := 0, z := 0, a := thr, b := 0, c := 0 }

/-- An instruction is well formed when its fields make a legal word. Operands are 8-bit values, all of them legal
(R93). -/
def Instr.wellFormed (i : Instr) : Bool := i.fields.legal

end Sys2Proof
end

