-- ==== Sys2Proof/Decode.lean ====
section
/-! DEFINITION. From command words to commands and back (`30_encoding.md` R91 to R94). -/

namespace Sys2Proof

/-- Why a word is illegal: the clauses of R94. Each raises `IllegalCommand` (R235). -/
inductive IllegalWord where
  /-- `op` is 0x0 or 0x5 to 0xF. -/
  | opReserved
  /-- `z` is not 0. -/
  | zNotZero
  /-- an operand field the command does not use is not 0. -/
  | operandNotZero
  /-- `src` is 1 in a command that has no source mode. -/
  | srcNotAllowed
  deriving DecidableEq, Repr

/-- Cut a word into the fields of format `CMD` (R91). -/
def CmdWord.ofWord (w : Word32) : CmdWord :=
  { op := w.extractLsb' 28 4
    src := w.extractLsb' 27 1
    z := w.extractLsb' 24 3
    a := w.extractLsb' 16 8
    b := w.extractLsb' 8 8
    c := w.extractLsb' 0 8 }

/-- The opcode map (R92) with the must-be-zero rules (R94): the command a word stands for, or the clause of R94 that
refuses it. -/
def decode (w : Word32) : Except IllegalWord Instr :=
  let f := CmdWord.ofWord w
  if f.z ≠ 0 then .error .zNotZero
  else if f.op = 1 then
    if f.a ≠ 0 ∨ f.b ≠ 0 ∨ f.c ≠ 0 then .error .operandNotZero
    else if f.src = 0 then .ok .hparseL else .ok .hparseR
  else if f.op = 2 then
    if f.src = 0 then .ok (.decodeL f.a f.b f.c) else .ok (.decodeR f.a f.b f.c)
  else if f.op = 3 then
    if f.src ≠ 0 then .error .srcNotAllowed
    else if f.a ≠ 0 ∨ f.b ≠ 0 ∨ f.c ≠ 0 then .error .operandNotZero else .ok .magdb
  else if f.op = 4 then
    if f.src ≠ 0 then .error .srcNotAllowed
    else if f.b ≠ 0 ∨ f.c ≠ 0 then .error .operandNotZero else .ok (.stab f.a)
  else .error .opReserved

/-- The word of a command, as R92 writes it: the high byte, then the three operand bytes. -/
def encode : Instr → Word32
  | .hparseL => 0x10#8 ++ 0#8 ++ 0#8 ++ 0#8
  | .hparseR => 0x18#8 ++ 0#8 ++ 0#8 ++ 0#8
  | .decodeL nr nc nt => 0x20#8 ++ nr ++ nc ++ nt
  | .decodeR nr nc nt => 0x28#8 ++ nr ++ nc ++ nt
  | .magdb => 0x30#8 ++ 0#8 ++ 0#8 ++ 0#8
  | .stab thr => 0x40#8 ++ thr ++ 0#8 ++ 0#8

/-- What the decoder reads from a row's word: the low `nbits` bits of `w`, every bit above them 0. -/
def decodeTableWord (nbits w : Nat) : Option Instr :=
  (decode (BitVec.ofNat 32 (w % 2 ^ nbits))).toOption

/-- The assembler text of a command (R106): the suffix gives `src`, operands in decimal. -/
def Instr.asm : Instr → String
  | .hparseL => "HPARSE.L"
  | .hparseR => "HPARSE.R"
  | .decodeL nr nc nt => "DECODE.L " ++ toString nr.toNat ++ ", " ++ toString nc.toNat ++ ", " ++ toString nt.toNat
  | .decodeR nr nc nt => "DECODE.R " ++ toString nr.toNat ++ ", " ++ toString nc.toNat ++ ", " ++ toString nt.toNat
  | .magdb => "MAGDB"
  | .stab thr => "STAB " ++ toString thr.toNat

end Sys2Proof
end

