-- ==== Sys2Proof/Config.lean ====
section
/-! DEFINITION. What one instance of CSIDEC fixes (`00_scope.md` R7). No value is left free: every command that needs an
element with no value ends with `NotReady` (`10_state.md` R22; log 4, log 5). -/

namespace Sys2Proof

/-- The instance parameters (R7, R8). A value outside the legal range cannot be built: "a model must refuse to
instantiate CSIDEC" with it (R8, U8, U9). -/
structure Config where
  /-- `B`: the bit width of a component, 1 to 16. -/
  bits : Nat
  /-- `FB_SIZE`: the capacity of the frame buffer in bytes, 25 to 65535. -/
  fbSize : Nat
  bits_legal : 1 ≤ bits ∧ bits ≤ 16
  fbSize_legal : 25 ≤ fbSize ∧ fbSize ≤ 65535
  deriving DecidableEq, Repr

/-- The default instance: `B = 10`, `FB_SIZE = 4096` (R7). -/
def Config.default : Config :=
  { bits := 10, fbSize := 4096, bits_legal := by decide, fbSize_legal := by decide }

/-- Instantiate CSIDEC, or refuse (R8, U8, U9). -/
def Config.make (bits fbSize : Nat) : Option Config :=
  if h : (1 ≤ bits ∧ bits ≤ 16) ∧ (25 ≤ fbSize ∧ fbSize ≤ 65535) then
    some { bits := bits, fbSize := fbSize, bits_legal := h.1, fbSize_legal := h.2 }
  else none

/-- `WORD`: bits fetched per refill (R7). -/
abbrev Config.word : Nat := 16
/-- `ST_LEN`: bytes of the status block (R7). -/
abbrev Config.stLen : Nat := 23
/-- `PL_LEN`: bytes of the payload-length field (R7). -/
abbrev Config.plLen : Nat := 2
/-- `BL_LEN`: bytes of the trailing buffer-length field (R7). -/
abbrev Config.blLen : Nat := 2
/-- `HDR_MIN`: the least byte count `HPARSE` accepts (R7). -/
abbrev Config.hdrMin : Nat := 25
/-- `LIVE_START = ST_LEN + PL_LEN` (R7, R142). -/
abbrev Config.liveStart : Nat := Config.stLen + Config.plLen
/-- `REPLAY_START` (R7, R142). -/
abbrev Config.replayStart : Nat := 0
/-- `TS_LEN`: bytes of a capture timestamp (R7). -/
abbrev Config.tsLen : Nat := 26
/-- `THR_DEFAULT`: the threshold a host with no other value sends (R7, R93). -/
abbrev Config.thrDefault : BitVec 8 := 20
/-- `K_TRIG`: how many leading flags the host's trigger combines (R7, R211); an argument of the host model. -/
abbrev Config.kTrigDefault : Nat := 2

end Sys2Proof
end

