-- ==== Sys2Proof/Machine/State.lean ====
section
/-! DEFINITION. The state of CSIDEC (`10_state.md` R20), as plain data, and the reasons a step can stop. -/

namespace Sys2Proof.Machine

/-- A partial map from a numeric index to values, as the list of its entries by rising index; an index not listed
holds no value (`10_state.md` R22). `FB` has byte offsets as indices; `SM` and `DBM` have `256 * p + k`; `SV` has `p`. -/
abbrev Memory (α : Type) := List (Nat × α)

/-- `STATE` (R21). -/
inductive RunState where
  | idle
  | busy
  deriving DecidableEq, Repr

/-- One complex sample (`30_encoding.md` R100): signed `B`-bit parts. -/
structure Sample where
  re : Int
  im : Int
  deriving DecidableEq, Repr

/-- The names of the eighteen header registers (R24). -/
inductive HdrReg where
  | tstamp
  | csiLen
  | channel
  | phyerr
  | noise
  | rate
  | chanbw
  | numTones
  | nr
  | nc
  | rssi
  | rssi0
  | rssi1
  | rssi2
  | payloadLen
  | bufLen
  | capTs
  | src
  deriving DecidableEq, Repr

/-- The header register file `HDR.*` (R24); `none` is a register that holds no value (R22, R25). -/
structure Header where
  tstamp : Option (BitVec 64)
  csiLen : Option (BitVec 16)
  channel : Option (BitVec 16)
  phyerr : Option (BitVec 8)
  noise : Option (BitVec 8)
  rate : Option (BitVec 8)
  chanbw : Option (BitVec 8)
  numTones : Option (BitVec 8)
  nr : Option (BitVec 8)
  nc : Option (BitVec 8)
  rssi : Option (BitVec 8)
  rssi0 : Option (BitVec 8)
  rssi1 : Option (BitVec 8)
  rssi2 : Option (BitVec 8)
  payloadLen : Option (BitVec 16)
  bufLen : Option (BitVec 16)
  capTs : Option Stamp
  src : Option (BitVec 1)
  deriving DecidableEq, Repr

/-- Every `HDR.*` is `none` (R25, R40). -/
def Header.empty : Header :=
  { tstamp := none, csiLen := none, channel := none, phyerr := none, noise := none, rate := none, chanbw := none
    numTones := none, nr := none, nc := none, rssi := none, rssi0 := none, rssi1 := none, rssi2 := none
    payloadLen := none, bufLen := none, capTs := none, src := none }

/-- The registers `DIM.nr`, `DIM.nc`, `DIM.nt` (R33): the shape of the sample matrix. -/
structure Dim where
  nr : BitVec 8
  nc : BitVec 8
  nt : BitVec 8
  deriving DecidableEq, Repr

/-- The component phase `C` with the holding register `IMH` (R28): `C = 0` while the imaginary component is being
extracted; `C = 1`, and `IMH` keeps the imaginary component, while the real one is. DESIGN CHOICE (log 11). -/
inductive Phase where
  | imaginary
  | real (imh : Int)
  deriving DecidableEq, Repr

/-- The decoder's working set (R28 to R32, R41): `none` outside a running `DECODE`. -/
structure Work where
  /-- `CUR`: offset of the next byte not yet consumed (R29). -/
  cur : Word16
  /-- `ACC`: the pending bits (R30). -/
  acc : Word32
  /-- `BL`: how many bits are pending (R31). -/
  bl : BitVec 5
  /-- `LIM`: exclusive upper bound of the bytes that may be fetched (R32). -/
  lim : Word16
  /-- `K`: the subcarrier index (R28). -/
  k : BitVec 8
  /-- `T`: the transmit index (R28). -/
  t : BitVec 8
  /-- `R`: the receive index (R28). -/
  r : BitVec 8
  /-- `C` and `IMH` (R28). -/
  phase : Phase
  deriving DecidableEq, Repr

/-- `C` as the 1-bit register of R28. -/
def Work.c (w : Work) : BitVec 1 :=
  match w.phase with
  | .imaginary => 0
  | .real _ => 1

/-- `IMH` as the holding register of R28: no value while the imaginary component is being extracted. -/
def Work.imh (w : Work) : Option Int :=
  match w.phase with
  | .imaginary => none
  | .real v => some v

/-- What the host names on a read port (R42). -/
inductive ReadPort where
  /-- `STATE`, `ERR`, `ERRINFO`, `HV`, `SMV`, `DBV`, `SVV`. -/
  | status
  /-- any `HDR.*` register. -/
  | header (reg : HdrReg)
  /-- `DIM.nr`, `DIM.nc`, `DIM.nt`. -/
  | shape
  /-- `SM[p][k]`. -/
  | sample (p k : Nat)
  /-- `DBM[p][k]`. -/
  | decibel (p k : Nat)
  /-- `SV[p]`. -/
  | stability (p : Nat)
  deriving DecidableEq, Repr

/-- What a read port answers (R42). A dB value is its exact power, 0 for `DB_MIN`; how it is presented is open
(`DB_PRESENT`, R183; log 7). -/
inductive ReadValue where
  | status (run : RunState) (err : BitVec 4) (errInfo : Word16) (hv smv dbv svv : Bool)
  | header (reg : HdrReg) (value : Nat)
  | shape (dim : Dim)
  | sample (x : Sample)
  | decibel (power : Nat)
  | stability (flag : Bool)
  deriving DecidableEq, Repr

/-- What the host does at one port of R42. -/
inductive HostInput where
  /-- frame-buffer write: `FB[offset] <- byte`. -/
  | fbWrite (offset : Nat) (byte : Byte)
  /-- count write: `CNT <- v`. -/
  | cntWrite (v : Word16)
  /-- timestamp write: `TS_IN <- 26 bytes`. -/
  | tsWrite (v : Stamp)
  /-- command: one 32-bit command word. -/
  | command (w : Word32)
  /-- a read; it has no side effect. -/
  | read (port : ReadPort)
  /-- reset: applies R40. -/
  | reset
  deriving DecidableEq, Repr

/-- The complete state (R20) of one block, the instance parameters it runs under, and what the host does next. Several
instances are several values of this type, which share nothing (R247; log 6). -/
structure State where
  /-- The instance parameters `B`, `FB_SIZE` (`00_scope.md` R7): not state in the spec, changed by nothing (log 2). -/
  cfg : Config
  /-- `FB` (`20_memory.md` R61): the bytes the host has written since reset. -/
  fb : Memory Byte
  /-- `CNT` (R23). -/
  cnt : Word16
  /-- `TS_IN` (R23). -/
  tsIn : Option Stamp
  /-- `STATE` (R21). -/
  run : RunState
  /-- `ERR` (R38). -/
  err : BitVec 4
  /-- `ERRINFO` (R39). -/
  errInfo : Word16
  /-- `HV` (R25, R37). -/
  hv : Bool
  /-- `SMV` (R37). -/
  smv : Bool
  /-- `DBV` (R37). -/
  dbv : Bool
  /-- `SVV` (R37). -/
  svv : Bool
  /-- `HDR.*` (R24). -/
  hdr : Header
  /-- `DIM.*` (R33). -/
  dim : Option Dim
  /-- `CUR`, `ACC`, `BL`, `LIM`, `K`, `T`, `R`, `C`, `IMH` (R28 to R32). -/
  work : Option Work
  /-- `SM` (R34), by `256 * p + k`. -/
  sm : Memory Sample
  /-- `DBM` (R35), by `256 * p + k`: the power `P` of each dB value, 0 for `DB_MIN` (U7; log 7). -/
  dbm : Memory Nat
  /-- `SV` (R36), by `p`. -/
  sv : Memory Bool
  /-- The model's own: what the host does next at the ports of R42, in order (log 1). -/
  inputs : List HostInput
  deriving DecidableEq, Repr

/-- Why a run stops: each is a fault of the host, never of a command. -/
inductive Fault where
  /-- Raised by a read port when the element named holds no value (R22, R272, U3). Safe: the model stops where the
  spec gives the read no value. -/
  | hostReadsNoValue
  /-- Raised by a write port or the command port while `STATE = BUSY` (R266, R270, U4). Safe: the model stops where
  the spec leaves the outcome unspecified. -/
  | hostActsWhileBusy
  /-- Raised by the frame-buffer write port for an offset at or above `FB_SIZE`, which does not exist (R61). Safe. -/
  | hostWritesOutsideBuffer
  /-- Raised by a step in a state that says `STATE = BUSY` with no `DECODE` in progress: no state of the machine, since
  only `DECODE` has internal steps (R21, R41). Safe. -/
  | busyWithoutDecode
  deriving DecidableEq, Repr

/-- Why an instruction is refused. -/
inductive Refusal where
  /-- Raised by `exec` for an instruction that has no meaning yet. Safe. No arm of this model does. -/
  | notModelled (mnemonic : String)
  deriving DecidableEq, Repr

/-- The machine right after reset (R40, R260), as the default instance, with nothing at its ports. -/
def State.reset : State :=
  { cfg := Config.default
    fb := []
    cnt := 0
    tsIn := none
    run := .idle
    err := 0
    errInfo := 0
    hv := false
    smv := false
    dbv := false
    svv := false
    hdr := Header.empty
    dim := none
    work := none
    sm := []
    dbm := []
    sv := []
    inputs := [] }

end Sys2Proof.Machine
end

