-- ==== Sys2Proof/Machine/Flags.lean ====
section
/-! DEFINITION. The flags: what each command clears at its start (`10_state.md` R37), with the values they guard, and
the codes of `ERR` (`60_exceptions.md` R230). -/

namespace Sys2Proof.Machine

/-- The errors of the taxonomy (R230). -/
inductive ErrCode where
  /-- no error: the command completed. -/
  | success
  | truncatedHeader
  | bufferUnderrun
  /-- never written to `ERR` (R233). -/
  | domainError
  /-- never raised by CSIDEC; the host's (R234). -/
  | deviceUnavailable
  | illegalCommand
  | badCount
  | notReady
  | emptyStream
  deriving DecidableEq, Repr

/-- The value of `ERR` for each error (R230). -/
def ErrCode.code : ErrCode → BitVec 4
  | .success => 0
  | .truncatedHeader => 1
  | .bufferUnderrun => 2
  | .domainError => 3
  | .deviceUnavailable => 4
  | .illegalCommand => 5
  | .badCount => 6
  | .notReady => 7
  | .emptyStream => 8

/-- `HV <- 0` and every `HDR.*` is `none` (R25, R120). -/
def State.dropHeader (s : State) : State := { s with hv := false, hdr := Header.empty }

/-- `SVV <- 0` and every `SV[p]` is `none`: what `STAB` does at its start (R37, R186). -/
def State.dropStability (s : State) : State := { s with svv := false, sv := [] }

/-- `DBV <- 0`, `SVV <- 0`, `DBM` and `SV` are `none`: what `MAGDB` does at its start (R37, R180). -/
def State.dropDecibels (s : State) : State := { s.dropStability with dbv := false, dbm := [] }

/-- `SMV <- 0`, `DBV <- 0`, `SVV <- 0`, `SM`, `DBM` and `SV` are `none`: what `DECODE` does at its start (R37, R143). -/
def State.dropMatrix (s : State) : State := { s.dropDecibels with smv := false, sm := [] }

end Sys2Proof.Machine
end

