-- ==== Sys2Proof/Machine/Operands.lean ====
section
/-! DEFINITION. Operand forms: the three ways of forming an offset (`45_laws_and_classes.md` R295), the `B`-bit fields
(`30_encoding.md` R99), and the indices of the result stores (`10_state.md` R34, `00_scope.md` R11). -/

namespace Sys2Proof.Machine

/-- How a header field's offset is given (R295 (a), (b)). -/
inductive FieldOffset where
  /-- a constant offset. -/
  | fixed (n : Nat)
  /-- `n` bytes before the end of the valid region: `CNT - n` (R97). -/
  | fromEnd (n : Nat)
  deriving DecidableEq, Repr

/-- The offset in `FB`, given `CNT`. -/
def FieldOffset.resolve (cnt : Nat) : FieldOffset → Nat
  | .fixed n => n
  | .fromEnd n => cnt - n

/-- The value of the bit `src` of a command word (R12, R91), which `HPARSE` keeps in `HDR.src` (R24). -/
def sourceBit : Src → BitVec 1
  | .live => 0
  | .replay => 1

/-- Where the sample stream starts (R142, R295 (c)): 25 live, 0 replay. -/
def startOffset : Src → Nat
  | .live => Config.liveStart
  | .replay => Config.replayStart

/-- `sext_B(raw)` (R9, R148): if bit `B-1` is set, subtract `2^B`. -/
def signExtend (bits raw : Nat) : Int :=
  if raw.testBit (bits - 1) then (raw : Int) - 2 ^ bits else raw

/-- A component lies in `[-2^(B-1), 2^(B-1) - 1]` (R34, R148). -/
def componentFits (bits : Nat) (v : Int) : Bool := decide (-2 ^ (bits - 1) ≤ v) && decide (v < 2 ^ (bits - 1))

/-- Both parts of a sample fit `B` bits (R34). -/
def Sample.fits (bits : Nat) (x : Sample) : Bool := componentFits bits x.re && componentFits bits x.im

/-- The pair index `p = t * nr + r` (R11, R151). -/
def pairIndex (nr t r : Nat) : Nat := t * nr + r

/-- The index of entry `(p, k)` of `SM` and `DBM`: `p` above the 8 bits of `k` (R34). -/
def entryKey (p k : Nat) : Nat := 256 * p + k

/-- The number of streams, `nr * nc` (R34). -/
def Dim.streams (d : Dim) : Nat := d.nr.toNat * d.nc.toNat

/-- The number of tones, `nt` (R34). -/
def Dim.tones (d : Dim) : Nat := d.nt.toNat

/-- The number of samples, `nr * nc * nt` (R101). -/
def Dim.samples (d : Dim) : Nat := d.streams * d.tones

/-- The number of components, `N = 2 * nr * nc * nt` (R101). -/
def Dim.components (d : Dim) : Nat := 2 * d.samples

/-- Index `key` is an entry `(p, k)` inside the shape (R34). -/
def Dim.holds (d : Dim) (key : Nat) : Bool := key / 256 < d.streams && key % 256 < d.tones

/-- `W = max(1, ceil(N * B / 16))`: the words a `DECODE` of this shape fetches (R102, R155). -/
def Dim.words (bits : Nat) (d : Dim) : Nat := max 1 ((d.components * bits + (Config.word - 1)) / Config.word)

/-- The stream order of samples (R101): sample number `s = (k * nc + t) * nr + r`, which is `k * (nr * nc) + p`. -/
def Dim.sampleNumber (d : Dim) (p k : Nat) : Nat := k * d.streams + p

/-- The entry that sample number `n` of the stream goes to (R101). -/
def Dim.sampleKey (d : Dim) (n : Nat) : Nat := entryKey (n % d.streams) (n / d.streams)

/-- Component number `n` of a stream value (R99): bits `n * B` to `n * B + B - 1`, sign extended. -/
def componentAt (bits stream n : Nat) : Int := signExtend bits (stream / 2 ^ (n * bits) % 2 ^ bits)

/-- Sample number `n` of a stream value (R100): the imaginary component, then the real one. -/
def sampleAt (bits stream n : Nat) : Sample :=
  { re := componentAt bits stream (2 * n + 1), im := componentAt bits stream (2 * n) }

/-- The power of a sample, `P = re * re + im * im` (R181). -/
def Sample.power (x : Sample) : Nat := (x.re * x.re + x.im * x.im).toNat

end Sys2Proof.Machine
end

