-- ==== Sys2Proof/Machine/Ops.lean ====
section
/-! DEFINITION. The named operations: the stores, reading the frame buffer, and how a command starts, completes and
ends with an error. -/

namespace Sys2Proof.Machine

/-! ### The stores -/

/-- The value held at an index; `none` where nothing is listed (R22). -/
def Memory.read {α : Type} : Memory α → Nat → Option α
  | [], _ => none
  | (b, v) :: m, a => if b = a then some v else Memory.read m a

/-- Write one entry, keeping the indices in rising order. -/
def Memory.write {α : Type} : Memory α → Nat → α → Memory α
  | [], a, x => [(a, x)]
  | (b, v) :: m, a, x =>
    if a < b then (a, x) :: (b, v) :: m
    else if a = b then (a, x) :: m
    else (b, v) :: Memory.write m a x

/-- The canonical form: indices strictly rising. (No entry equals what an unlisted index reads as: that is no value.) -/
def Memory.wf {α : Type} : Memory α → Bool
  | [] => true
  | (a, _) :: m => m.all (fun e => decide (a < e.1)) && Memory.wf m

/-- The first `n` samples of the stream all have an entry (R101). -/
def Memory.covers {α : Type} (d : Dim) (n : Nat) (m : Memory α) : Bool :=
  (List.range n).all (fun j => (m.read (d.sampleKey j)).isSome)

/-- The values `f` has at the members of a list, in order; `none` when one of them has none (R22). -/
def collect {α : Type} (f : Nat → Option α) : List Nat → Option (List α)
  | [] => some []
  | k :: ks =>
    match f k, collect f ks with
    | some x, some xs => some (x :: xs)
    | _, _ => none

/-- The entries inside the shape, each replaced by its image under `f`. -/
def Memory.mapShape {α β : Type} (d : Dim) (f : α → β) (m : Memory α) : Memory β :=
  (m.filter (fun e => d.holds e.1)).map (fun e => (e.1, f e.2))

/-! ### The frame buffer (`20_memory.md`) -/

/-- `MemRead(a, n)` (R10, R63): `n` bytes, little-endian; `none` when one of them holds no value (R10, R22). -/
def State.memRead (s : State) (a : Nat) : Nat → Option Nat
  | 0 => some 0
  | n + 1 =>
    match s.fb.read a, s.memRead (a + 1) n with
    | some b, some v => some (b.toNat + 256 * v)
    | _, _ => none

/-- The 16-bit word at an offset: `FB[a] + 256 * FB[a+1]` (R98). -/
def State.fetchWord (s : State) (a : Nat) : Option Nat := s.memRead a 2

/-- The stream value `S` over `words` words from `start` (R98): bit `i` is bit `i mod 8` of `FB[start + i / 8]`. -/
def State.streamValue (s : State) (start words : Nat) : Option Nat := s.memRead start (2 * words)

/-! ### Start, completion, errors -/

/-- The unit whose outputs an error invalidates (R240 (c)). -/
inductive Owner where
  /-- the command had not started: nothing is invalidated (R239). -/
  | notStarted
  /-- a started `HPARSE`. -/
  | headerParser
  /-- a started `DECODE`. -/
  | sampleDecoder
  deriving DecidableEq, Repr

/-- A command has passed its checks and starts: `STATE` becomes `BUSY` (R21). -/
def State.start (s : State) : State := { s with run := .busy }

/-- A command completes: `ERR <- 0`, `ERRINFO <- 0`, `STATE <- IDLE` (R125, R152). -/
def State.complete (s : State) : State := { s with err := ErrCode.success.code, errInfo := 0, run := .idle }

/-- The outputs a failed command owns hold no value (R240 (c)). -/
def State.invalidate (s : State) : Owner → State
  | .notStarted => s
  | .headerParser => s.dropHeader
  | .sampleDecoder => { s.dropMatrix with dim := none, work := none }

/-- `raise E(info)` (R240): the command stops, `ERR` and `ERRINFO` are written, the outputs of a started command hold
no value, `STATE <- IDLE`. Nothing is saved and control goes nowhere. There is no return: the next command runs as it
would after a success (R242). -/
def State.raise (s : State) (owner : Owner) (e : ErrCode) (info : Word16) : State :=
  { s.invalidate owner with err := e.code, errInfo := info, run := .idle }

/-- Reset (R40, R260), at any time: the reset state, under the same parameters; what the host does afterwards is not
the machine's to drop. -/
def State.applyReset (s : State) : State := { State.reset with cfg := s.cfg, inputs := s.inputs }

end Sys2Proof.Machine
end

