-- ==== Sys2Proof/Machine/AmplitudeAnalyzer.lean ====
section
/-! DEFINITION. The Amplitude Analyzer (`43_amplitude_analyzer.md`): `MAGDB` and `STAB`. A dB value is held as the exact
integer power it is the logarithm of, 0 for `DB_MIN` (R183, R292, U7; log 7). -/

namespace Sys2Proof.Machine

/-- The least power of a stream. -/
def minPower : List Nat → Nat
  | [] => 0
  | p :: ps => ps.foldl min p

/-- The largest power of a stream. -/
def maxPower (ps : List Nat) : Nat := ps.foldl max 0

/-- Stability of one stream, the integer form of R191: all powers zero, stable; zero and non-zero mixed, unstable;
else `Pmax^10 <= 10^thr * Pmin^10`. The empty stream has no stability (R187, N10). -/
def stableStream (thr : Nat) (ps : List Nat) : Option Bool :=
  if ps.isEmpty then none
  else if ps.all (· == 0) then some true
  else if ps.any (· == 0) then some false
  else some (decide (maxPower ps ^ 10 ≤ 10 ^ thr * minPower ps ^ 10))

/-- The dB values of stream `p`, in subcarrier order (R185, R186); `none` when one of them is missing (R22; log 8). -/
def streamPowers (d : Dim) (m : Memory Nat) (p : Nat) : Option (List Nat) :=
  collect (fun k => m.read (entryKey p k)) (List.range d.tones)

/-- The flag of stream `p`. -/
def streamFlag (thr : Nat) (d : Dim) (m : Memory Nat) (p : Nat) : Option Bool :=
  match streamPowers d m p with
  | some ps => stableStream thr ps
  | none => none

/-- `MAGDB` (R180). `NotReady` when `SMV = 0` (R237), or when `DIM` or an entry of the matrix, an input it needs, holds no
value (R22), which happens in no run (log 8). -/
def magnitudes (s : State) : State :=
  match s.smv, s.dim with
  | true, some d =>
    if s.sm.covers d d.samples then
      let s₁ := s.dropDecibels.start
      State.complete { s₁ with dbm := s₁.sm.mapShape d Sample.power, dbv := true }
    else s.raise .notStarted .notReady 0
  | _, _ => s.raise .notStarted .notReady 0

/-- The stability vector of a dB memory (R186, R190): one entry per stream; `none` when a stream has no flag. -/
def stabilityVector (thr : Nat) (d : Dim) (m : Memory Nat) : Option (Memory Bool) :=
  collect (fun p => (streamFlag thr d m p).map (fun flag => (p, flag))) (List.range d.streams)

/-- `STAB thr` (R186). `EmptyStream` when streams exist but have no tones (R189); `NotReady` when `DBV = 0` (R237), or when
`DIM` or an entry of `DBM`, an input it needs, holds no value (R22), which happens in no run (log 8). With no tones no entry
is needed, so the order of R239 is kept. -/
def stability (thr : Nat) (s : State) : State :=
  match s.dbv, s.dim with
  | true, some d =>
    if 0 < d.streams ∧ d.tones = 0 then s.raise .notStarted .emptyStream 0
    else
      match stabilityVector thr d s.dbm with
      | none => s.raise .notStarted .notReady 0
      | some flags => State.complete { s.dropStability.start with sv := flags, svv := true }
  | _, _ => s.raise .notStarted .notReady 0

/-- The meaning of `MAGDB` (R180). -/
def execMagdb (s : State) : Host.Outcome State Fault Refusal := .next (magnitudes s)

/-- The meaning of `STAB thr` (R186). -/
def execStab (thr : BitVec 8) (s : State) : Host.Outcome State Fault Refusal := .next (stability thr.toNat s)

end Sys2Proof.Machine
end

