-- ==== Sys2Proof/Machine/HeaderParser.lean ====
section
/-! DEFINITION. The Header Parser (`41_header_parser.md`): `HPARSE.L` and `HPARSE.R`. -/

namespace Sys2Proof.Machine

/-- One row of the descriptor table: a register, its offset and its width in bytes (R95, R122). -/
structure HdrRow where
  reg : HdrReg
  off : FieldOffset
  width : Nat
  deriving DecidableEq, Repr

/-- The layout of the header fields (R95), one row per field. -/
def hdrTable : List HdrRow :=
  [ ⟨.tstamp, .fixed 0, 8⟩, ⟨.csiLen, .fixed 8, 2⟩, ⟨.channel, .fixed 10, 2⟩, ⟨.phyerr, .fixed 12, 1⟩,
    ⟨.noise, .fixed 13, 1⟩, ⟨.rate, .fixed 14, 1⟩, ⟨.chanbw, .fixed 15, 1⟩, ⟨.numTones, .fixed 16, 1⟩,
    ⟨.nr, .fixed 17, 1⟩, ⟨.nc, .fixed 18, 1⟩, ⟨.rssi, .fixed 19, 1⟩, ⟨.rssi0, .fixed 20, 1⟩,
    ⟨.rssi1, .fixed 21, 1⟩, ⟨.rssi2, .fixed 22, 1⟩, ⟨.payloadLen, .fixed Config.stLen, Config.plLen⟩,
    ⟨.bufLen, .fromEnd Config.blLen, Config.blLen⟩ ]

/-- Write a value to a header register, unchanged (R122); every value read fits its register (R66). -/
def Header.set (h : Header) (v : Nat) : HdrReg → Header
  | .tstamp => { h with tstamp := some (BitVec.ofNat 64 v) }
  | .csiLen => { h with csiLen := some (BitVec.ofNat 16 v) }
  | .channel => { h with channel := some (BitVec.ofNat 16 v) }
  | .phyerr => { h with phyerr := some (BitVec.ofNat 8 v) }
  | .noise => { h with noise := some (BitVec.ofNat 8 v) }
  | .rate => { h with rate := some (BitVec.ofNat 8 v) }
  | .chanbw => { h with chanbw := some (BitVec.ofNat 8 v) }
  | .numTones => { h with numTones := some (BitVec.ofNat 8 v) }
  | .nr => { h with nr := some (BitVec.ofNat 8 v) }
  | .nc => { h with nc := some (BitVec.ofNat 8 v) }
  | .rssi => { h with rssi := some (BitVec.ofNat 8 v) }
  | .rssi0 => { h with rssi0 := some (BitVec.ofNat 8 v) }
  | .rssi1 => { h with rssi1 := some (BitVec.ofNat 8 v) }
  | .rssi2 => { h with rssi2 := some (BitVec.ofNat 8 v) }
  | .payloadLen => { h with payloadLen := some (BitVec.ofNat 16 v) }
  | .bufLen => { h with bufLen := some (BitVec.ofNat 16 v) }
  | .capTs => { h with capTs := some (BitVec.ofNat 208 v) }
  | .src => { h with src := some (BitVec.ofNat 1 v) }

/-- The value of a header register, `none` where it holds none (R24). -/
def Header.get (h : Header) : HdrReg → Option Nat
  | .tstamp => h.tstamp.map BitVec.toNat
  | .csiLen => h.csiLen.map BitVec.toNat
  | .channel => h.channel.map BitVec.toNat
  | .phyerr => h.phyerr.map BitVec.toNat
  | .noise => h.noise.map BitVec.toNat
  | .rate => h.rate.map BitVec.toNat
  | .chanbw => h.chanbw.map BitVec.toNat
  | .numTones => h.numTones.map BitVec.toNat
  | .nr => h.nr.map BitVec.toNat
  | .nc => h.nc.map BitVec.toNat
  | .rssi => h.rssi.map BitVec.toNat
  | .rssi0 => h.rssi0.map BitVec.toNat
  | .rssi1 => h.rssi1.map BitVec.toNat
  | .rssi2 => h.rssi2.map BitVec.toNat
  | .payloadLen => h.payloadLen.map BitVec.toNat
  | .bufLen => h.bufLen.map BitVec.toNat
  | .capTs => h.capTs.map BitVec.toNat
  | .src => h.src.map BitVec.toNat

/-- The one generic extraction routine (R122): each row's bytes go to its register; `none` when a byte of a row holds
no value (R22). -/
def extractFields (s : State) : List HdrRow → Header → Option Header
  | [], h => some h
  | row :: rows, h =>
    match s.memRead (row.off.resolve s.cnt.toNat) row.width with
    | some v => extractFields s rows (h.set v row.reg)
    | none => none

/-- The header of the frame in `FB` (R122 to R124): the fields, the capture timestamp, the source mode; `none` when a
byte it needs, or `TS_IN`, holds no value (R22; log 4, log 5). -/
def parseHeader (src : Src) (s : State) : Option Header :=
  match extractFields s hdrTable Header.empty, s.tsIn with
  | some h, some stamp => some { h with capTs := some stamp, src := some (sourceBit src) }
  | _, _ => none

/-- `HPARSE.src` (R120): the checks before start, `NotReady` among them when an element it needs holds no value (R22, R237;
log 4); the length check (R121), for which no element of `FB` is needed; extraction, completion (R125). -/
def headerParse (src : Src) (s : State) : State :=
  if s.cfg.fbSize < s.cnt.toNat then s.raise .notStarted .badCount s.cnt
  else if s.cnt.toNat < Config.hdrMin then s.dropHeader.start.raise .headerParser .truncatedHeader s.cnt
  else
    match parseHeader src s with
    | none => s.raise .notStarted .notReady 0
    | some h => State.complete { s.dropHeader.start with hdr := h, hv := true }

/-- The meaning of `HPARSE.L` (R120). -/
def execHparseL (s : State) : Host.Outcome State Fault Refusal := .next (headerParse .live s)

/-- The meaning of `HPARSE.R` (R120). -/
def execHparseR (s : State) : Host.Outcome State Fault Refusal := .next (headerParse .replay s)

end Sys2Proof.Machine
end

