-- ==== Sys2Proof/Machine/SampleDecoder.lean ====
section
/-! DEFINITION. The Bitstream Sample Decoder (`42_sample_decoder.md`): `DECODE.L` and `DECODE.R`, and their internal
steps `INIT`, `REFILL`, `EXTRACT`, `PAIR`, `STORE`. -/

namespace Sys2Proof.Machine

/-- `REFILL` (R146): when fewer than `B` bits are pending, stack the next word above them. Its errors are
`BufferUnderrun(CUR)` (R153) and, for a word that holds no value, `NotReady` (R22), which the check before start leaves to
no run (log 4). The bounds check is made on naturals, so it needs no 17th bit (R291). -/
def refill (s : State) (w : Work) : Except (ErrCode × Word16) Work :=
  if w.bl.toNat < s.cfg.bits then
    if w.lim.toNat < w.cur.toNat + 2 then .error (.bufferUnderrun, w.cur)
    else
      match s.fetchWord w.cur.toNat with
      | none => .error (.notReady, 0)
      | some word =>
        .ok { w with
          acc := w.acc + (BitVec.ofNat 32 word <<< w.bl.toNat)
          bl := w.bl + BitVec.ofNat 5 Config.word
          cur := w.cur + 2 }
  else .ok w

/-- `EXTRACT`, mask: `raw = ACC[B-1:0]` (R147). -/
def rawComponent (bits : Nat) (w : Work) : Nat := w.acc.toNat % 2 ^ bits

/-- `EXTRACT`, consume: `ACC <- ACC >> B`, `BL <- BL - B` (R149). -/
def consume (bits : Nat) (w : Work) : Work :=
  { w with acc := w.acc >>> bits, bl := w.bl - BitVec.ofNat 5 bits }

/-- `COMPONENT()` (R140, R150): `REFILL` if needed, then `EXTRACT`: mask, sign extension (R148), consume. -/
def component (s : State) (w : Work) : Except (ErrCode × Word16) (Int × Work) :=
  match refill s w with
  | .error e => .error e
  | .ok w' => .ok (signExtend s.cfg.bits (rawComponent s.cfg.bits w'), consume s.cfg.bits w')

/-- The next triple of the walk (R145): receive index innermost, then transmit, then subcarrier; `none` when the walk
has ended. -/
def Work.advance (d : Dim) (w : Work) : Option Work :=
  if w.r.toNat + 1 < d.nr.toNat then some { w with r := w.r + 1, phase := .imaginary }
  else if w.t.toNat + 1 < d.nc.toNat then some { w with r := 0, t := w.t + 1, phase := .imaginary }
  else if w.k.toNat + 1 < d.nt.toNat then some { w with r := 0, t := 0, k := w.k + 1, phase := .imaginary }
  else none

/-- `STORE` (R151): `SM[T * nr + R][K] <- (re, im)`. -/
def storeSample (d : Dim) (w : Work) (x : Sample) (s : State) : State :=
  { s with sm := s.sm.write (entryKey (pairIndex d.nr.toNat w.t.toNat w.r.toNat) w.k.toNat) x }

/-- Completion of a `DECODE` (R152): `SMV <- 1`, the working set holds no value. -/
def finishDecode (s : State) : State := State.complete { s with smv := true, work := none }

/-- One component of the walk (`PAIR`, R150): the imaginary one is held in `IMH`; the real one completes the sample,
which is stored, and the walk moves on or ends. An error of `REFILL` ends the command (R153). -/
def walkStep (s : State) : State :=
  match s.dim, s.work with
  | some d, some w =>
    match component s w with
    | .error (e, info) => s.raise .sampleDecoder e info
    | .ok (v, w') =>
      match w.phase with
      | .imaginary => { s with work := some { w' with phase := .real v } }
      | .real imh =>
        let s₁ := storeSample d w ⟨v, imh⟩ s
        match w'.advance d with
        | some w'' => { s₁ with work := some w'' }
        | none => finishDecode s₁
  | _, _ => s

/-- `INIT` (R144), once per `DECODE`, always: the first word, or `BufferUnderrun(start)`. With no sample to extract
(R159) the walk is empty and the command completes. -/
def initDecode (start : Nat) (d : Dim) (s : State) : State :=
  if s.cnt.toNat < start + 2 then s.raise .sampleDecoder .bufferUnderrun (BitVec.ofNat 16 start)
  else
    match s.fetchWord start with
    | none => s.raise .sampleDecoder .notReady 0
    | some word =>
      if d.samples = 0 then finishDecode s
      else
        { s with
          work := some
            { acc := BitVec.ofNat 32 word
              bl := BitVec.ofNat 5 Config.word
              cur := BitVec.ofNat 16 (start + 2)
              lim := s.cnt
              k := 0
              t := 0
              r := 0
              phase := .imaginary } }

/-- How many words a `DECODE` fetches: `W` when it completes (R155), else those that lie below `CNT` (R153). -/
def State.wordsToFetch (s : State) (start : Nat) (d : Dim) : Nat :=
  min (d.words s.cfg.bits) ((s.cnt.toNat - start) / 2)

/-- The bytes a `DECODE` fetches all hold values: what it needs of `FB` (R22; log 4). -/
def State.wordsHeld (s : State) (start : Nat) (d : Dim) : Bool :=
  (s.streamValue start (s.wordsToFetch start d)).isSome

/-- `DECODE.src nr, nc, nt` up to the start of the walk: the checks before start, `NotReady` among them when a byte it
needs holds no value (R22, R237; log 4), entry (R143), `INIT`. -/
def beginDecode (src : Src) (d : Dim) (s : State) : State :=
  if s.cfg.fbSize < s.cnt.toNat then s.raise .notStarted .badCount s.cnt
  else if s.wordsHeld (startOffset src) d then
    initDecode (startOffset src) d { s.dropMatrix.start with dim := some d }
  else s.raise .notStarted .notReady 0

/-- Run the walk for at most so many components, or until the command has ended. -/
def runWalk : Nat → State → State
  | 0, s => s
  | n + 1, s =>
    match s.run with
    | .idle => s
    | .busy => runWalk n (walkStep s)

/-- `DECODE.src nr, nc, nt` (R140), run to its end. -/
def sampleDecode (src : Src) (d : Dim) (s : State) : State := runWalk d.components (beginDecode src d s)

/-- The meaning of `DECODE.L nr, nc, nt` (R140). -/
def execDecodeL (nr nc nt : BitVec 8) (s : State) : Host.Outcome State Fault Refusal :=
  .next (sampleDecode .live ⟨nr, nc, nt⟩ s)

/-- The meaning of `DECODE.R nr, nc, nt` (R140). -/
def execDecodeR (nr nc nt : BitVec 8) (s : State) : Host.Outcome State Fault Refusal :=
  .next (sampleDecode .replay ⟨nr, nc, nt⟩ s)

end Sys2Proof.Machine
end

