-- ==== Sys2Proof/Machine/Dispatch.lean ====
section
/-! DEFINITION. One command, run to its end (`00_scope.md` R5): one arm per command. -/

namespace Sys2Proof.Machine

def exec (i : Instr) (s : State) : Host.Outcome State Fault Refusal :=
  match i with
  | .hparseL => Sys2Proof.Machine.execHparseL s
  | .hparseR => Sys2Proof.Machine.execHparseR s
  | .decodeL nr nc nt => Sys2Proof.Machine.execDecodeL nr nc nt s
  | .decodeR nr nc nt => Sys2Proof.Machine.execDecodeR nr nc nt s
  | .magdb => Sys2Proof.Machine.execMagdb s
  | .stab thr => Sys2Proof.Machine.execStab thr s

end Sys2Proof.Machine
end

