-- ==== Sys2Proof/Machine/Ports.lean ====
section
/-! DEFINITION. The ports through which the host reaches the block (`10_state.md` R42). -/

namespace Sys2Proof.Machine

/-- The command port (R90, R235): a legal word runs its command; an illegal one raises `IllegalCommand`. -/
def issue (w : Word32) (s : State) : Host.Outcome State Fault Refusal :=
  match decode w with
  | .ok i => exec i s
  | .error _ => .next (s.raise .notStarted .illegalCommand 0)

/-- What a read port answers; `none` where the element holds no value (R22, R42, R272). -/
def State.readPort (s : State) : ReadPort → Option ReadValue
  | .status => some (.status s.run s.err s.errInfo s.hv s.smv s.dbv s.svv)
  | .header reg => if s.hv then (s.hdr.get reg).map (ReadValue.header reg) else none
  | .shape => if s.smv then s.dim.map ReadValue.shape else none
  | .sample p k =>
    if s.smv && s.dim.any (fun d => decide (p < d.streams) && decide (k < d.tones)) then
      (s.sm.read (entryKey p k)).map ReadValue.sample
    else none
  | .decibel p k =>
    if s.dbv && s.dim.any (fun d => decide (p < d.streams) && decide (k < d.tones)) then
      (s.dbm.read (entryKey p k)).map ReadValue.decibel
    else none
  | .stability p =>
    if s.svv && s.dim.any (fun d => decide (p < d.streams)) then (s.sv.read p).map ReadValue.stability else none

/-- A read by the host: no side effect; of an element that holds no value, a fault of the host (R22, R42, U3). -/
def hostRead (port : ReadPort) (s : State) : Host.Outcome State Fault Refusal :=
  match s.readPort port with
  | some _ => .next s
  | none => .fault .hostReadsNoValue

/-- A host write to `FB` (R42, R61): an offset at or above `FB_SIZE` does not exist. -/
def hostWriteByte (offset : Nat) (byte : Byte) (s : State) : Host.Outcome State Fault Refusal :=
  if offset < s.cfg.fbSize then .next { s with fb := s.fb.write offset byte }
  else .fault .hostWritesOutsideBuffer

/-- A host action that is legal only in `IDLE` (R42): while `BUSY` it is a fault of the host (R266, R270, U4). -/
def whenIdle (s : State) (act : Host.Outcome State Fault Refusal) : Host.Outcome State Fault Refusal :=
  match s.run with
  | .idle => act
  | .busy => .fault .hostActsWhileBusy

/-- What one host action does (R42). -/
def accept (x : HostInput) (s : State) : Host.Outcome State Fault Refusal :=
  match x with
  | .fbWrite offset byte => whenIdle s (hostWriteByte offset byte s)
  | .cntWrite v => whenIdle s (.next { s with cnt := v })
  | .tsWrite v => whenIdle s (.next { s with tsIn := some v })
  | .command w => whenIdle s (issue w s)
  | .read port => hostRead port s
  | .reset => .next s.applyReset

/-- With nothing at its ports an idle block stays as it is, and a busy one runs the next component of its `DECODE`
(R5, R158). -/
def undisturbed (s : State) : Host.Outcome State Fault Refusal :=
  match s.run, s.dim, s.work with
  | .idle, _, _ => .next s
  | .busy, some _, some _ => .next (walkStep s)
  | .busy, _, _ => .fault .busyWithoutDecode

/-- The next step: the host's next action, or none. -/
def takeStep (s : State) : Host.Outcome State Fault Refusal :=
  match s.inputs with
  | [] => undisturbed s
  | x :: rest => accept x { s with inputs := rest }

/-- Offer a command word at the port, before anything else the host does, to an idle block. -/
def State.offer (w : Word32) (s : State) : State :=
  { s with run := .idle, inputs := .command w :: s.inputs }

end Sys2Proof.Machine
end

