-- ==== Sys2Proof/Machine/Step.lean ====
section
/-! DEFINITION. The step function, over `Machine/Ports.lean`. -/

namespace Sys2Proof.Machine

/-- One step: one action of the host and what the block does on it, a command being run to its end (`00_scope.md` R5). -/
def step (s : State) : Host.Outcome State Fault Refusal := takeStep s

/-- The state in which the next step runs the instruction of these bits: its word is at the command port (R27, R42;
log 1). The bits above `nbits` are 0. -/
def State.withFetchWord (s : State) (nbits w : Nat) : State := s.offer (BitVec.ofNat 32 (w % 2 ^ nbits))

end Sys2Proof.Machine
end

