-- ==== Sys2Proof/Machine/Decibel.lean ====
section
/-! DEFINITION. What the powers held in `DBM` mean: the exact real decibels of `43_amplitude_analyzer.md` R183, R184, R187,
for any `DB_MIN`. No command computes a real; these relations are what the integer forms are held to. -/

namespace Sys2Proof.Machine

/-- The real `d` is the dB value of a sample of power `P`: `DB_MIN` when `P = 0` (R184), else `10 * log10(P)` (R183). -/
def IsDecibel (dbMin : ℝ) (power : Nat) (d : ℝ) : Prop :=
  (power = 0 ∧ d = dbMin) ∨ (0 < power ∧ d = 10 * Real.logb 10 power)

/-- `DB_MIN` is any real below -255 (R7, R184). -/
def LegalDbMin (dbMin : ℝ) : Prop := dbMin < -255

/-- `range(d) <= thr` for a non-empty sequence of reals (R187): its largest member less its smallest is at most `thr`. -/
def RangeAtMost (ds : List ℝ) (thr : ℝ) : Prop :=
  ∃ hi ∈ ds, ∃ lo ∈ ds, (∀ d ∈ ds, lo ≤ d ∧ d ≤ hi) ∧ hi - lo ≤ thr

end Sys2Proof.Machine
end

