-- ==== Sys2Proof/Machine/HostModel.lean ====
section
/-! DEFINITION. The host's contracts (`44_externals.md`), outside `step`: the Decision Trigger, the bounds check, the log
record, the pseudo-commands (`30_encoding.md` R107), the live and replay sequences and their loops, and the packer (R161). -/

namespace Sys2Proof.Machine

/-- The Decision Trigger (R210, R211): the AND of the first `K_TRIG` flags, defined only when the vector is that long;
never `false` for want of flags (U10). -/
def decision (kTrig : Nat) (s : State) : Option Bool :=
  if s.svv && decide (1 ≤ kTrig) && s.dim.any (fun d => decide (kTrig ≤ d.streams)) then
    some ((List.range kTrig).all (fun p => s.sv.read p == some true))
  else none

/-- The host's bounds check before a `DECODE` (R222): `start + 2 * W <= CNT`. -/
def boundsCheck (src : Src) (d : Dim) (s : State) : Bool :=
  decide (startOffset src + 2 * d.words s.cfg.bits ≤ s.cnt.toNat)

/-- The value of a little-endian byte string. -/
def littleEndian : List Byte → Nat
  | [] => 0
  | b :: bs => b.toNat + 256 * littleEndian bs

/-- One log record after its length field: the 26 timestamp bytes and the raw frame buffer (R104). -/
structure LogRecord where
  stamp : List Byte
  raw : List Byte
  deriving DecidableEq, Repr

/-- The next record of a log and the rest of the log (R104, R213); `none` when too few bytes are left, which ends the
replay cleanly. -/
def readRecord (log : List Byte) : Option (LogRecord × List Byte) :=
  let n := littleEndian (log.take 2)
  if 2 + Config.tsLen + n ≤ log.length then
    some (⟨(log.drop 2).take Config.tsLen, (log.drop (2 + Config.tsLen)).take n⟩, log.drop (2 + Config.tsLen + n))
  else none

/-- The port writes that put bytes at the start of `FB` and their count in `CNT` (R214, R215, R262). -/
def loadBytes (bytes : List Byte) : List HostInput :=
  (bytes.zipIdx.map (fun e => HostInput.fbWrite e.2 e.1)) ++ [.cntWrite (BitVec.ofNat 16 bytes.length)]

/-- The port write of a timestamp text. -/
def loadStamp (stamp : List Byte) : List HostInput := [.tsWrite (BitVec.ofNat 208 (littleEndian stamp))]

/-- What the host does after an action that did not stop it. -/
def andThen {α β : Type} (o : Host.Outcome α Fault Refusal) (f : α → Host.Outcome β Fault Refusal) :
    Host.Outcome β Fault Refusal :=
  match o with
  | .next a => f a
  | .fault r => .fault r
  | .refused r => .refused r

/-- The machine serving a list of host actions, one step each, stopping at the first fault. -/
def serve : List HostInput → State → Host.Outcome State Fault Refusal
  | [], s => .next s
  | x :: xs, s => andThen (step { s with inputs := [x] }) (serve xs)

/-- The host issues one command. -/
def runCommand (i : Instr) (s : State) : Host.Outcome State Fault Refusal := serve [.command (encode i)] s

/-- Commands in order, the host checking `ERR` after each and stopping at the first error (R107). -/
def serveCommands : List Instr → State → Host.Outcome State Fault Refusal
  | [], s => .next s
  | i :: is, s => andThen (runCommand i s) fun t => if t.err = 0 then serveCommands is t else .next t

/-- The pseudo-command `ANALYZE thr` (R107 (a)). -/
def analyze (thr : BitVec 8) (s : State) : Host.Outcome State Fault Refusal := serveCommands [.magdb, .stab thr] s

/-- `HPARSE.x` for a source mode. -/
def parseCommand : Src → Instr
  | .live => .hparseL
  | .replay => .hparseR

/-- `DECODE.x` for a source mode and a shape. -/
def decodeCommand (src : Src) (d : Dim) : Instr :=
  match src with
  | .live => .decodeL d.nr d.nc d.nt
  | .replay => .decodeR d.nr d.nc d.nt

/-- The counts the host reads from the header file (R107 (b)). -/
def headerShape (s : State) : Option Dim :=
  match s.hv, s.hdr.nr, s.hdr.nc, s.hdr.numTones with
  | true, some nr, some nc, some nt => some ⟨nr, nc, nt⟩
  | _, _, _, _ => none

/-- The data section of a raw frame buffer: what follows the status block and the payload length (R215, C4). -/
def dataSection (raw : List Byte) : List Byte := raw.drop Config.liveStart

/-- What the host writes between `HPARSE.x` and `DECODE.x`: nothing live; the data section in replay (R107 (b), R215). -/
def reload (src : Src) (raw : List Byte) : List HostInput :=
  match src with
  | .live => []
  | .replay => loadBytes (dataSection raw)

/-- The pseudo-command `FRAME.x thr` (R107 (b)), for a frame whose raw bytes the host has loaded: `HPARSE.x`; read the
counts and, in replay, reload; `DECODE.x`; `MAGDB`; `STAB thr`. It stops at the first error; it makes no bounds check. -/
def frame (src : Src) (raw : List Byte) (thr : BitVec 8) (s : State) : Host.Outcome State Fault Refusal :=
  andThen (runCommand (parseCommand src) s) fun t =>
    match t.err, headerShape t with
    | 0, some d => andThen (serve (reload src raw) t) (serveCommands [decodeCommand src d, .magdb, .stab thr])
    | _, _ => .next t

/-- What the host has to report of one frame (R212 to R216): the decision, or why there is none. -/
inductive FrameReport where
  /-- a zero-byte read: no frame is available, no command was issued (R212). -/
  | noFrame
  /-- `HPARSE` ended with an error: logged, the frame is skipped (R214). -/
  | headerError (err : BitVec 4)
  /-- the bounds check failed: logged, the frame is skipped (R214, R222). -/
  | outOfBounds
  /-- `DECODE` ended with an error: logged, the frame is skipped (R214). -/
  | decodeError (err : BitVec 4)
  /-- `MAGDB` or `STAB` ended with an error: there is no Stability Vector to decide on (R210). -/
  | analysisError (err : BitVec 4)
  /-- the Decision Trigger was asked; it gives no decision for a vector that is too short (R210, R211, U10). -/
  | analyzed (decision : Option Bool)
  deriving DecidableEq, Repr

/-- `MAGDB`, `STAB thr`, Decision Trigger: the end of both sequences (R214, R215). The trigger is asked only after a `STAB`
that ended with `ERR = 0` (R210). -/
def analyzeAndDecide (thr : BitVec 8) (kTrig : Nat) (s : State) :
    Host.Outcome (State × FrameReport) Fault Refusal :=
  andThen (analyze thr s) fun t =>
    .next (t, if t.err = 0 then .analyzed (decision kTrig t) else .analysisError t.err)

/-- The part of both sequences after the load (R214, R215): `HPARSE`, the counts, the bounds check, in replay the data
section, `DECODE`, and the analysis; a frame that fails is skipped with nothing decided. The check is made on the raw frame
in both modes, where it is the same as R222's on the data section. -/
def processFrame (src : Src) (raw : List Byte) (thr : BitVec 8) (kTrig : Nat) (s : State) :
    Host.Outcome (State × FrameReport) Fault Refusal :=
  andThen (runCommand (parseCommand src) s) fun t =>
    match t.err, headerShape t with
    | 0, some d =>
      if boundsCheck .live d t then
        andThen (serve (reload src raw) t) fun u =>
          andThen (runCommand (decodeCommand src d) u) fun v =>
            if v.err = 0 then analyzeAndDecide thr kTrig v else .next (v, .decodeError v.err)
      else .next (t, .outOfBounds)
    | _, _ => .next (t, .headerError t.err)

/-- The live sequence for one read of the device (R212, R214): no command for a zero-byte read; else load the chunk and
the time, and process it as one frame (R220, U16). -/
def liveSequence (chunk stamp : List Byte) (thr : BitVec 8) (kTrig : Nat) (s : State) :
    Host.Outcome (State × FrameReport) Fault Refusal :=
  if chunk.isEmpty then .next (s, .noFrame)
  else andThen (serve (loadBytes chunk ++ loadStamp stamp) s) (processFrame .live chunk thr kTrig)

/-- The replay sequence of one record (R215). DESIGN CHOICE (log 17): the spec does not say what a host does with a record of
more than `FB_SIZE` bytes; here its load is the host's fault `hostWritesOutsideBuffer`, so nothing is run or reported. -/
def replaySequence (x : LogRecord) (thr : BitVec 8) (kTrig : Nat) (s : State) :
    Host.Outcome (State × FrameReport) Fault Refusal :=
  andThen (serve (loadBytes x.raw ++ loadStamp x.stamp) s) (processFrame .replay x.raw thr kTrig)

/-- Frames one after another, each report kept; an error of one frame does not end the loop (R216, R242). DESIGN CHOICE
(log 17): a fault of the host, such as a frame longer than the buffer, ends the whole loop with that fault, the earlier reports
included. -/
def eachFrame {α : Type} (sequence : α → State → Host.Outcome (State × FrameReport) Fault Refusal) :
    List α → State → Host.Outcome (State × List FrameReport) Fault Refusal
  | [], s => .next (s, [])
  | x :: xs, s =>
    andThen (sequence x s) fun t =>
      andThen (eachFrame sequence xs t.1) fun u => .next (u.1, t.2 :: u.2)

/-- The acquisition loop of a live session (R212, R216): one read, with its time, on each tick. The list ends where the host
sees its shutdown signal, before a read (R218). -/
def liveLoop (reads : List (List Byte × List Byte)) (thr : BitVec 8) (kTrig : Nat) (s : State) :
    Host.Outcome (State × List FrameReport) Fault Refusal :=
  eachFrame (fun x => liveSequence x.1 x.2 thr kTrig) reads s

/-- The full records of a log, at most so many: reading ends cleanly where too few bytes are left for a next one (R213). -/
def readRecords : Nat → List Byte → List LogRecord
  | 0, _ => []
  | n + 1, log =>
    match readRecord log with
    | some (x, rest) => x :: readRecords n rest
    | none => []

/-- The replay of a log (R213): the replay sequence for each full record. A record has at least one byte, so the length of
the log bounds their number. -/
def replayLog (log : List Byte) (thr : BitVec 8) (kTrig : Nat) (s : State) :
    Host.Outcome (State × List FrameReport) Fault Refusal :=
  eachFrame (fun x => replaySequence x thr kTrig) (readRecords log.length log) s

/-- The sent-packet counter (R219): it counts the frames whose decision was to transmit, and nothing else. -/
def sentPackets (reports : List FrameReport) : Nat := reports.countP (· == .analyzed (some true))

/-- The stream value of samples in stream order (R161): each part modulo `2^B`, imaginary first. -/
def packValue (bits : Nat) : List Sample → Nat
  | [] => 0
  | x :: xs =>
    (x.im % 2 ^ bits).toNat + 2 ^ bits * (x.re % 2 ^ bits).toNat + 2 ^ (2 * bits) * packValue bits xs

/-- Byte `j` of a stream value, `S[8j+7:8j]` (R161). -/
def packByte (stream j : Nat) : Byte := BitVec.ofNat 8 (stream / 2 ^ (8 * j))

/-- The packer (R161): the bytes of the samples of a shape, in stream order, the unused bits 0. -/
def packBytes (bits : Nat) (d : Dim) (xs : List Sample) : List Byte :=
  (List.range (2 * d.words bits)).map (packByte (packValue bits xs))

end Sys2Proof.Machine
end

