-- ==== Sys2Proof/Safety.lean ====
section
/-! DEFINITION. What every state of a run satisfies, and what a host that keeps its duties does at the ports. -/

namespace Sys2Proof.Machine

/-- The names of the header registers (R24). -/
def headerRegs : List HdrReg :=
  [.tstamp, .csiLen, .channel, .phyerr, .noise, .rate, .chanbw, .numTones, .nr, .nc, .rssi, .rssi0, .rssi1, .rssi2,
    .payloadLen, .bufLen, .capTs, .src]

/-- Every header register holds a value. -/
def Header.full (h : Header) : Bool := headerRegs.all (fun r => (h.get r).isSome)

/-- The sample matrix holds exactly the first `n` samples of the stream, each at its entry inside the shape, each
component in range (R34, R101, R152). -/
def matrixUpTo (bits : Nat) (d : Dim) (n : Nat) (m : Memory Sample) : Bool :=
  m.covers d n &&
    m.all (fun e => d.holds e.1 && decide (d.sampleNumber (e.1 / 256) (e.1 % 256) < n) && e.2.fits bits)

/-- Every store is in canonical form, and `FB` lists only offsets below `FB_SIZE` (R61). -/
def State.storesOk (s : State) : Bool :=
  s.fb.wf && s.fb.all (fun e => decide (e.1 < s.cfg.fbSize)) && s.sm.wf && s.dbm.wf && s.sv.wf

/-- `ERR` is one of 0, 1, 2, 5, 6, 7, 8 (R230, U19). -/
def State.errOk (s : State) : Bool := [0, 1, 2, 5, 6, 7, 8].contains s.err.toNat

/-- `HV = 1` when every `HDR.*` holds a value, `HV = 0` when none does (R25). -/
def State.headerOk (s : State) : Bool := if s.hv then s.hdr.full else s.hdr == Header.empty

/-- `SMV = 1` when `DIM` and every entry of `SM` inside the shape, and no other, hold values; in `IDLE` with `SMV = 0`
none does (R33, R34, R37). -/
def State.matrixOk (s : State) : Bool :=
  match s.smv, s.run with
  | true, _ => s.dim.any (fun d => matrixUpTo s.cfg.bits d d.samples s.sm)
  | false, .idle => s.dim.isNone && s.sm.isEmpty
  | false, .busy => true

/-- `DBV = 1` implies `SMV = 1`, and `DBM` holds the dB values of the matrix now in `SM` (R35, R37, R272). -/
def State.decibelsOk (s : State) : Bool :=
  if s.dbv then s.smv && s.dim.any (fun d => s.dbm == s.sm.mapShape d Sample.power) else s.dbm.isEmpty

/-- `SVV = 1` implies `DBV = 1`, and `SV` has exactly one entry per stream (R36, R190, R272). -/
def State.stabilityOk (s : State) : Bool :=
  if s.svv then s.dbv && s.dim.any (fun d => s.sv.map Prod.fst == List.range d.streams) else s.sv.isEmpty

/-- How many samples the walk has stored: the number of the sample `(K, T, R)` (R145). -/
def Work.sampleCount (d : Dim) (w : Work) : Nat := (w.k.toNat * d.nc.toNat + w.t.toNat) * d.nr.toNat + w.r.toNat

/-- How many components the walk has extracted. -/
def Work.componentCount (d : Dim) (w : Work) : Nat := 2 * w.sampleCount d + w.c.toNat

/-- The invariants of the working set between two components (R157): `ACC < 2^BL`; `BL <= 15`, but 16 before the first
component; `CUR <= LIM = CNT`; the fetched words hold the extracted components and the pending bits; every word the walk
fetches holds a value (R22); the indices below
their bounds (R28); `IMH` in range. -/
def Work.ok (s : State) (d : Dim) (w : Work) : Bool :=
  decide (w.acc.toNat < 2 ^ w.bl.toNat) &&
    (decide (w.bl.toNat ≤ 15) || (decide (w.bl.toNat = 16) && decide (w.componentCount d = 0))) &&
    w.lim == s.cnt && decide (s.cnt.toNat ≤ s.cfg.fbSize) && decide (w.cur.toNat ≤ w.lim.toNat) &&
    [Src.live, Src.replay].any (fun src =>
      decide (startOffset src ≤ w.cur.toNat) && decide ((w.cur.toNat - startOffset src) % 2 = 0) &&
        decide (8 * (w.cur.toNat - startOffset src) = w.componentCount d * s.cfg.bits + w.bl.toNat) &&
        s.wordsHeld (startOffset src) d) &&
    decide (w.k.toNat < d.nt.toNat) && decide (w.t.toNat < d.nc.toNat) && decide (w.r.toNat < d.nr.toNat) &&
    w.imh.all (componentFits s.cfg.bits)

/-- In `IDLE` the working set holds no value (R41); in `BUSY` a `DECODE` is in its walk, no result is valid (R143), and
exactly the samples walked so far are stored (R151). -/
def State.walkOk (s : State) : Bool :=
  match s.run, s.dim, s.work with
  | .idle, _, w => w.isNone
  | .busy, some d, some w =>
    !s.smv && w.ok s d && matrixUpTo s.cfg.bits d (w.sampleCount d) s.sm
  | .busy, _, _ => false

/-- The invariant of every run, as a check. -/
def State.inv (s : State) : Bool :=
  s.storesOk && s.errOk && s.headerOk && s.matrixOk && s.decibelsOk && s.stabilityOk && s.walkOk

/-- The invariant of every run. -/
abbrev State.Inv (s : State) : Prop := s.inv = true

/-- What the host does next is within its duties (R42, R266, R270, R272): nothing, reset, a read of an element that
holds a value, or a write or command in `IDLE`, a frame-buffer write inside the buffer. -/
def State.hostDutiful (s : State) : Bool :=
  match s.inputs with
  | [] => true
  | .reset :: _ => true
  | .read port :: _ => (s.readPort port).isSome
  | .fbWrite offset _ :: _ => s.run == .idle && decide (offset < s.cfg.fbSize)
  | .cntWrite _ :: _ => s.run == .idle
  | .tsWrite _ :: _ => s.run == .idle
  | .command _ :: _ => s.run == .idle

/-- A run of so many steps stops nowhere. -/
def State.safeFor (n : Nat) (s : State) : Prop := ∃ t, Host.Core.run Sys2Proof.core n s = .next t

end Sys2Proof.Machine
end

