-- ==== Sys2Proof/Certificates/Slice0/Obligations.lean ====
section
/-! DEFINITION. The statements about the model, one `Prop` each; nothing is proved here. Each docstring names the rules of
the spec it formalises, or says that it states a choice of the model's and names its log entry. -/

open Sys2Proof Sys2Proof.Machine

/-! ### Command words -/

/-- `30_encoding.md` R91, R92: decoding the word of a command gives the command back, with every operand at every
value. -/
def Obligations.DecodeOfEncodeIsTheCommand : Prop :=
  ∀ i : Instr, i.wellFormed = true → decode (encode i) = .ok i

/-- R91, R92: a word the decoder accepts is the word of the command it gives: each command has one word. -/
def Obligations.EncodeOfDecodeIsTheWord : Prop :=
  ∀ (w : Word32) (i : Instr), decode w = .ok i → encode i = w

/-- R94: a word is illegal exactly under the conditions of the rule; at the command port it raises `IllegalCommand` and
nothing else changes but `ERR`, `ERRINFO` (and `STATE`, which is `IDLE`); every other word stands for a command. The
conditions are written on the number of the word. -/
def Obligations.IllegalWordsAreThoseOfTheRule : Prop :=
  ∀ (w : Word32) (s : State),
    let n := w.toNat
    let op := n / 2 ^ 28
    let src := n / 2 ^ 27 % 2
    let z := n / 2 ^ 24 % 8
    let a := n / 2 ^ 16 % 256
    let b := n / 2 ^ 8 % 256
    let c := n % 256
    if op = 0 ∨ 5 ≤ op ∨ z ≠ 0 ∨ ((op = 1 ∨ op = 3) ∧ (a ≠ 0 ∨ b ≠ 0 ∨ c ≠ 0)) ∨
        (op = 4 ∧ (b ≠ 0 ∨ c ≠ 0)) ∨ ((op = 3 ∨ op = 4) ∧ src = 1) then
      issue w s = .next { s with err := 5, errInfo := 0, run := .idle }
    else ∃ i, decode w = .ok i ∧ issue w s = exec i s

/-- R92, and the table of `95_test_vectors.md` section 2.1: words written out from the opcode map decode to the commands
they stand for. -/
def Obligations.WrittenWordsDecodeToTheirCommands : Prop :=
  decodeTableWord 32 0x10000000 = some .hparseL ∧ decodeTableWord 32 0x18000000 = some .hparseR ∧
    decodeTableWord 32 0x20020103 = some (.decodeL 2 1 3) ∧ decodeTableWord 32 0x28010102 = some (.decodeR 1 1 2) ∧
    decodeTableWord 32 0x30000000 = some .magdb ∧ decodeTableWord 32 0x40140000 = some (.stab 20) ∧
    decodeTableWord 32 0x00000000 = none ∧ decodeTableWord 32 0xFFFFFFFF = none

/-! ### The step -/

/-- A step runs the decoded command: in `IDLE`, with a word at the command port that decodes to `i`, the step is `exec i`
on the state whose port has been served. -/
def Obligations.StepRunsTheDecodedCommand : Prop :=
  ∀ (s : State) (w : Word32) (rest : List HostInput) (i : Instr),
    s.run = .idle → s.inputs = .command w :: rest → decode w = .ok i →
      step s = exec i { s with inputs := rest }

/-- R235: in `IDLE` an illegal word ends with `ERR = 5`, `ERRINFO = 0`, and no other state changes. -/
def Obligations.StepRaisesIllegalCommand : Prop :=
  ∀ (s : State) (w : Word32) (rest : List HostInput),
    s.run = .idle → s.inputs = .command w :: rest → (CmdWord.ofWord w).legal = false →
      step s = .next { s with inputs := rest, err := 5, errInfo := 0 }

/-- R40, R260: reset, at any time, `BUSY` included, puts every element at the value of the table, under the same
parameters. -/
def Obligations.ResetGivesTheResetValuesAtAnyTime : Prop :=
  ∀ (s : State) (rest : List HostInput), s.inputs = .reset :: rest →
    ∃ t, step s = .next t ∧ t.run = .idle ∧ t.err = 0 ∧ t.errInfo = 0 ∧ t.hv = false ∧ t.smv = false ∧ t.dbv = false ∧
      t.svv = false ∧ t.cnt = 0 ∧ (∀ a, t.fb.read a = none) ∧ t.tsIn = none ∧ (∀ r, t.hdr.get r = none) ∧ t.dim = none ∧
      t.work = none ∧ (∀ k, t.sm.read k = none) ∧ (∀ k, t.dbm.read k = none) ∧ (∀ p, t.sv.read p = none) ∧ t.cfg = s.cfg

/-- R40: the reset state holds the values of the table. -/
def Obligations.ResetStateHoldsTheResetValues : Prop :=
  let t := State.reset
  t.run = .idle ∧ t.err = 0 ∧ t.errInfo = 0 ∧ t.hv = false ∧ t.smv = false ∧ t.dbv = false ∧ t.svv = false ∧ t.cnt = 0 ∧
    (∀ a, t.fb.read a = none) ∧ t.tsIn = none ∧ (∀ r, t.hdr.get r = none) ∧ t.dim = none ∧ t.work = none ∧
    (∀ k, t.sm.read k = none) ∧ (∀ k, t.dbm.read k = none) ∧ (∀ p, t.sv.read p = none)

/-- R42: a write at a port, in `IDLE`, changes the element it names and nothing else (the port itself is served); a byte
of `FB` is changed at its own offset alone. -/
def Obligations.HostWritesChangeWhatTheyName : Prop :=
  ∀ (s : State) (rest : List HostInput), s.run = .idle →
    (∀ a b, s.inputs = .fbWrite a b :: rest → a < s.cfg.fbSize →
      ∃ m, step s = .next { s with inputs := rest, fb := m } ∧ m.read a = some b ∧ ∀ c, c ≠ a → m.read c = s.fb.read c) ∧
    (∀ v, s.inputs = .cntWrite v :: rest → step s = .next { s with inputs := rest, cnt := v }) ∧
    (∀ v, s.inputs = .tsWrite v :: rest → step s = .next { s with inputs := rest, tsIn := some v })

/-- R42 "Reads have no side effects."; R22, U3: a read of an element that holds no value is a fault of the host. -/
def Obligations.ReadsHaveNoSideEffects : Prop :=
  ∀ (s : State) (port : ReadPort) (rest : List HostInput), s.inputs = .read port :: rest →
    ((∃ v, s.readPort port = some v) → step s = .next { s with inputs := rest }) ∧
    (s.readPort port = none → step s = .fault .hostReadsNoValue)

/-- R272: while its flag is 1 and the entry is inside the shape, a read port answers what its store holds there; else it
answers nothing. -/
def Obligations.ReadsAreGuardedByTheFlags : Prop :=
  ∀ (s : State) (d : Dim) (p k : Nat), s.dim = some d →
    (s.readPort (.sample p k) =
      if s.smv = true ∧ p < d.streams ∧ k < d.tones then (s.sm.read (256 * p + k)).map ReadValue.sample else none) ∧
    (s.readPort (.decibel p k) =
      if s.dbv = true ∧ p < d.streams ∧ k < d.tones then (s.dbm.read (256 * p + k)).map ReadValue.decibel else none) ∧
    (s.readPort (.stability p) =
      if s.svv = true ∧ p < d.streams then (s.sv.read p).map ReadValue.stability else none) ∧
    (s.readPort .shape = if s.smv = true then some (.shape d) else none) ∧
    (∀ r, s.readPort (.header r) = if s.hv = true then (s.hdr.get r).map (ReadValue.header r) else none)

/-- R272 with R25, R34, R35, R190: in every state with the invariant, a read port has a value exactly when its flag is 1
and, for a result store, the entry is inside the shape. -/
def Obligations.ReadsHaveAValueExactlyWhenValid : Prop :=
  ∀ s : State, s.Inv →
    (∀ p k, (s.readPort (.sample p k)).isSome = true ↔
      s.smv = true ∧ ∃ d, s.dim = some d ∧ p < d.streams ∧ k < d.tones) ∧
    (∀ p k, (s.readPort (.decibel p k)).isSome = true ↔
      s.dbv = true ∧ ∃ d, s.dim = some d ∧ p < d.streams ∧ k < d.tones) ∧
    (∀ p, (s.readPort (.stability p)).isSome = true ↔ s.svv = true ∧ ∃ d, s.dim = some d ∧ p < d.streams) ∧
    ((s.readPort .shape).isSome = true ↔ s.smv = true) ∧
    (∀ r, (s.readPort (.header r)).isSome = true ↔ s.hv = true) ∧
    (s.readPort .status).isSome = true

/-- The model's choice (log 3, log 9; R266, R270, U4, R61): a host that writes or issues a command while `BUSY`, or writes
outside `FB`, stops the run with a fault of the host's. -/
def Obligations.HostActingOutsideItsDutiesFaults : Prop :=
  ∀ (s : State) (x : HostInput) (rest : List HostInput), s.inputs = x :: rest →
    (s.run = .busy → (∀ port, x ≠ .read port) → x ≠ .reset → step s = .fault .hostActsWhileBusy) ∧
    (s.run = .idle → ∀ a b, x = .fbWrite a b → s.cfg.fbSize ≤ a → step s = .fault .hostWritesOutsideBuffer)

/-- The model's choice (log 1; R27): with nothing at its ports an idle block stays as it is. -/
def Obligations.IdleBlockWithNoInputStaysAsItIs : Prop :=
  ∀ s : State, s.run = .idle → s.inputs = [] → step s = .next s

/-- Every step keeps the instance parameters (`00_scope.md` R7; R260: "are not changed by reset"). -/
def Obligations.EveryStepKeepsTheParameters : Prop :=
  ∀ s t : State, step s = .next t → t.cfg = s.cfg

/-! ### Invariants -/

/-- Every step from a state with the invariant of `Safety.lean` answers a state with it: canonical stores, `ERR` in
{0, 1, 2, 5, 6, 7, 8} (U19), each flag 1 exactly when its store holds values (R25, R37), `SVV` implies `DBV` implies `SMV`
(R272), samples inside the shape and in range (R34), `DBM` the decibels of `SM` (R35), one flag per stream (R190), the
working set as R157 says. -/
def Obligations.EveryStepKeepsTheInvariant : Prop :=
  ∀ s t : State, s.Inv → step s = .next t → t.Inv

/-- The reset state has the invariant. -/
def Obligations.ResetHasTheInvariant : Prop := State.reset.Inv

/-- A host that keeps its duties (R42, R266, R270, R272) never stops the machine: no command, with any operands, on any
data, ends a run. -/
def Obligations.DutifulHostIsNeverStopped : Prop :=
  ∀ s : State, s.Inv → s.hostDutiful = true → ∃ t, step s = .next t

/-! ### All commands -/

/-- R21, R221, R277: every command ends, on any state, with `STATE = IDLE`, and with no working set left if it found none
(R41). -/
def Obligations.EveryCommandEndsIdle : Prop :=
  ∀ (i : Instr) (s : State), ∃ t, exec i s = .next t ∧ t.run = .idle ∧ (s.work = none → t.work = none)

/-- R62: only the host writes `FB`, `CNT` and `TS_IN`: no command does (nor the parameters, nor what the host does next),
and no step with nothing at the ports does. -/
def Obligations.NoCommandWritesTheHostInputs : Prop :=
  (∀ (i : Instr) (s t : State), exec i s = .next t →
    t.fb = s.fb ∧ t.cnt = s.cnt ∧ t.tsIn = s.tsIn ∧ t.cfg = s.cfg ∧ t.inputs = s.inputs) ∧
  (∀ s t : State, s.inputs = [] → step s = .next t → t.fb = s.fb ∧ t.cnt = s.cnt ∧ t.tsIn = s.tsIn)

/-- R64: no command reads a byte at or above `CNT`: with any other bytes there it does the same. -/
def Obligations.NoCommandReadsAtOrAboveTheCount : Prop :=
  ∀ (i : Instr) (s : State) (m : Memory Byte),
    (∀ a, a < s.cnt.toNat → m.read a = s.fb.read a) →
      ∃ t, exec i s = .next t ∧ exec i { s with fb := m } = .next { t with fb := m }

/-- R230, U19: a command ends with `ERR` in {0, 1, 2, 5, 6, 7, 8}, and 5 is not a command's but an illegal word's. That
`HPARSE` and `DECODE` can end with 7 is R22's (log 4, log 5). -/
def Obligations.CommandsWriteOnlyTheirErrorCodes : Prop :=
  ∀ (i : Instr) (s t : State), exec i s = .next t →
    (i = .hparseL ∨ i = .hparseR → t.err = 0 ∨ t.err = 1 ∨ t.err = 6 ∨ t.err = 7) ∧
    (∀ nr nc nt, i = .decodeL nr nc nt ∨ i = .decodeR nr nc nt → t.err = 0 ∨ t.err = 2 ∨ t.err = 6 ∨ t.err = 7) ∧
    (i = .magdb → t.err = 0 ∨ t.err = 7) ∧
    (∀ thr, i = .stab thr → t.err = 0 ∨ t.err = 7 ∨ t.err = 8)

/-- R239: a command stopped before its start, by `BadCount`, `NotReady` or `EmptyStream`, changes nothing but `ERR` and
`ERRINFO` (`STATE` is `IDLE`). -/
def Obligations.RejectedCommandsChangeOnlyTheError : Prop :=
  ∀ (i : Instr) (s t : State), exec i s = .next t → (t.err = 6 ∨ t.err = 7 ∨ t.err = 8) →
    t = { s with err := t.err, errInfo := t.errInfo, run := .idle }

/-- R236: `HPARSE` and `DECODE` end with `BadCount` when `CNT > FB_SIZE`, with no state changed but `ERR`, `ERRINFO`. -/
def Obligations.BadCountWhenTheCountPassesTheBuffer : Prop :=
  ∀ (s : State) (src : Src) (d : Dim), s.cfg.fbSize < s.cnt.toNat →
    exec (parseCommand src) s = .next { s with err := 6, errInfo := s.cnt, run := .idle } ∧
    exec (decodeCommand src d) s = .next { s with err := 6, errInfo := s.cnt, run := .idle }

/-- R237: `MAGDB` with `SMV = 0` and `STAB` with `DBV = 0` end with `NotReady`, with no state changed but `ERR`,
`ERRINFO`. -/
def Obligations.NotReadyWhenTheInputHoldsNoValue : Prop :=
  ∀ (s : State) (thr : BitVec 8),
    (s.smv = false → exec .magdb s = .next { s with err := 7, errInfo := 0, run := .idle }) ∧
    (s.dbv = false → exec (.stab thr) s = .next { s with err := 7, errInfo := 0, run := .idle })

/-- R22, U3: a command that needs an element that holds no value ends with `NotReady`, with no state changed but `ERR`,
`ERRINFO` (R237). The elements needed are the bytes and the timestamp that `HPARSE` copies (R122 to R124), the bytes of the
words that `DECODE` fetches (R153, R155), the entries of the matrix, the entries of `DBM`. That `HPARSE` and `DECODE` end so
before they start is the model's reading (log 4, log 5); the last two clauses are of states that no run reaches (log 8). -/
def Obligations.NotReadyWhenANeededElementHoldsNoValue : Prop :=
  ∀ s : State,
    (∀ src, 25 ≤ s.cnt.toNat → s.cnt.toNat ≤ s.cfg.fbSize →
      (s.tsIn = none ∨ ∃ a, (a < 25 ∨ s.cnt.toNat - 2 ≤ a ∧ a < s.cnt.toNat) ∧ s.fb.read a = none) →
        exec (parseCommand src) s = .next { s with err := 7, errInfo := 0, run := .idle }) ∧
    (∀ src d, s.cnt.toNat ≤ s.cfg.fbSize →
      (∃ j, j < 2 * min (Dim.words s.cfg.bits d) ((s.cnt.toNat - startOffset src) / 2) ∧
        s.fb.read (startOffset src + j) = none) →
        exec (decodeCommand src d) s = .next { s with err := 7, errInfo := 0, run := .idle }) ∧
    (∀ d, s.smv = true → s.dim = some d →
      (∃ p k, p < d.streams ∧ k < d.tones ∧ s.sm.read (256 * p + k) = none) →
        exec .magdb s = .next { s with err := 7, errInfo := 0, run := .idle }) ∧
    (∀ d thr, s.dbv = true → s.dim = some d →
      (∃ p k, p < d.streams ∧ k < d.tones ∧ s.dbm.read (256 * p + k) = none) →
        exec (.stab thr) s = .next { s with err := 7, errInfo := 0, run := .idle })

/-- R262, H5: right after reset, in any instance, `HPARSE` ends with `TruncatedHeader`, `DECODE` with `BufferUnderrun` at
its start offset, `MAGDB` and `STAB` with `NotReady`. -/
def Obligations.CommandsRightAfterResetReadNothing : Prop :=
  ∀ (c : Config) (nr nc nt thr : BitVec 8),
    let s := { State.reset with cfg := c }
    exec .hparseL s = .next { s with err := 1 } ∧ exec .hparseR s = .next { s with err := 1 } ∧
    exec (.decodeL nr nc nt) s = .next { s with err := 2, errInfo := 25 } ∧
    exec (.decodeR nr nc nt) s = .next { s with err := 2 } ∧
    exec .magdb s = .next { s with err := 7 } ∧ exec (.stab thr) s = .next { s with err := 7 }

/-! ### The frame buffer and the Header Parser -/

/-- R63, R10: `MemRead(a, n)` is the sum over `j` in `[0, n)` of `FB[a+j] * 2^(8j)`, where the bytes hold values, and has no
value when one of them holds none (R22). -/
def Obligations.MemReadIsTheLittleEndianSum : Prop :=
  ∀ (s : State) (a n : Nat),
    (∀ b : Nat → Byte, (∀ j, j < n → s.fb.read (a + j) = some (b j)) →
      s.memRead a n = some ((List.range n).map (fun j => (b j).toNat * 2 ^ (8 * j))).sum) ∧
    ((∃ j, j < n ∧ s.fb.read (a + j) = none) → s.memRead a n = none)

/-- R120 to R125 with R95, R63: with `25 <= CNT <= FB_SIZE`, the bytes it copies and `TS_IN` holding values, `HPARSE` in
either mode completes: every register is the little-endian field of bytes `b` at its offset, `HDR.cap_ts` is `TS_IN`,
`HDR.src` the mode bit, `HV = 1`, `ERR = 0`, and nothing else changes. -/
def Obligations.HparseFillsTheHeader : Prop :=
  ∀ (src : Src) (s : State) (b : Nat → Byte) (stamp : Stamp), 25 ≤ s.cnt.toNat → s.cnt.toNat ≤ s.cfg.fbSize →
    (∀ a, (a < 25 ∨ s.cnt.toNat - 2 ≤ a ∧ a < s.cnt.toNat) → s.fb.read a = some (b a)) → s.tsIn = some stamp →
      let le := fun a n => ((List.range n).map (fun j => (b (a + j)).toNat * 2 ^ (8 * j))).sum
      exec (parseCommand src) s = .next { s with
        hdr :=
          { tstamp := some (BitVec.ofNat 64 (le 0 8))
            csiLen := some (BitVec.ofNat 16 (le 8 2))
            channel := some (BitVec.ofNat 16 (le 10 2))
            phyerr := some (b 12)
            noise := some (b 13)
            rate := some (b 14)
            chanbw := some (b 15)
            numTones := some (b 16)
            nr := some (b 17)
            nc := some (b 18)
            rssi := some (b 19)
            rssi0 := some (b 20)
            rssi1 := some (b 21)
            rssi2 := some (b 22)
            payloadLen := some (BitVec.ofNat 16 (le 23 2))
            bufLen := some (BitVec.ofNat 16 (le (s.cnt.toNat - 2) 2))
            capTs := some stamp
            src := some (match src with | .live => 0 | .replay => 1) }
        hv := true, err := 0, errInfo := 0, run := .idle }

/-- R121, R231: with `CNT < 25`, `HPARSE` ends with `TruncatedHeader`, `ERRINFO = CNT`, `HV = 0`, every `HDR.*` without a
value, and nothing else changed. -/
def Obligations.HparseTruncatedBelowTwentyFiveBytes : Prop :=
  ∀ (src : Src) (s : State), s.cnt.toNat < 25 →
    ∃ h : Header, (∀ r, h.get r = none) ∧
      exec (parseCommand src) s =
        .next { s with hdr := h, hv := false, err := 1, errInfo := s.cnt, run := .idle }

/-- R126: at `CNT = 25` the buffer length is the payload length; at `CNT = 26` its low byte is the payload length's high
byte; nothing is raised, where the buffer can hold `CNT` bytes (R236) and what is copied holds values (R22). -/
def Obligations.HparseOverlapInShortBuffers : Prop :=
  ∀ (src : Src) (s t : State), s.cnt.toNat ≤ s.cfg.fbSize → (∀ a, a < s.cnt.toNat → (s.fb.read a).isSome = true) →
    s.tsIn.isSome = true → exec (parseCommand src) s = .next t →
      (s.cnt.toNat = 25 → t.err = 0 ∧ ∃ v, t.hdr.payloadLen = some v ∧ t.hdr.bufLen = some v) ∧
      (s.cnt.toNat = 26 → t.err = 0 ∧ ∃ v w, t.hdr.payloadLen = some v ∧ t.hdr.bufLen = some w ∧
        w.toNat % 256 = v.toNat / 256)

/-- R128: `HPARSE` changes nothing but `HV`, `HDR.*`, `ERR`, `ERRINFO`, `STATE`. -/
def Obligations.HparseFrame : Prop :=
  ∀ (src : Src) (s t : State), exec (parseCommand src) s = .next t →
    t = { s with hv := t.hv, hdr := t.hdr, err := t.err, errInfo := t.errInfo, run := .idle }

/-- R128: two `HPARSE` commands with the same `src` on the same bytes below `CNT`, `CNT` and `TS_IN` end alike and, unless
they are turned away for want of a value (`NotReady`, the model's choice of log 4 and log 5), leave the same header file, whatever else the two states hold. -/
def Obligations.HparseRepeatsOnTheSameFrame : Prop :=
  ∀ (src : Src) (s s' t t' : State), s'.cfg = s.cfg → s'.cnt = s.cnt → s.cnt.toNat ≤ s.cfg.fbSize →
    (∀ a, a < s.cnt.toNat → s'.fb.read a = s.fb.read a) → s'.tsIn = s.tsIn →
      exec (parseCommand src) s = .next t → exec (parseCommand src) s' = .next t' →
        t'.err = t.err ∧ t'.errInfo = t.errInfo ∧ (t.err ≠ 7 → t'.hdr = t.hdr ∧ t'.hv = t.hv)

/-! ### The Bitstream Sample Decoder -/

/-- R148: sign extension of a `B`-bit value, its range, and the source's four values at `B = 10`. -/
def Obligations.SignExtensionOfAnyWidth : Prop :=
  (∀ bits raw : Nat, 1 ≤ bits → raw < 2 ^ bits →
    (raw < 2 ^ (bits - 1) → signExtend bits raw = raw) ∧
    (2 ^ (bits - 1) ≤ raw → signExtend bits raw = (raw : Int) - 2 ^ bits) ∧
    -2 ^ (bits - 1) ≤ signExtend bits raw ∧ signExtend bits raw ≤ 2 ^ (bits - 1) - 1) ∧
  signExtend 10 0 = 0 ∧ signExtend 10 511 = 511 ∧ signExtend 10 512 = -512 ∧ signExtend 10 1023 = -1

/-- R146: `REFILL` runs only when `BL < B`; it fails when `CUR + 2 > LIM`; else, the pending bits being below `2^BL`, it
stacks the word above them without carry (the sum is the bitwise OR), adds 16 to `BL` and 2 to `CUR`, and leaves at least
`B` bits pending. The last clause is the model's choice (log 4), of states that no run reaches: a word with a byte that holds
no value is `NotReady` at the fetch. -/
def Obligations.RefillStacksTheNextWord : Prop :=
  ∀ (s : State) (w : Work), w.acc.toNat < 2 ^ w.bl.toNat →
    (s.cfg.bits ≤ w.bl.toNat → refill s w = .ok w) ∧
    (w.bl.toNat < s.cfg.bits → w.lim.toNat < w.cur.toNat + 2 → refill s w = .error (.bufferUnderrun, w.cur)) ∧
    (w.bl.toNat < s.cfg.bits → w.cur.toNat + 2 ≤ w.lim.toNat →
      (∀ b c, s.fb.read w.cur.toNat = some b → s.fb.read (w.cur.toNat + 1) = some c →
        ∃ w', refill s w = .ok w' ∧
          w'.acc.toNat = w.acc.toNat + (b.toNat + 256 * c.toNat) * 2 ^ w.bl.toNat ∧
          w'.acc.toNat = w.acc.toNat ||| (b.toNat + 256 * c.toNat) <<< w.bl.toNat ∧
          w'.bl.toNat = w.bl.toNat + 16 ∧ w'.cur.toNat = w.cur.toNat + 2 ∧ s.cfg.bits ≤ w'.bl.toNat ∧
          w'.lim = w.lim ∧ w'.k = w.k ∧ w'.t = w.t ∧ w'.r = w.r ∧ w'.phase = w.phase) ∧
      (s.fb.read w.cur.toNat = none ∨ s.fb.read (w.cur.toNat + 1) = none → refill s w = .error (.notReady, 0)))

/-- R157 (a) to (d): from `ACC < 2^BL` and `BL <= 16` before a component, at `EXTRACT` `B <= BL <= B + 15 <= 31` and
`ACC < 2^BL`, and after it `BL <= 15` and `ACC < 2^BL`; `BL` has shrunk by exactly `B`. -/
def Obligations.ComponentKeepsTheAccumulatorBounds : Prop :=
  ∀ (s : State) (w w₁ w₂ : Work) (v : Int), w.acc.toNat < 2 ^ w.bl.toNat → w.bl.toNat ≤ 16 → refill s w = .ok w₁ →
    component s w = .ok (v, w₂) →
      s.cfg.bits ≤ w₁.bl.toNat ∧ w₁.bl.toNat ≤ s.cfg.bits + 15 ∧ w₁.acc.toNat < 2 ^ w₁.bl.toNat ∧
      w₂.bl.toNat + s.cfg.bits = w₁.bl.toNat ∧ w₂.bl.toNat ≤ 15 ∧ w₂.acc.toNat < 2 ^ w₂.bl.toNat ∧
      componentFits s.cfg.bits v = true

/-- R155, R152, R143: with `CNT <= FB_SIZE`, `start + 2W <= CNT` and the `2W` bytes holding values, `DECODE` completes:
`SMV = 1`, `DIM` the operands, `DBV`, `SVV`, `DBM`, `SV` cleared, no working set, `ERR = 0`; nothing but these and `SM`
changes. -/
def Obligations.DecodeCompletesWhenTheWordsAreThere : Prop :=
  ∀ (src : Src) (d : Dim) (s : State), s.cnt.toNat ≤ s.cfg.fbSize →
    startOffset src + 2 * d.words s.cfg.bits ≤ s.cnt.toNat →
    (∀ j, j < 2 * d.words s.cfg.bits → (s.fb.read (startOffset src + j)).isSome = true) →
      ∃ m, exec (decodeCommand src d) s = .next { s with
        sm := m, dim := some d, smv := true, dbv := false, svv := false, dbm := [], sv := [], work := none
        err := 0, errInfo := 0, run := .idle }

/-- R156: the closed form. Under the same conditions `SM[t * nr + r][k]` is the pair of `B`-bit fields `2s + 1` (real) and
`2s` (imaginary) of the stream value `S` over the `W` words, `s = (k * nc + t) * nr + r`; outside the shape nothing is
held (R34). That the stream has a value says that its bytes hold values. -/
def Obligations.DecodeIsLittleEndianBitFieldExtraction : Prop :=
  ∀ (src : Src) (nr nc nt : BitVec 8) (s : State) (stream : Nat), s.cnt.toNat ≤ s.cfg.fbSize →
    startOffset src + 2 * Dim.words s.cfg.bits ⟨nr, nc, nt⟩ ≤ s.cnt.toNat →
    s.streamValue (startOffset src) (Dim.words s.cfg.bits ⟨nr, nc, nt⟩) = some stream →
      let bits := s.cfg.bits
      let field := fun n => signExtend bits (stream / 2 ^ (n * bits) % 2 ^ bits)
      ∃ u, exec (decodeCommand src ⟨nr, nc, nt⟩) s = .next u ∧ u.err = 0 ∧
        (∀ k t r, k < nt.toNat → t < nc.toNat → r < nr.toNat →
          let n := (k * nc.toNat + t) * nr.toNat + r
          u.sm.read (256 * (t * nr.toNat + r) + k) = some { re := field (2 * n + 1), im := field (2 * n) }) ∧
        (∀ key, ¬ (key / 256 < nr.toNat * nc.toNat ∧ key % 256 < nt.toNat) → u.sm.read key = none)

/-- R153, R155, R240: with `CNT <= FB_SIZE`, `start + 2W > CNT` and the words below `CNT` holding values, `DECODE` ends with
`BufferUnderrun`; `ERRINFO` is the offset of the word that could not be fetched, `start` when `CNT < start` and
`start + 2 * floor((CNT - start) / 2)` else; no sample is readable, `DIM` and the working set hold no value,
`SMV = DBV = SVV = 0`; nothing else changes. -/
def Obligations.DecodeUnderrunLeavesNoData : Prop :=
  ∀ (src : Src) (d : Dim) (s : State), s.cnt.toNat ≤ s.cfg.fbSize →
    s.cnt.toNat < startOffset src + 2 * d.words s.cfg.bits →
    (∀ j, j < 2 * ((s.cnt.toNat - startOffset src) / 2) → (s.fb.read (startOffset src + j)).isSome = true) →
      ∃ info : Word16,
        info.toNat = (if s.cnt.toNat < startOffset src then startOffset src
          else startOffset src + 2 * ((s.cnt.toNat - startOffset src) / 2)) ∧
        exec (decodeCommand src d) s = .next { s with
          sm := [], dim := none, smv := false, dbv := false, svv := false, dbm := [], sv := [], work := none
          err := 2, errInfo := info, run := .idle }

/-- R37, R62, R158: whatever its outcome, `DECODE` leaves `HV`, `HDR.*`, `FB`, `CNT`, `TS_IN` as they were. -/
def Obligations.DecodeFrame : Prop :=
  ∀ (src : Src) (d : Dim) (s t : State), exec (decodeCommand src d) s = .next t →
    t = { s with
      sm := t.sm, dim := t.dim, smv := t.smv, dbv := t.dbv, svv := t.svv, dbm := t.dbm, sv := t.sv, work := t.work
      err := t.err, errInfo := t.errInfo, run := .idle }

/-- R158: `DECODE` is a function of the mode, the operands, `B`, `CNT` and the bytes below `CNT`, and of nothing else: not
of earlier commands, not of the header file. (`FB_SIZE` enters through `BadCount` alone, ruled out here; a command turned
away by `NotReady`, the model's choice of log 4, writes no result.) -/
def Obligations.DecodeIsAFunctionOfItsInputs : Prop :=
  ∀ (src : Src) (d : Dim) (s s' t t' : State), s'.cfg.bits = s.cfg.bits → s'.cnt = s.cnt →
    s.cnt.toNat ≤ s.cfg.fbSize → s'.cnt.toNat ≤ s'.cfg.fbSize →
    (∀ a, a < s.cnt.toNat → s'.fb.read a = s.fb.read a) →
      exec (decodeCommand src d) s = .next t → exec (decodeCommand src d) s' = .next t' →
        t'.err = t.err ∧ t'.errInfo = t.errInfo ∧
        (t.err ≠ 7 →
          t'.sm = t.sm ∧ t'.dim = t.dim ∧ t'.smv = t.smv ∧ t'.dbv = t.dbv ∧ t'.svv = t.svv ∧ t'.dbm = t.dbm ∧
          t'.sv = t.sv ∧ t'.work = t.work)

/-- R160: `DECODE.L` gives the same `SM`, `DIM`, `SMV` and `ERR` as `DECODE.R` on the buffer without its first 25 bytes;
`ERRINFO` differs by 25 when the error is `BufferUnderrun`; when `CNT < 25`, `DECODE.L` raises `BufferUnderrun` with
`ERRINFO = 25`. The exception for `ERR = 7` is the model's choice (log 4): where a byte holds no value, both are turned away
by `NotReady` and write no result. -/
def Obligations.LiveDecodeIsReplayDecodeTwentyFiveBytesOn : Prop :=
  (∀ (nr nc nt : BitVec 8) (s s' t t' : State), s'.cfg.bits = s.cfg.bits → 25 ≤ s.cnt.toNat →
    s'.cnt.toNat = s.cnt.toNat - 25 → s.cnt.toNat ≤ s.cfg.fbSize → s'.cnt.toNat ≤ s'.cfg.fbSize →
    (∀ a, a + 25 < s.cnt.toNat → s'.fb.read a = s.fb.read (a + 25)) →
      exec (.decodeL nr nc nt) s = .next t → exec (.decodeR nr nc nt) s' = .next t' →
        t'.err = t.err ∧ (t.err ≠ 7 → t'.sm = t.sm ∧ t'.dim = t.dim ∧ t'.smv = t.smv) ∧
        (t.err = 2 → t.errInfo.toNat = t'.errInfo.toNat + 25) ∧ (t.err ≠ 2 → t.errInfo = t'.errInfo)) ∧
  (∀ (nr nc nt : BitVec 8) (s : State), s.cnt.toNat < 25 →
    ∃ t, exec (.decodeL nr nc nt) s = .next t ∧ t.err = 2 ∧ t.errInfo = 25)

/-- R158, R5: running the internal steps one by one, from where the walk begins, gives the state that the command as one
step gives. How much one step of a `BUSY` block does is the model's choice (log 14): one component, so `N` steps reach the
end. -/
def Obligations.StepwiseDecodeIsTheAtomicDecode : Prop :=
  ∀ (src : Src) (d : Dim) (s : State), s.inputs = [] →
    Host.Core.run Sys2Proof.core d.components (beginDecode src d s) = exec (decodeCommand src d) s

/-- R161: the round trip. For samples in range, in stream order, whose packed bytes (with any filler above the last
component) lie at the start offset, `DECODE` returns the samples. -/
def Obligations.DecodeOfPackedSamplesReturnsThem : Prop :=
  ∀ (src : Src) (d : Dim) (s : State) (xs : List Sample) (filler : Nat),
    xs.length = d.samples → (∀ x ∈ xs, x.fits s.cfg.bits = true) →
    s.cnt.toNat ≤ s.cfg.fbSize → startOffset src + 2 * d.words s.cfg.bits ≤ s.cnt.toNat →
    (∀ j, j < 2 * d.words s.cfg.bits → s.fb.read (startOffset src + j) =
      some (packByte (packValue s.cfg.bits xs + filler * 2 ^ (d.components * s.cfg.bits)) j)) →
      ∃ t, exec (decodeCommand src d) s = .next t ∧ t.err = 0 ∧
        ∀ p k, p < d.streams → k < d.tones → t.sm.read (256 * p + k) = xs[k * d.streams + p]?

/-- R159: with a count of 0 the walk is empty: two valid bytes at `start` are still needed, and then `SMV = 1`, `DIM` holds
the operands and `SM` has no entry. -/
def Obligations.DecodeOfZeroCountsHasNoEntry : Prop :=
  ∀ (src : Src) (d : Dim) (s : State), (d.nr = 0 ∨ d.nc = 0 ∨ d.nt = 0) → s.cnt.toNat ≤ s.cfg.fbSize →
    if startOffset src + 2 ≤ s.cnt.toNat then
      (s.fb.read (startOffset src)).isSome = true → (s.fb.read (startOffset src + 1)).isSome = true →
      exec (decodeCommand src d) s = .next { s with
        sm := [], dim := some d, smv := true, dbv := false, svv := false, dbm := [], sv := [], work := none
        err := 0, errInfo := 0, run := .idle }
    else ∃ t, exec (decodeCommand src d) s = .next t ∧ t.err = 2 ∧ t.errInfo.toNat = startOffset src

/-- R222: where the bytes of the frame hold values, `DECODE` raises `BufferUnderrun` in exactly the cases where the host's
bounds check fails; else it completes. -/
def Obligations.BoundsCheckFailsExactlyOnUnderrun : Prop :=
  ∀ (src : Src) (d : Dim) (s : State), s.cnt.toNat ≤ s.cfg.fbSize →
    (∀ a, startOffset src ≤ a → a < s.cnt.toNat → (s.fb.read a).isSome = true) →
      ∃ t, exec (decodeCommand src d) s = .next t ∧
        (boundsCheck src d s = true → t.err = 0) ∧ (boundsCheck src d s = false → t.err = 2)

/-! ### The Amplitude Analyzer -/

/-- R181: for parts of `B` bits the power is the exact `re * re + im * im`, at most `2^(2B-1)`, and 0 exactly for a zero
sample. -/
def Obligations.PowerIsExactAndBounded : Prop :=
  ∀ (bits : Nat) (x : Sample), 1 ≤ bits → x.fits bits = true →
    (x.power : Int) = x.re * x.re + x.im * x.im ∧ x.power ≤ 2 ^ (2 * bits - 1) ∧
    (x.power = 0 ↔ x.re = 0 ∧ x.im = 0)

/-- R182, R183, R184: the power held in `DBM` stands for the dB value of its sample: `20 * log10(|x|)` for a non-zero
sample, at least 0, and 0 exactly at power 1; `DB_MIN` for a zero sample; strictly increasing in the power. -/
def Obligations.PowerStandsForTheDecibelValue : Prop :=
  ∀ (dbMin : ℝ), LegalDbMin dbMin →
    (∀ x : Sample, 0 < x.power →
      IsDecibel dbMin x.power (20 * Real.logb 10 (Real.sqrt ((x.re : ℝ) ^ 2 + (x.im : ℝ) ^ 2)))) ∧
    IsDecibel dbMin 0 dbMin ∧
    (∀ p d, 0 < p → IsDecibel dbMin p d → 0 ≤ d ∧ (d = 0 ↔ p = 1)) ∧
    (∀ p q d e, IsDecibel dbMin p d → IsDecibel dbMin q e → p < q → d < e)

/-- R180, R185: with `SMV = 1` and every entry of the matrix holding a sample, `MAGDB` completes: each entry of `DBM` inside
the shape is the power of the sample there and no other entry is held; `DBV = 1`, `SVV = 0`, `SV` cleared, `ERR = 0`;
nothing else changes. -/
def Obligations.MagdbComputesEveryPower : Prop :=
  ∀ (s : State) (d : Dim), s.smv = true → s.dim = some d →
    (∀ p k, p < d.streams → k < d.tones → (s.sm.read (256 * p + k)).isSome = true) →
    ∃ m, exec .magdb s = .next { s with
        dbm := m, dbv := true, svv := false, sv := [], err := 0, errInfo := 0, run := .idle } ∧
      (∀ p k, p < d.streams → k < d.tones → m.read (256 * p + k) = (s.sm.read (256 * p + k)).map Sample.power) ∧
      (∀ key, ¬ (key / 256 < d.streams ∧ key % 256 < d.tones) → m.read key = none)

/-- R186, R190: with `DBV = 1`, every entry of `DBM` holding a value and no empty stream, `STAB thr` completes: `SV` has
exactly one entry per stream, the stability of the stream's values in `DBM`; `SVV = 1`, `ERR = 0`; nothing else changes. -/
def Obligations.StabComputesOneFlagPerStream : Prop :=
  ∀ (s : State) (d : Dim) (thr : BitVec 8), s.dbv = true → s.dim = some d → (d.streams = 0 ∨ 0 < d.tones) →
    (∀ p k, p < d.streams → k < d.tones → (s.dbm.read (256 * p + k)).isSome = true) →
    ∃ m, exec (.stab thr) s = .next { s with sv := m, svv := true, err := 0, errInfo := 0, run := .idle } ∧
      (∀ p, p < d.streams → ∃ (ps : List Nat) (flag : Bool), ps.length = d.tones ∧
        (∀ k, k < d.tones → s.dbm.read (256 * p + k) = ps[k]?) ∧
        stableStream thr.toNat ps = some flag ∧ m.read p = some flag) ∧
      (∀ p, d.streams ≤ p → m.read p = none)

/-- R189, R238: with `DBV = 1`, at least one stream and no tones, `STAB` ends with `EmptyStream`, with no state changed but
`ERR`, `ERRINFO`. -/
def Obligations.StabRaisesEmptyStream : Prop :=
  ∀ (s : State) (d : Dim) (thr : BitVec 8), s.dbv = true → s.dim = some d → 0 < d.streams → d.tones = 0 →
    exec (.stab thr) s = .next { s with err := 8, errInfo := 0, run := .idle }

/-- R191, R187: the integer form of stability is the real one, for every legal `DB_MIN`: for a non-empty stream of powers
and their dB values there is a flag, set exactly when the range of the dB values is at most the threshold. -/
def Obligations.IntegerStabilityIsRealStability : Prop :=
  ∀ (dbMin : ℝ) (thr : Nat) (ps : List Nat) (ds : List ℝ), LegalDbMin dbMin → thr ≤ 255 → ps ≠ [] →
    List.Forall₂ (IsDecibel dbMin) ps ds →
      ∃ flag, stableStream thr ps = some flag ∧ (flag = true ↔ RangeAtMost ds thr)

/-- R186 on the machine: in any state of a run with `DBV = 1`, `STAB thr` sets the flag of a stream exactly when the range
of the dB values of the stream's samples in `SM` is at most `thr`, for every legal `DB_MIN`. -/
def Obligations.StabFlagIsTheDecibelRangeOfTheSamples : Prop :=
  ∀ (s : State) (d : Dim) (thr : BitVec 8) (dbMin : ℝ) (p : Nat) (xs : List Sample) (ds : List ℝ),
    s.Inv → s.dbv = true → s.dim = some d → 0 < d.tones → p < d.streams → LegalDbMin dbMin →
    xs.length = d.tones → (∀ k, k < d.tones → s.sm.read (256 * p + k) = xs[k]?) →
    List.Forall₂ (fun x e => IsDecibel dbMin x.power e) xs ds →
      ∃ t, exec (.stab thr) s = .next t ∧
        ∃ flag, t.sv.read p = some flag ∧ (flag = true ↔ RangeAtMost ds (thr.toNat : ℝ))

/-- R192, R190: a stream made only of zero samples is stable for every threshold, a stream that mixes zero and non-zero
samples for none, and a stream of one tone for every one. No stream here is empty (R187, R189). That an all-zero stream is
stable rests on the decision of R184 (D15) alone, as R192 asks a claim about one to say. -/
def Obligations.ZeroSamplesInAStream : Prop :=
  ∀ (thr : Nat) (ps : List Nat), ps ≠ [] →
    ((∀ p ∈ ps, p = 0) → stableStream thr ps = some true) ∧
    ((∃ p ∈ ps, p = 0) → (∃ p ∈ ps, p ≠ 0) → stableStream thr ps = some false) ∧
    (ps.length = 1 → stableStream thr ps = some true)

/-- R191: for `thr = 20` and non-zero powers the integer form is `Pmax <= 100 * Pmin`. -/
def Obligations.ThresholdTwentyIsAHundredfoldPower : Prop :=
  ∀ (ps : List Nat) (hi lo : Nat), hi ∈ ps → lo ∈ ps → (∀ p ∈ ps, lo ≤ p ∧ p ≤ hi) → 0 < lo →
    stableStream 20 ps = some (decide (hi ≤ 100 * lo))

/-- R193: `MAGDB` and `STAB` read neither `FB`, `CNT`, `TS_IN` nor `HDR.*`: with any others they do the same. -/
def Obligations.AnalyzerReadsOnlyTheResultStores : Prop :=
  ∀ (s : State) (thr : BitVec 8) (m : Memory Byte) (c : Word16) (ts : Option Stamp) (h : Header) (v : Bool),
    (∃ t, exec .magdb s = .next t ∧
      exec .magdb { s with fb := m, cnt := c, tsIn := ts, hdr := h, hv := v } =
        .next { t with fb := m, cnt := c, tsIn := ts, hdr := h, hv := v }) ∧
    (∃ t, exec (.stab thr) s = .next t ∧
      exec (.stab thr) { s with fb := m, cnt := c, tsIn := ts, hdr := h, hv := v } =
        .next { t with fb := m, cnt := c, tsIn := ts, hdr := h, hv := v })

/-! ### The host's contracts -/

/-- R210, R211: the transmit decision is the AND of the first `K_TRIG` flags, and there is none for a vector that is
shorter or holds no value. -/
def Obligations.DecisionIsTheConjunctionOfTheFirstFlags : Prop :=
  ∀ (s : State) (d : Dim) (n : Nat), s.dim = some d → 1 ≤ n →
    (s.svv = true → n ≤ d.streams →
      ∃ b, decision n s = some b ∧ (b = true ↔ ∀ p, p < n → s.sv.read p = some true)) ∧
    (s.svv = false ∨ d.streams < n → decision n s = none)

/-- R104, R213: a log record is its 2-byte little-endian length, 26 timestamp bytes and the raw frame; the reader returns
these and the rest of the log, and nothing when bytes are missing. -/
def Obligations.LogRecordsAreSplitAtTheirLength : Prop :=
  ∀ (stamp raw rest : List Byte), stamp.length = 26 → raw.length < 2 ^ 16 →
    let log := [BitVec.ofNat 8 raw.length, BitVec.ofNat 8 (raw.length / 256)] ++ stamp ++ raw ++ rest
    readRecord log = some ({ stamp := stamp, raw := raw }, rest) ∧
    ∀ n, n < 28 + raw.length → readRecord (log.take n) = none

/-- R210, R214, R215: when the live or the replay sequence of a frame reports a decision (reports are the model's choice,
log 17), it has gone through every step of the rule on that frame: the load, `HPARSE`, the bounds check on the counts parsed,
in replay the data section, `DECODE` of these counts, `MAGDB`, `STAB`, each command having ended with `ERR = 0`; and the
decision is the AND of the first `K_TRIG` flags that this `STAB` left. So a frame that is skipped reports none. -/
def Obligations.DecisionsComeFromTheFrameItself : Prop :=
  ∀ (src : Src) (x : LogRecord) (thr : BitVec 8) (kTrig : Nat) (s t : State) (b : Bool),
    (match src with
      | .live => liveSequence x.raw x.stamp thr kTrig s
      | .replay => replaySequence x thr kTrig s) = .next (t, .analyzed (some b)) →
    ∃ (filled parsed ready decoded measured : State) (d : Dim),
      serve (loadBytes x.raw ++ loadStamp x.stamp) s = .next filled ∧
      runCommand (parseCommand src) filled = .next parsed ∧ parsed.err = 0 ∧
      headerShape parsed = some d ∧ boundsCheck .live d parsed = true ∧
      serve (reload src x.raw) parsed = .next ready ∧
      runCommand (decodeCommand src d) ready = .next decoded ∧ decoded.err = 0 ∧
      runCommand .magdb decoded = .next measured ∧ measured.err = 0 ∧
      runCommand (.stab thr) measured = .next t ∧ t.err = 0 ∧
      t.svv = true ∧ t.dim = some d ∧ 1 ≤ kTrig ∧ kTrig ≤ d.streams ∧
      (b = true ↔ ∀ p, p < kTrig → t.sv.read p = some true)

/-- R215, with R160 and R214: a logged frame that fits the buffer replays to what its live decoding gave: the same result
stores, flags and error, and the same report, reports being the model's choice (log 17). -/
def Obligations.ReplayedFramesGiveTheLiveResult : Prop :=
  ∀ (x : LogRecord) (thr : BitVec 8) (kTrig : Nat) (s : State), s.run = .idle → x.raw ≠ [] →
    x.raw.length ≤ s.cfg.fbSize →
      ∃ t u report, liveSequence x.raw x.stamp thr kTrig s = .next (t, report) ∧
        replaySequence x thr kTrig s = .next (u, report) ∧
        u.sm = t.sm ∧ u.dim = t.dim ∧ u.dbm = t.dbm ∧ u.sv = t.sv ∧ u.smv = t.smv ∧ u.dbv = t.dbv ∧ u.svv = t.svv ∧
        u.err = t.err
end

