-- ==== Sys2Proof/Laws/Memory.lean ====
section
/-! SUPPORT. What reading and writing a store do, and that every store operation keeps the canonical form. -/

namespace Sys2Proof.Machine

variable {α β : Type}

@[simp] theorem Memory.read_nil (a : Nat) : Memory.read ([] : Memory α) a = none := rfl

@[simp] theorem Memory.wf_nil : Memory.wf ([] : Memory α) = true := rfl

/-- A read after a write to the same index gives the value written. -/
@[simp] theorem Memory.read_write_same (m : Memory α) (a : Nat) (x : α) : (Memory.write m a x).read a = some x := by
  induction m with
  | nil => simp [Memory.write, Memory.read]
  | cons e m ih =>
    obtain ⟨b, v⟩ := e
    rcases lt_trichotomy a b with h | h | h
    · simp [Memory.write, Memory.read, h]
    · simp [Memory.write, Memory.read, h]
    · have h₁ : ¬ a < b := by omega
      have h₂ : a ≠ b := by omega
      simp [Memory.write, Memory.read, h₁, h₂, h₂.symm, ih]

/-- A write leaves every other index alone. -/
theorem Memory.read_write_other (m : Memory α) {a b : Nat} (x : α) (h : b ≠ a) :
    (Memory.write m a x).read b = m.read b := by
  induction m with
  | nil => simp [Memory.write, Memory.read, h.symm]
  | cons e m ih =>
    obtain ⟨c, v⟩ := e
    by_cases h₁ : a < c
    · simp [Memory.write, Memory.read, h₁, h.symm]
    · by_cases h₂ : a = c
      · subst h₂
        simp [Memory.write, Memory.read, h.symm]
      · simp [Memory.write, Memory.read, h₁, h₂, ih]

/-- The two together. -/
theorem Memory.read_write (m : Memory α) (a b : Nat) (x : α) :
    (Memory.write m a x).read b = if b = a then some x else m.read b := by
  by_cases h : b = a
  · simp [h]
  · simp [h, Memory.read_write_other m x h]

/-- The entries after a write are the entry written and entries of before. -/
theorem Memory.mem_write (m : Memory α) (a : Nat) (x : α) {e : Nat × α} (h : e ∈ Memory.write m a x) :
    e = (a, x) ∨ e ∈ m := by
  induction m with
  | nil => simpa [Memory.write] using h
  | cons f m ih =>
    obtain ⟨c, v⟩ := f
    by_cases h₁ : a < c
    · simpa [Memory.write, h₁] using h
    · by_cases h₂ : a = c
      · simp only [Memory.write, h₂, lt_irrefl, if_true, if_false, List.mem_cons] at h ⊢
        rcases h with h | h
        · exact .inl h
        · exact .inr (.inr h)
      · simp only [Memory.write, h₁, h₂, if_false, List.mem_cons] at h ⊢
        rcases h with h | h
        · exact .inr (.inl h)
        · rcases ih h with h | h
          · exact .inl h
          · exact .inr (.inr h)

theorem Memory.wf_cons (a : Nat) (v : α) (m : Memory α) :
    Memory.wf ((a, v) :: m) = true ↔ (∀ e ∈ m, a < e.1) ∧ Memory.wf m = true := by
  simp [Memory.wf]

/-- A write keeps the canonical form. -/
theorem Memory.wf_write {m : Memory α} (a : Nat) (x : α) (h : m.wf = true) : (Memory.write m a x).wf = true := by
  induction m with
  | nil => simp [Memory.write, Memory.wf]
  | cons e m ih =>
    obtain ⟨c, v⟩ := e
    rw [Memory.wf_cons] at h
    by_cases h₁ : a < c
    · simp only [Memory.write, h₁, if_true, Memory.wf_cons, List.mem_cons]
      refine ⟨?_, h⟩
      rintro e (rfl | he)
      · exact h₁
      · exact h₁.trans (h.1 e he)
    · by_cases h₂ : a = c
      · subst h₂
        simpa [Memory.write, Memory.wf_cons] using h
      · simp only [Memory.write, h₁, h₂, if_false, Memory.wf_cons]
        refine ⟨fun e he => ?_, ih h.2⟩
        rcases Memory.mem_write m a x he with rfl | he
        · have : c < a := by omega
          exact this
        · exact h.1 e he

/-- An index that is read lists an entry. -/
theorem Memory.mem_of_read {m : Memory α} {a : Nat} {x : α} (h : m.read a = some x) : (a, x) ∈ m := by
  induction m with
  | nil => simp at h
  | cons e m ih =>
    obtain ⟨b, v⟩ := e
    by_cases hb : b = a
    · simp only [Memory.read, hb, if_true, Option.some.injEq] at h
      simp [hb, h]
    · simp only [Memory.read, hb, if_false] at h
      exact List.mem_cons_of_mem _ (ih h)

/-- In canonical form every entry listed is what its index reads. -/
theorem Memory.read_of_mem {m : Memory α} {a : Nat} {x : α} (hm : m.wf = true) (h : (a, x) ∈ m) :
    m.read a = some x := by
  induction m with
  | nil => simp at h
  | cons e m ih =>
    obtain ⟨b, v⟩ := e
    rw [Memory.wf_cons] at hm
    rcases List.mem_cons.1 h with h | h
    · cases h
      simp [Memory.read]
    · have hb : b ≠ a := (hm.1 _ h).ne
      simp [Memory.read, hb, ih hm.2 h]

/-- What an image over a shape reads: inside the shape the image of what was there, outside it nothing. -/
theorem Memory.read_mapShape (d : Dim) (f : α → β) (m : Memory α) (a : Nat) :
    (Memory.mapShape d f m).read a = if d.holds a then (m.read a).map f else none := by
  induction m with
  | nil => simp [Memory.mapShape]
  | cons e m ih =>
    obtain ⟨b, v⟩ := e
    have hcons : Memory.mapShape d f ((b, v) :: m) =
        if d.holds b then (b, f v) :: Memory.mapShape d f m else Memory.mapShape d f m := by
      by_cases hb : d.holds b = true <;> simp [Memory.mapShape, hb]
    rw [hcons]
    by_cases hb : d.holds b = true
    · by_cases hab : b = a
      · subst hab
        simp [hb, Memory.read]
      · simp [hb, Memory.read, hab, ih]
    · by_cases hab : b = a
      · subst hab
        simp [hb, ih]
      · simp [hb, Memory.read, hab, ih]

/-- An image over a shape keeps the canonical form. -/
theorem Memory.wf_mapShape (d : Dim) (f : α → β) {m : Memory α} (h : m.wf = true) :
    (Memory.mapShape d f m).wf = true := by
  induction m with
  | nil => rfl
  | cons e m ih =>
    obtain ⟨b, v⟩ := e
    rw [Memory.wf_cons] at h
    by_cases hb : d.holds b = true
    · have hcons : Memory.mapShape d f ((b, v) :: m) = (b, f v) :: Memory.mapShape d f m := by
        simp [Memory.mapShape, hb]
      rw [hcons, Memory.wf_cons]
      refine ⟨fun e he => ?_, ih h.2⟩
      simp only [Memory.mapShape, List.mem_map, List.mem_filter] at he
      obtain ⟨e', ⟨he', -⟩, rfl⟩ := he
      exact h.1 e' he'
    · have hcons : Memory.mapShape d f ((b, v) :: m) = Memory.mapShape d f m := by
        simp [Memory.mapShape, hb]
      rw [hcons]
      exact ih h.2

/-- The list of `(p, f p)` for `p` below a bound is in canonical form. -/
theorem Memory.wf_map_range (f : Nat → α) (n : Nat) :
    Memory.wf ((List.range n).map (fun p => (p, f p))) = true := by
  suffices h : ∀ k, Memory.wf ((List.range' k n).map (fun p => (p, f p))) = true by
    simpa [List.range_eq_range'] using h 0
  induction n with
  | zero => intro k; rfl
  | succ n ih =>
    intro k
    rw [List.range'_succ, List.map_cons, Memory.wf_cons]
    refine ⟨fun e he => ?_, ih (k + 1)⟩
    simp only [List.mem_map, List.mem_range'_1] at he
    obtain ⟨p, hp, rfl⟩ := he
    exact hp.1

/-- What that list reads. -/
theorem Memory.read_map_range (f : Nat → α) (n a : Nat) :
    Memory.read ((List.range n).map (fun p => (p, f p))) a = if a < n then some (f a) else none := by
  suffices h : ∀ k, Memory.read ((List.range' k n).map (fun p => (p, f p))) a =
      if k ≤ a ∧ a < k + n then some (f a) else none by
    simpa [List.range_eq_range'] using h 0
  induction n with
  | zero =>
    intro k
    simp
  | succ n ih =>
    intro k
    rw [List.range'_succ, List.map_cons]
    by_cases hk : k = a
    · subst hk
      simp [Memory.read]
    · simp only [Memory.read, hk, if_false, ih (k + 1)]
      congr 1
      apply propext
      omega

/-- The stores of the reset state are in canonical form. -/
theorem State.reset_stores_wf :
    State.reset.fb.wf = true ∧ State.reset.sm.wf = true ∧ State.reset.dbm.wf = true ∧ State.reset.sv.wf = true :=
  ⟨rfl, rfl, rfl, rfl⟩

end Sys2Proof.Machine
end

