-- ==== Sys2Proof/Laws/State.lean ====
section
/-! SUPPORT. One lemma per field per update of State, so that no later proof unfolds a record update. -/

namespace Sys2Proof.Machine

/-! ### dropHeader -/

@[simp] theorem State.dropHeader_cfg (s : State) : s.dropHeader.cfg = s.cfg := rfl
@[simp] theorem State.dropHeader_fb (s : State) : s.dropHeader.fb = s.fb := rfl
@[simp] theorem State.dropHeader_cnt (s : State) : s.dropHeader.cnt = s.cnt := rfl
@[simp] theorem State.dropHeader_tsIn (s : State) : s.dropHeader.tsIn = s.tsIn := rfl
@[simp] theorem State.dropHeader_run (s : State) : s.dropHeader.run = s.run := rfl
@[simp] theorem State.dropHeader_err (s : State) : s.dropHeader.err = s.err := rfl
@[simp] theorem State.dropHeader_errInfo (s : State) : s.dropHeader.errInfo = s.errInfo := rfl
@[simp] theorem State.dropHeader_hv (s : State) : s.dropHeader.hv = false := rfl
@[simp] theorem State.dropHeader_smv (s : State) : s.dropHeader.smv = s.smv := rfl
@[simp] theorem State.dropHeader_dbv (s : State) : s.dropHeader.dbv = s.dbv := rfl
@[simp] theorem State.dropHeader_svv (s : State) : s.dropHeader.svv = s.svv := rfl
@[simp] theorem State.dropHeader_hdr (s : State) : s.dropHeader.hdr = Header.empty := rfl
@[simp] theorem State.dropHeader_dim (s : State) : s.dropHeader.dim = s.dim := rfl
@[simp] theorem State.dropHeader_work (s : State) : s.dropHeader.work = s.work := rfl
@[simp] theorem State.dropHeader_sm (s : State) : s.dropHeader.sm = s.sm := rfl
@[simp] theorem State.dropHeader_dbm (s : State) : s.dropHeader.dbm = s.dbm := rfl
@[simp] theorem State.dropHeader_sv (s : State) : s.dropHeader.sv = s.sv := rfl
@[simp] theorem State.dropHeader_inputs (s : State) : s.dropHeader.inputs = s.inputs := rfl

/-! ### dropStability -/

@[simp] theorem State.dropStability_cfg (s : State) : s.dropStability.cfg = s.cfg := rfl
@[simp] theorem State.dropStability_fb (s : State) : s.dropStability.fb = s.fb := rfl
@[simp] theorem State.dropStability_cnt (s : State) : s.dropStability.cnt = s.cnt := rfl
@[simp] theorem State.dropStability_tsIn (s : State) : s.dropStability.tsIn = s.tsIn := rfl
@[simp] theorem State.dropStability_run (s : State) : s.dropStability.run = s.run := rfl
@[simp] theorem State.dropStability_err (s : State) : s.dropStability.err = s.err := rfl
@[simp] theorem State.dropStability_errInfo (s : State) : s.dropStability.errInfo = s.errInfo := rfl
@[simp] theorem State.dropStability_hv (s : State) : s.dropStability.hv = s.hv := rfl
@[simp] theorem State.dropStability_smv (s : State) : s.dropStability.smv = s.smv := rfl
@[simp] theorem State.dropStability_dbv (s : State) : s.dropStability.dbv = s.dbv := rfl
@[simp] theorem State.dropStability_svv (s : State) : s.dropStability.svv = false := rfl
@[simp] theorem State.dropStability_hdr (s : State) : s.dropStability.hdr = s.hdr := rfl
@[simp] theorem State.dropStability_dim (s : State) : s.dropStability.dim = s.dim := rfl
@[simp] theorem State.dropStability_work (s : State) : s.dropStability.work = s.work := rfl
@[simp] theorem State.dropStability_sm (s : State) : s.dropStability.sm = s.sm := rfl
@[simp] theorem State.dropStability_dbm (s : State) : s.dropStability.dbm = s.dbm := rfl
@[simp] theorem State.dropStability_sv (s : State) : s.dropStability.sv = [] := rfl
@[simp] theorem State.dropStability_inputs (s : State) : s.dropStability.inputs = s.inputs := rfl

/-! ### dropDecibels -/

@[simp] theorem State.dropDecibels_cfg (s : State) : s.dropDecibels.cfg = s.cfg := rfl
@[simp] theorem State.dropDecibels_fb (s : State) : s.dropDecibels.fb = s.fb := rfl
@[simp] theorem State.dropDecibels_cnt (s : State) : s.dropDecibels.cnt = s.cnt := rfl
@[simp] theorem State.dropDecibels_tsIn (s : State) : s.dropDecibels.tsIn = s.tsIn := rfl
@[simp] theorem State.dropDecibels_run (s : State) : s.dropDecibels.run = s.run := rfl
@[simp] theorem State.dropDecibels_err (s : State) : s.dropDecibels.err = s.err := rfl
@[simp] theorem State.dropDecibels_errInfo (s : State) : s.dropDecibels.errInfo = s.errInfo := rfl
@[simp] theorem State.dropDecibels_hv (s : State) : s.dropDecibels.hv = s.hv := rfl
@[simp] theorem State.dropDecibels_smv (s : State) : s.dropDecibels.smv = s.smv := rfl
@[simp] theorem State.dropDecibels_dbv (s : State) : s.dropDecibels.dbv = false := rfl
@[simp] theorem State.dropDecibels_svv (s : State) : s.dropDecibels.svv = false := rfl
@[simp] theorem State.dropDecibels_hdr (s : State) : s.dropDecibels.hdr = s.hdr := rfl
@[simp] theorem State.dropDecibels_dim (s : State) : s.dropDecibels.dim = s.dim := rfl
@[simp] theorem State.dropDecibels_work (s : State) : s.dropDecibels.work = s.work := rfl
@[simp] theorem State.dropDecibels_sm (s : State) : s.dropDecibels.sm = s.sm := rfl
@[simp] theorem State.dropDecibels_dbm (s : State) : s.dropDecibels.dbm = [] := rfl
@[simp] theorem State.dropDecibels_sv (s : State) : s.dropDecibels.sv = [] := rfl
@[simp] theorem State.dropDecibels_inputs (s : State) : s.dropDecibels.inputs = s.inputs := rfl

/-! ### dropMatrix -/

@[simp] theorem State.dropMatrix_cfg (s : State) : s.dropMatrix.cfg = s.cfg := rfl
@[simp] theorem State.dropMatrix_fb (s : State) : s.dropMatrix.fb = s.fb := rfl
@[simp] theorem State.dropMatrix_cnt (s : State) : s.dropMatrix.cnt = s.cnt := rfl
@[simp] theorem State.dropMatrix_tsIn (s : State) : s.dropMatrix.tsIn = s.tsIn := rfl
@[simp] theorem State.dropMatrix_run (s : State) : s.dropMatrix.run = s.run := rfl
@[simp] theorem State.dropMatrix_err (s : State) : s.dropMatrix.err = s.err := rfl
@[simp] theorem State.dropMatrix_errInfo (s : State) : s.dropMatrix.errInfo = s.errInfo := rfl
@[simp] theorem State.dropMatrix_hv (s : State) : s.dropMatrix.hv = s.hv := rfl
@[simp] theorem State.dropMatrix_smv (s : State) : s.dropMatrix.smv = false := rfl
@[simp] theorem State.dropMatrix_dbv (s : State) : s.dropMatrix.dbv = false := rfl
@[simp] theorem State.dropMatrix_svv (s : State) : s.dropMatrix.svv = false := rfl
@[simp] theorem State.dropMatrix_hdr (s : State) : s.dropMatrix.hdr = s.hdr := rfl
@[simp] theorem State.dropMatrix_dim (s : State) : s.dropMatrix.dim = s.dim := rfl
@[simp] theorem State.dropMatrix_work (s : State) : s.dropMatrix.work = s.work := rfl
@[simp] theorem State.dropMatrix_sm (s : State) : s.dropMatrix.sm = [] := rfl
@[simp] theorem State.dropMatrix_dbm (s : State) : s.dropMatrix.dbm = [] := rfl
@[simp] theorem State.dropMatrix_sv (s : State) : s.dropMatrix.sv = [] := rfl
@[simp] theorem State.dropMatrix_inputs (s : State) : s.dropMatrix.inputs = s.inputs := rfl

/-! ### start -/

@[simp] theorem State.start_cfg (s : State) : s.start.cfg = s.cfg := rfl
@[simp] theorem State.start_fb (s : State) : s.start.fb = s.fb := rfl
@[simp] theorem State.start_cnt (s : State) : s.start.cnt = s.cnt := rfl
@[simp] theorem State.start_tsIn (s : State) : s.start.tsIn = s.tsIn := rfl
@[simp] theorem State.start_run (s : State) : s.start.run = .busy := rfl
@[simp] theorem State.start_err (s : State) : s.start.err = s.err := rfl
@[simp] theorem State.start_errInfo (s : State) : s.start.errInfo = s.errInfo := rfl
@[simp] theorem State.start_hv (s : State) : s.start.hv = s.hv := rfl
@[simp] theorem State.start_smv (s : State) : s.start.smv = s.smv := rfl
@[simp] theorem State.start_dbv (s : State) : s.start.dbv = s.dbv := rfl
@[simp] theorem State.start_svv (s : State) : s.start.svv = s.svv := rfl
@[simp] theorem State.start_hdr (s : State) : s.start.hdr = s.hdr := rfl
@[simp] theorem State.start_dim (s : State) : s.start.dim = s.dim := rfl
@[simp] theorem State.start_work (s : State) : s.start.work = s.work := rfl
@[simp] theorem State.start_sm (s : State) : s.start.sm = s.sm := rfl
@[simp] theorem State.start_dbm (s : State) : s.start.dbm = s.dbm := rfl
@[simp] theorem State.start_sv (s : State) : s.start.sv = s.sv := rfl
@[simp] theorem State.start_inputs (s : State) : s.start.inputs = s.inputs := rfl

/-! ### complete -/

@[simp] theorem State.complete_cfg (s : State) : s.complete.cfg = s.cfg := rfl
@[simp] theorem State.complete_fb (s : State) : s.complete.fb = s.fb := rfl
@[simp] theorem State.complete_cnt (s : State) : s.complete.cnt = s.cnt := rfl
@[simp] theorem State.complete_tsIn (s : State) : s.complete.tsIn = s.tsIn := rfl
@[simp] theorem State.complete_run (s : State) : s.complete.run = .idle := rfl
@[simp] theorem State.complete_err (s : State) : s.complete.err = 0 := rfl
@[simp] theorem State.complete_errInfo (s : State) : s.complete.errInfo = 0 := rfl
@[simp] theorem State.complete_hv (s : State) : s.complete.hv = s.hv := rfl
@[simp] theorem State.complete_smv (s : State) : s.complete.smv = s.smv := rfl
@[simp] theorem State.complete_dbv (s : State) : s.complete.dbv = s.dbv := rfl
@[simp] theorem State.complete_svv (s : State) : s.complete.svv = s.svv := rfl
@[simp] theorem State.complete_hdr (s : State) : s.complete.hdr = s.hdr := rfl
@[simp] theorem State.complete_dim (s : State) : s.complete.dim = s.dim := rfl
@[simp] theorem State.complete_work (s : State) : s.complete.work = s.work := rfl
@[simp] theorem State.complete_sm (s : State) : s.complete.sm = s.sm := rfl
@[simp] theorem State.complete_dbm (s : State) : s.complete.dbm = s.dbm := rfl
@[simp] theorem State.complete_sv (s : State) : s.complete.sv = s.sv := rfl
@[simp] theorem State.complete_inputs (s : State) : s.complete.inputs = s.inputs := rfl

/-! ### raise_notStarted -/

@[simp] theorem State.raise_notStarted_cfg (s : State) (e : ErrCode) (v : Word16) : (s.raise .notStarted e v).cfg = s.cfg := rfl
@[simp] theorem State.raise_notStarted_fb (s : State) (e : ErrCode) (v : Word16) : (s.raise .notStarted e v).fb = s.fb := rfl
@[simp] theorem State.raise_notStarted_cnt (s : State) (e : ErrCode) (v : Word16) : (s.raise .notStarted e v).cnt = s.cnt := rfl
@[simp] theorem State.raise_notStarted_tsIn (s : State) (e : ErrCode) (v : Word16) : (s.raise .notStarted e v).tsIn = s.tsIn := rfl
@[simp] theorem State.raise_notStarted_run (s : State) (e : ErrCode) (v : Word16) : (s.raise .notStarted e v).run = .idle := rfl
@[simp] theorem State.raise_notStarted_err (s : State) (e : ErrCode) (v : Word16) : (s.raise .notStarted e v).err = e.code := rfl
@[simp] theorem State.raise_notStarted_errInfo (s : State) (e : ErrCode) (v : Word16) : (s.raise .notStarted e v).errInfo = v := rfl
@[simp] theorem State.raise_notStarted_hv (s : State) (e : ErrCode) (v : Word16) : (s.raise .notStarted e v).hv = s.hv := rfl
@[simp] theorem State.raise_notStarted_smv (s : State) (e : ErrCode) (v : Word16) : (s.raise .notStarted e v).smv = s.smv := rfl
@[simp] theorem State.raise_notStarted_dbv (s : State) (e : ErrCode) (v : Word16) : (s.raise .notStarted e v).dbv = s.dbv := rfl
@[simp] theorem State.raise_notStarted_svv (s : State) (e : ErrCode) (v : Word16) : (s.raise .notStarted e v).svv = s.svv := rfl
@[simp] theorem State.raise_notStarted_hdr (s : State) (e : ErrCode) (v : Word16) : (s.raise .notStarted e v).hdr = s.hdr := rfl
@[simp] theorem State.raise_notStarted_dim (s : State) (e : ErrCode) (v : Word16) : (s.raise .notStarted e v).dim = s.dim := rfl
@[simp] theorem State.raise_notStarted_work (s : State) (e : ErrCode) (v : Word16) : (s.raise .notStarted e v).work = s.work := rfl
@[simp] theorem State.raise_notStarted_sm (s : State) (e : ErrCode) (v : Word16) : (s.raise .notStarted e v).sm = s.sm := rfl
@[simp] theorem State.raise_notStarted_dbm (s : State) (e : ErrCode) (v : Word16) : (s.raise .notStarted e v).dbm = s.dbm := rfl
@[simp] theorem State.raise_notStarted_sv (s : State) (e : ErrCode) (v : Word16) : (s.raise .notStarted e v).sv = s.sv := rfl
@[simp] theorem State.raise_notStarted_inputs (s : State) (e : ErrCode) (v : Word16) : (s.raise .notStarted e v).inputs = s.inputs := rfl

/-! ### raise_headerParser -/

@[simp] theorem State.raise_headerParser_cfg (s : State) (e : ErrCode) (v : Word16) : (s.raise .headerParser e v).cfg = s.cfg := rfl
@[simp] theorem State.raise_headerParser_fb (s : State) (e : ErrCode) (v : Word16) : (s.raise .headerParser e v).fb = s.fb := rfl
@[simp] theorem State.raise_headerParser_cnt (s : State) (e : ErrCode) (v : Word16) : (s.raise .headerParser e v).cnt = s.cnt := rfl
@[simp] theorem State.raise_headerParser_tsIn (s : State) (e : ErrCode) (v : Word16) : (s.raise .headerParser e v).tsIn = s.tsIn := rfl
@[simp] theorem State.raise_headerParser_run (s : State) (e : ErrCode) (v : Word16) : (s.raise .headerParser e v).run = .idle := rfl
@[simp] theorem State.raise_headerParser_err (s : State) (e : ErrCode) (v : Word16) : (s.raise .headerParser e v).err = e.code := rfl
@[simp] theorem State.raise_headerParser_errInfo (s : State) (e : ErrCode) (v : Word16) : (s.raise .headerParser e v).errInfo = v := rfl
@[simp] theorem State.raise_headerParser_hv (s : State) (e : ErrCode) (v : Word16) : (s.raise .headerParser e v).hv = false := rfl
@[simp] theorem State.raise_headerParser_smv (s : State) (e : ErrCode) (v : Word16) : (s.raise .headerParser e v).smv = s.smv := rfl
@[simp] theorem State.raise_headerParser_dbv (s : State) (e : ErrCode) (v : Word16) : (s.raise .headerParser e v).dbv = s.dbv := rfl
@[simp] theorem State.raise_headerParser_svv (s : State) (e : ErrCode) (v : Word16) : (s.raise .headerParser e v).svv = s.svv := rfl
@[simp] theorem State.raise_headerParser_hdr (s : State) (e : ErrCode) (v : Word16) : (s.raise .headerParser e v).hdr = Header.empty := rfl
@[simp] theorem State.raise_headerParser_dim (s : State) (e : ErrCode) (v : Word16) : (s.raise .headerParser e v).dim = s.dim := rfl
@[simp] theorem State.raise_headerParser_work (s : State) (e : ErrCode) (v : Word16) : (s.raise .headerParser e v).work = s.work := rfl
@[simp] theorem State.raise_headerParser_sm (s : State) (e : ErrCode) (v : Word16) : (s.raise .headerParser e v).sm = s.sm := rfl
@[simp] theorem State.raise_headerParser_dbm (s : State) (e : ErrCode) (v : Word16) : (s.raise .headerParser e v).dbm = s.dbm := rfl
@[simp] theorem State.raise_headerParser_sv (s : State) (e : ErrCode) (v : Word16) : (s.raise .headerParser e v).sv = s.sv := rfl
@[simp] theorem State.raise_headerParser_inputs (s : State) (e : ErrCode) (v : Word16) : (s.raise .headerParser e v).inputs = s.inputs := rfl

/-! ### raise_sampleDecoder -/

@[simp] theorem State.raise_sampleDecoder_cfg (s : State) (e : ErrCode) (v : Word16) : (s.raise .sampleDecoder e v).cfg = s.cfg := rfl
@[simp] theorem State.raise_sampleDecoder_fb (s : State) (e : ErrCode) (v : Word16) : (s.raise .sampleDecoder e v).fb = s.fb := rfl
@[simp] theorem State.raise_sampleDecoder_cnt (s : State) (e : ErrCode) (v : Word16) : (s.raise .sampleDecoder e v).cnt = s.cnt := rfl
@[simp] theorem State.raise_sampleDecoder_tsIn (s : State) (e : ErrCode) (v : Word16) : (s.raise .sampleDecoder e v).tsIn = s.tsIn := rfl
@[simp] theorem State.raise_sampleDecoder_run (s : State) (e : ErrCode) (v : Word16) : (s.raise .sampleDecoder e v).run = .idle := rfl
@[simp] theorem State.raise_sampleDecoder_err (s : State) (e : ErrCode) (v : Word16) : (s.raise .sampleDecoder e v).err = e.code := rfl
@[simp] theorem State.raise_sampleDecoder_errInfo (s : State) (e : ErrCode) (v : Word16) : (s.raise .sampleDecoder e v).errInfo = v := rfl
@[simp] theorem State.raise_sampleDecoder_hv (s : State) (e : ErrCode) (v : Word16) : (s.raise .sampleDecoder e v).hv = s.hv := rfl
@[simp] theorem State.raise_sampleDecoder_smv (s : State) (e : ErrCode) (v : Word16) : (s.raise .sampleDecoder e v).smv = false := rfl
@[simp] theorem State.raise_sampleDecoder_dbv (s : State) (e : ErrCode) (v : Word16) : (s.raise .sampleDecoder e v).dbv = false := rfl
@[simp] theorem State.raise_sampleDecoder_svv (s : State) (e : ErrCode) (v : Word16) : (s.raise .sampleDecoder e v).svv = false := rfl
@[simp] theorem State.raise_sampleDecoder_hdr (s : State) (e : ErrCode) (v : Word16) : (s.raise .sampleDecoder e v).hdr = s.hdr := rfl
@[simp] theorem State.raise_sampleDecoder_dim (s : State) (e : ErrCode) (v : Word16) : (s.raise .sampleDecoder e v).dim = none := rfl
@[simp] theorem State.raise_sampleDecoder_work (s : State) (e : ErrCode) (v : Word16) : (s.raise .sampleDecoder e v).work = none := rfl
@[simp] theorem State.raise_sampleDecoder_sm (s : State) (e : ErrCode) (v : Word16) : (s.raise .sampleDecoder e v).sm = [] := rfl
@[simp] theorem State.raise_sampleDecoder_dbm (s : State) (e : ErrCode) (v : Word16) : (s.raise .sampleDecoder e v).dbm = [] := rfl
@[simp] theorem State.raise_sampleDecoder_sv (s : State) (e : ErrCode) (v : Word16) : (s.raise .sampleDecoder e v).sv = [] := rfl
@[simp] theorem State.raise_sampleDecoder_inputs (s : State) (e : ErrCode) (v : Word16) : (s.raise .sampleDecoder e v).inputs = s.inputs := rfl

/-! ### applyReset -/

@[simp] theorem State.applyReset_cfg (s : State) : s.applyReset.cfg = s.cfg := rfl
@[simp] theorem State.applyReset_fb (s : State) : s.applyReset.fb = [] := rfl
@[simp] theorem State.applyReset_cnt (s : State) : s.applyReset.cnt = 0 := rfl
@[simp] theorem State.applyReset_tsIn (s : State) : s.applyReset.tsIn = none := rfl
@[simp] theorem State.applyReset_run (s : State) : s.applyReset.run = .idle := rfl
@[simp] theorem State.applyReset_err (s : State) : s.applyReset.err = 0 := rfl
@[simp] theorem State.applyReset_errInfo (s : State) : s.applyReset.errInfo = 0 := rfl
@[simp] theorem State.applyReset_hv (s : State) : s.applyReset.hv = false := rfl
@[simp] theorem State.applyReset_smv (s : State) : s.applyReset.smv = false := rfl
@[simp] theorem State.applyReset_dbv (s : State) : s.applyReset.dbv = false := rfl
@[simp] theorem State.applyReset_svv (s : State) : s.applyReset.svv = false := rfl
@[simp] theorem State.applyReset_hdr (s : State) : s.applyReset.hdr = Header.empty := rfl
@[simp] theorem State.applyReset_dim (s : State) : s.applyReset.dim = none := rfl
@[simp] theorem State.applyReset_work (s : State) : s.applyReset.work = none := rfl
@[simp] theorem State.applyReset_sm (s : State) : s.applyReset.sm = [] := rfl
@[simp] theorem State.applyReset_dbm (s : State) : s.applyReset.dbm = [] := rfl
@[simp] theorem State.applyReset_sv (s : State) : s.applyReset.sv = [] := rfl
@[simp] theorem State.applyReset_inputs (s : State) : s.applyReset.inputs = s.inputs := rfl

/-! ### storeSample -/

@[simp] theorem State.storeSample_cfg (s : State) (d : Dim) (w : Work) (x : Sample) : (storeSample d w x s).cfg = s.cfg := rfl
@[simp] theorem State.storeSample_fb (s : State) (d : Dim) (w : Work) (x : Sample) : (storeSample d w x s).fb = s.fb := rfl
@[simp] theorem State.storeSample_cnt (s : State) (d : Dim) (w : Work) (x : Sample) : (storeSample d w x s).cnt = s.cnt := rfl
@[simp] theorem State.storeSample_tsIn (s : State) (d : Dim) (w : Work) (x : Sample) : (storeSample d w x s).tsIn = s.tsIn := rfl
@[simp] theorem State.storeSample_run (s : State) (d : Dim) (w : Work) (x : Sample) : (storeSample d w x s).run = s.run := rfl
@[simp] theorem State.storeSample_err (s : State) (d : Dim) (w : Work) (x : Sample) : (storeSample d w x s).err = s.err := rfl
@[simp] theorem State.storeSample_errInfo (s : State) (d : Dim) (w : Work) (x : Sample) : (storeSample d w x s).errInfo = s.errInfo := rfl
@[simp] theorem State.storeSample_hv (s : State) (d : Dim) (w : Work) (x : Sample) : (storeSample d w x s).hv = s.hv := rfl
@[simp] theorem State.storeSample_smv (s : State) (d : Dim) (w : Work) (x : Sample) : (storeSample d w x s).smv = s.smv := rfl
@[simp] theorem State.storeSample_dbv (s : State) (d : Dim) (w : Work) (x : Sample) : (storeSample d w x s).dbv = s.dbv := rfl
@[simp] theorem State.storeSample_svv (s : State) (d : Dim) (w : Work) (x : Sample) : (storeSample d w x s).svv = s.svv := rfl
@[simp] theorem State.storeSample_hdr (s : State) (d : Dim) (w : Work) (x : Sample) : (storeSample d w x s).hdr = s.hdr := rfl
@[simp] theorem State.storeSample_dim (s : State) (d : Dim) (w : Work) (x : Sample) : (storeSample d w x s).dim = s.dim := rfl
@[simp] theorem State.storeSample_work (s : State) (d : Dim) (w : Work) (x : Sample) : (storeSample d w x s).work = s.work := rfl
@[simp] theorem State.storeSample_sm (s : State) (d : Dim) (w : Work) (x : Sample) : (storeSample d w x s).sm = s.sm.write (entryKey (pairIndex d.nr.toNat w.t.toNat w.r.toNat) w.k.toNat) x := rfl
@[simp] theorem State.storeSample_dbm (s : State) (d : Dim) (w : Work) (x : Sample) : (storeSample d w x s).dbm = s.dbm := rfl
@[simp] theorem State.storeSample_sv (s : State) (d : Dim) (w : Work) (x : Sample) : (storeSample d w x s).sv = s.sv := rfl
@[simp] theorem State.storeSample_inputs (s : State) (d : Dim) (w : Work) (x : Sample) : (storeSample d w x s).inputs = s.inputs := rfl

/-! ### finishDecode -/

@[simp] theorem State.finishDecode_cfg (s : State) : (finishDecode s).cfg = s.cfg := rfl
@[simp] theorem State.finishDecode_fb (s : State) : (finishDecode s).fb = s.fb := rfl
@[simp] theorem State.finishDecode_cnt (s : State) : (finishDecode s).cnt = s.cnt := rfl
@[simp] theorem State.finishDecode_tsIn (s : State) : (finishDecode s).tsIn = s.tsIn := rfl
@[simp] theorem State.finishDecode_run (s : State) : (finishDecode s).run = .idle := rfl
@[simp] theorem State.finishDecode_err (s : State) : (finishDecode s).err = 0 := rfl
@[simp] theorem State.finishDecode_errInfo (s : State) : (finishDecode s).errInfo = 0 := rfl
@[simp] theorem State.finishDecode_hv (s : State) : (finishDecode s).hv = s.hv := rfl
@[simp] theorem State.finishDecode_smv (s : State) : (finishDecode s).smv = true := rfl
@[simp] theorem State.finishDecode_dbv (s : State) : (finishDecode s).dbv = s.dbv := rfl
@[simp] theorem State.finishDecode_svv (s : State) : (finishDecode s).svv = s.svv := rfl
@[simp] theorem State.finishDecode_hdr (s : State) : (finishDecode s).hdr = s.hdr := rfl
@[simp] theorem State.finishDecode_dim (s : State) : (finishDecode s).dim = s.dim := rfl
@[simp] theorem State.finishDecode_work (s : State) : (finishDecode s).work = none := rfl
@[simp] theorem State.finishDecode_sm (s : State) : (finishDecode s).sm = s.sm := rfl
@[simp] theorem State.finishDecode_dbm (s : State) : (finishDecode s).dbm = s.dbm := rfl
@[simp] theorem State.finishDecode_sv (s : State) : (finishDecode s).sv = s.sv := rfl
@[simp] theorem State.finishDecode_inputs (s : State) : (finishDecode s).inputs = s.inputs := rfl

/-! ### offer -/

@[simp] theorem State.offer_cfg (s : State) (c : Word32) : (State.offer c s).cfg = s.cfg := rfl
@[simp] theorem State.offer_fb (s : State) (c : Word32) : (State.offer c s).fb = s.fb := rfl
@[simp] theorem State.offer_cnt (s : State) (c : Word32) : (State.offer c s).cnt = s.cnt := rfl
@[simp] theorem State.offer_tsIn (s : State) (c : Word32) : (State.offer c s).tsIn = s.tsIn := rfl
@[simp] theorem State.offer_run (s : State) (c : Word32) : (State.offer c s).run = .idle := rfl
@[simp] theorem State.offer_err (s : State) (c : Word32) : (State.offer c s).err = s.err := rfl
@[simp] theorem State.offer_errInfo (s : State) (c : Word32) : (State.offer c s).errInfo = s.errInfo := rfl
@[simp] theorem State.offer_hv (s : State) (c : Word32) : (State.offer c s).hv = s.hv := rfl
@[simp] theorem State.offer_smv (s : State) (c : Word32) : (State.offer c s).smv = s.smv := rfl
@[simp] theorem State.offer_dbv (s : State) (c : Word32) : (State.offer c s).dbv = s.dbv := rfl
@[simp] theorem State.offer_svv (s : State) (c : Word32) : (State.offer c s).svv = s.svv := rfl
@[simp] theorem State.offer_hdr (s : State) (c : Word32) : (State.offer c s).hdr = s.hdr := rfl
@[simp] theorem State.offer_dim (s : State) (c : Word32) : (State.offer c s).dim = s.dim := rfl
@[simp] theorem State.offer_work (s : State) (c : Word32) : (State.offer c s).work = s.work := rfl
@[simp] theorem State.offer_sm (s : State) (c : Word32) : (State.offer c s).sm = s.sm := rfl
@[simp] theorem State.offer_dbm (s : State) (c : Word32) : (State.offer c s).dbm = s.dbm := rfl
@[simp] theorem State.offer_sv (s : State) (c : Word32) : (State.offer c s).sv = s.sv := rfl
@[simp] theorem State.offer_inputs (s : State) (c : Word32) : (State.offer c s).inputs = .command c :: s.inputs := rfl

end Sys2Proof.Machine
end

