-- ==== Sys2Proof/Laws/Ops.lean ====
section
/-! SUPPORT. Reading the frame buffer, and the shared operations that start, complete and fail a command. -/

namespace Sys2Proof.Machine

@[simp] theorem State.memRead_zero (s : State) (a : Nat) : s.memRead a 0 = some 0 := rfl

/-- The two outcomes of reading one byte more: a byte holds no value, or the sum (R10, R22). -/
theorem State.memRead_succ (s : State) (a n : Nat) :
    s.memRead a (n + 1) = (s.fb.read a).bind fun b => (s.memRead (a + 1) n).map fun v => b.toNat + 256 * v := by
  rw [State.memRead]
  cases s.fb.read a <;> cases s.memRead (a + 1) n <;> rfl

/-- A read has a value when each of its bytes has one (R22). -/
theorem State.memRead_isSome (s : State) (a n : Nat) :
    (s.memRead a n).isSome = true ↔ ∀ j, j < n → (s.fb.read (a + j)).isSome = true := by
  induction n generalizing a with
  | zero => simp
  | succ n ih =>
    have hs : (s.memRead a (n + 1)).isSome = ((s.fb.read a).isSome && (s.memRead (a + 1) n).isSome) := by
      rw [State.memRead_succ]
      cases s.fb.read a <;> cases s.memRead (a + 1) n <;> rfl
    rw [hs, Bool.and_eq_true, ih]
    constructor
    · rintro ⟨h₀, h₁⟩ j hj
      cases j with
      | zero => exact h₀
      | succ j => simpa [Nat.add_assoc, Nat.add_comm 1 j] using h₁ j (by omega)
    · intro h
      refine ⟨h 0 (by omega), fun j hj => ?_⟩
      simpa [Nat.add_assoc, Nat.add_comm 1 j] using h (j + 1) (by omega)

/-- A read of `n` bytes fits `8 * n` bits (R291). -/
theorem State.memRead_lt {s : State} {a n v : Nat} (h : s.memRead a n = some v) : v < 256 ^ n := by
  induction n generalizing a v with
  | zero =>
    cases h
    simp
  | succ n ih =>
    simp only [State.memRead_succ, Option.bind_eq_some_iff, Option.map_eq_some_iff] at h
    obtain ⟨b, -, u, hu, rfl⟩ := h
    have h₁ := b.isLt
    have h₂ := ih hu
    rw [pow_succ]
    omega

/-- A read of `n` bytes depends on those bytes alone, wherever they stand. -/
theorem State.memRead_congr {s t : State} (a b n : Nat)
    (h : ∀ j, j < n → t.fb.read (b + j) = s.fb.read (a + j)) : t.memRead b n = s.memRead a n := by
  induction n generalizing a b with
  | zero => rfl
  | succ n ih =>
    have h₀ : t.fb.read b = s.fb.read a := h 0 (by omega)
    have h₁ : t.memRead (b + 1) n = s.memRead (a + 1) n := by
      refine ih (a + 1) (b + 1) fun j hj => ?_
      have := h (j + 1) (by omega)
      rwa [show a + (j + 1) = a + 1 + j by omega, show b + (j + 1) = b + 1 + j by omega] at this
    rw [State.memRead_succ, State.memRead_succ, h₀, h₁]

/-- A read of bytes one after another is the read of the first ones and, above them, of the rest. -/
theorem State.memRead_add (s : State) (a m n : Nat) :
    s.memRead a (m + n) = (s.memRead a m).bind fun v => (s.memRead (a + m) n).map fun u => v + 256 ^ m * u := by
  induction m generalizing a with
  | zero => cases h : s.memRead a n <;> simp [h]
  | succ m ih =>
    rw [show m + 1 + n = (m + n) + 1 by omega, State.memRead_succ, ih (a + 1), State.memRead_succ,
      show a + 1 + m = a + (m + 1) by omega]
    cases s.fb.read a <;> cases s.memRead (a + 1) m <;> cases s.memRead (a + (m + 1)) n <;> simp
    rw [pow_succ]
    ring

/-- The 16-bit word at an offset (R98). -/
theorem State.fetchWord_of_reads {s : State} {a : Nat} {b c : Byte} (hb : s.fb.read a = some b)
    (hc : s.fb.read (a + 1) = some c) : s.fetchWord a = some (b.toNat + 256 * c.toNat) := by
  simp [State.fetchWord, State.memRead_succ, hb, hc]

/-- Fetching depends on the buffer alone. -/
theorem State.fetchWord_congr {s t : State} (h : t.fb = s.fb) (a : Nat) : t.fetchWord a = s.fetchWord a :=
  State.memRead_congr a a 2 fun _ _ => by rw [h]

theorem State.fetchWord_lt {s : State} {a v : Nat} (h : s.fetchWord a = some v) : v < 2 ^ 16 := by
  simpa using State.memRead_lt h

/-- A list of values is collected when each of them is there. -/
theorem collect_eq_some {α : Type} (f : Nat → Option α) (ks : List Nat) (xs : List α) :
    collect f ks = some xs ↔ ks.map f = xs.map some := by
  induction ks generalizing xs with
  | nil => cases xs <;> simp [collect]
  | cons k ks ih =>
    cases hf : f k with
    | none => cases xs <;> simp [collect, hf]
    | some y =>
      cases hc : collect f ks with
      | none =>
        cases xs with
        | nil => simp [collect, hf, hc]
        | cons x xs =>
          have := ih xs
          simp only [hc] at this
          simp [collect, hf, hc, ← this]
      | some ys =>
        cases xs with
        | nil => simp [collect, hf, hc]
        | cons x xs =>
          have := ih xs
          simp only [hc, Option.some.injEq] at this
          simp [collect, hf, hc, this]

/-- Nothing is collected exactly when one of the values is missing. -/
theorem collect_eq_none {α : Type} (f : Nat → Option α) (ks : List Nat) :
    collect f ks = none ↔ ∃ k ∈ ks, f k = none := by
  induction ks with
  | nil => simp [collect]
  | cons k ks ih =>
    cases hf : f k <;> cases hc : collect f ks <;> simp [collect, hf, hc, ← ih]

/-- All that `raise` can do before a command starts (R239). -/
theorem State.raise_notStarted (s : State) (e : ErrCode) (v : Word16) :
    s.raise .notStarted e v = { s with err := e.code, errInfo := v, run := .idle } := rfl

/-- All that `raise` does to a started `HPARSE` (R240). -/
theorem State.raise_headerParser (s : State) (e : ErrCode) (v : Word16) :
    s.raise .headerParser e v =
      { s with hv := false, hdr := Header.empty, err := e.code, errInfo := v, run := .idle } := rfl

/-- All that `raise` does to a started `DECODE` (R240). -/
theorem State.raise_sampleDecoder (s : State) (e : ErrCode) (v : Word16) :
    s.raise .sampleDecoder e v =
      { s with
        smv := false, dbv := false, svv := false, sm := [], dbm := [], sv := [], dim := none, work := none
        err := e.code, errInfo := v, run := .idle } := rfl

/-- All that completing a command does (R125, R152). -/
theorem State.complete_eq (s : State) : s.complete = { s with err := 0, errInfo := 0, run := .idle } := rfl

/-- All that reset does (R40, R260). -/
theorem State.applyReset_eq (s : State) :
    s.applyReset = { State.reset with cfg := s.cfg, inputs := s.inputs } := rfl

end Sys2Proof.Machine
end

