-- ==== Sys2Proof/Laws/Analyzer.lean ====
section
/-! SUPPORT. All that `MAGDB` and `STAB` can do. -/

namespace Sys2Proof.Machine

/-- The two outcomes of `MAGDB` (R180, R22, R237). -/
theorem magnitudes_cases (s : State) :
    ((s.smv = false ∨ s.dim = none ∨ ∃ d, s.dim = some d ∧ s.sm.covers d d.samples = false) ∧
      magnitudes s = { s with err := 7, errInfo := 0, run := .idle }) ∨
    (∃ d, s.smv = true ∧ s.dim = some d ∧ s.sm.covers d d.samples = true ∧
      magnitudes s =
        { s with
          dbm := s.sm.mapShape d Sample.power, dbv := true, sv := [], svv := false
          err := 0, errInfo := 0, run := .idle }) := by
  by_cases hf : s.smv = true
  · rcases Option.eq_none_or_eq_some s.dim with hd | ⟨d, hd⟩
    · have h : magnitudes s = s.raise .notStarted .notReady 0 := by simp only [magnitudes, hf, hd]
      exact .inl ⟨.inr (.inl hd), h⟩
    · by_cases hc : s.sm.covers d d.samples = true
      · have h : magnitudes s = State.complete
            { s.dropDecibels.start with dbm := s.sm.mapShape d Sample.power, dbv := true } := by
          simp only [magnitudes, hf, hd, hc, if_true]
          rfl
        exact .inr ⟨d, hf, hd, hc, h⟩
      · have h : magnitudes s = s.raise .notStarted .notReady 0 := by simp only [magnitudes, hf, hd, if_neg hc]
        exact .inl ⟨.inr (.inr ⟨d, hd, by simpa using hc⟩), h⟩
  · have hf : s.smv = false := by simpa using hf
    have h : magnitudes s = s.raise .notStarted .notReady 0 := by simp only [magnitudes, hf]
    exact .inl ⟨.inl hf, h⟩

/-- The three outcomes of `STAB` (R186, R189, R22, R237). -/
theorem stability_cases (thr : Nat) (s : State) :
    ((s.dbv = false ∨ s.dim = none ∨ ∃ d, s.dim = some d ∧ stabilityVector thr d s.dbm = none) ∧
      stability thr s = { s with err := 7, errInfo := 0, run := .idle }) ∨
    (∃ d, s.dbv = true ∧ s.dim = some d ∧ (0 < d.streams ∧ d.tones = 0) ∧
      stability thr s = { s with err := 8, errInfo := 0, run := .idle }) ∨
    (∃ d flags, s.dbv = true ∧ s.dim = some d ∧ ¬ (0 < d.streams ∧ d.tones = 0) ∧
      stabilityVector thr d s.dbm = some flags ∧
      stability thr s = { s with sv := flags, svv := true, err := 0, errInfo := 0, run := .idle }) := by
  by_cases hf : s.dbv = true
  · rcases Option.eq_none_or_eq_some s.dim with hd | ⟨d, hd⟩
    · have h : stability thr s = s.raise .notStarted .notReady 0 := by simp only [stability, hf, hd]
      exact .inl ⟨.inr (.inl hd), h⟩
    · by_cases he : 0 < d.streams ∧ d.tones = 0
      · have h : stability thr s = s.raise .notStarted .emptyStream 0 := by
          simp only [stability, hf, hd, if_pos he]
        exact .inr (.inl ⟨d, hf, hd, he, h⟩)
      · rcases Option.eq_none_or_eq_some (stabilityVector thr d s.dbm) with hv | ⟨flags, hv⟩
        · have h : stability thr s = s.raise .notStarted .notReady 0 := by
            simp only [stability, hf, hd, if_neg he, hv]
          exact .inl ⟨.inr (.inr ⟨d, hd, hv⟩), h⟩
        · have h : stability thr s =
              State.complete { s.dropStability.start with sv := flags, svv := true } := by
            simp only [stability, hf, hd, if_neg he, hv]
          exact .inr (.inr ⟨d, flags, hf, hd, he, hv, h⟩)
  · have hf : s.dbv = false := by simpa using hf
    have h : stability thr s = s.raise .notStarted .notReady 0 := by simp only [stability, hf]
    exact .inl ⟨.inl hf, h⟩

/-- A stream has a stability exactly when it is not empty (R187). -/
theorem stableStream_isSome (thr : Nat) (ps : List Nat) : (stableStream thr ps).isSome = true ↔ ps ≠ [] := by
  cases ps with
  | nil => simp [stableStream]
  | cons p ps =>
    simp only [stableStream, List.isEmpty_cons, Bool.false_eq_true, if_false, ne_eq, reduceCtorEq, not_false_eq_true, iff_true]
    split
    · rfl
    · split <;> rfl

/-- What a stability vector is: every stream has a flag, and each stands at its index (R190). -/
theorem stabilityVector_eq_some {thr : Nat} {d : Dim} {m : Memory Nat} {flags : Memory Bool}
    (h : stabilityVector thr d m = some flags) :
    ∃ f : Nat → Bool, (∀ p, p < d.streams → streamFlag thr d m p = some (f p)) ∧
      flags = (List.range d.streams).map (fun p => (p, f p)) := by
  refine ⟨fun p => (streamFlag thr d m p).getD false, ?_, ?_⟩
  all_goals rw [stabilityVector, collect_eq_some] at h
  · intro p hp
    have hm : (streamFlag thr d m p).map (fun flag => (p, flag)) ∈
        (List.range d.streams).map (fun p => (streamFlag thr d m p).map (fun flag => (p, flag))) :=
      List.mem_map.2 ⟨p, List.mem_range.2 hp, rfl⟩
    rw [h, List.mem_map] at hm
    obtain ⟨e, -, he⟩ := hm
    cases hs : streamFlag thr d m p with
    | none => simp [hs] at he
    | some b => simp [hs]
  · have hg : (List.range d.streams).map
          (fun p => some (p, (streamFlag thr d m p).getD false)) = flags.map some := by
      rw [← h]
      refine List.map_congr_left fun p hp => ?_
      have hm : (streamFlag thr d m p).map (fun flag => (p, flag)) ∈ flags.map some := by
        rw [← h]
        exact List.mem_map.2 ⟨p, hp, rfl⟩
      obtain ⟨e, -, he⟩ := List.mem_map.1 hm
      cases hs : streamFlag thr d m p with
      | none => simp [hs] at he
      | some b => rfl
    have := congrArg (List.filterMap id) hg
    simpa [List.filterMap_map, Function.comp_def] using this.symm

/-- The entry of each stream in a stability vector (R190). -/
theorem read_stabilityVector {thr : Nat} {d : Dim} {m : Memory Nat} {flags : Memory Bool}
    (h : stabilityVector thr d m = some flags) (p : Nat) :
    flags.read p = if p < d.streams then streamFlag thr d m p else none := by
  obtain ⟨f, hf, rfl⟩ := stabilityVector_eq_some h
  rw [Memory.read_map_range]
  split
  · exact (hf p ‹_›).symm
  · rfl

/-- A stability vector is in canonical form. -/
theorem wf_stabilityVector {thr : Nat} {d : Dim} {m : Memory Nat} {flags : Memory Bool}
    (h : stabilityVector thr d m = some flags) : flags.wf = true := by
  obtain ⟨f, -, rfl⟩ := stabilityVector_eq_some h
  exact Memory.wf_map_range _ _

end Sys2Proof.Machine
end

