-- ==== Sys2Proof/Laws/Decode.lean ====
section
/-! SUPPORT. The fields of an encoded command, and what the decoder reads from the fields of a word. -/

namespace Sys2Proof

/-- Cutting the four bytes of a word into the fields of format `CMD` (R91). -/
theorem CmdWord.ofWord_append (h : BitVec 8) (a b c : BitVec 8) :
    CmdWord.ofWord (h ++ a ++ b ++ c) =
      { op := h.extractLsb' 4 4, src := h.extractLsb' 3 1, z := h.extractLsb' 0 3, a := a, b := b, c := c } := by
  simp only [CmdWord.ofWord, CmdWord.mk.injEq]
  refine ⟨?_, ?_, ?_, ?_, ?_, ?_⟩ <;>
  · apply BitVec.eq_of_getLsbD_eq
    intro i hi
    simp only [BitVec.getLsbD_extractLsb', BitVec.getLsbD_append]
    interval_cases i <;> simp

end Sys2Proof
end

