-- ==== Sys2Proof/Laws/Decoder.lean ====
section
/-! SUPPORT. All that each internal step of `DECODE` can do. -/

namespace Sys2Proof.Machine

/-- The four outcomes of `REFILL` (R146): not needed, underrun, a word with no value, refilled. -/
theorem refill_cases (s : State) (w : Work) :
    (s.cfg.bits ≤ w.bl.toNat ∧ refill s w = .ok w) ∨
    (w.bl.toNat < s.cfg.bits ∧ w.lim.toNat < w.cur.toNat + 2 ∧ refill s w = .error (.bufferUnderrun, w.cur)) ∨
    (w.bl.toNat < s.cfg.bits ∧ w.cur.toNat + 2 ≤ w.lim.toNat ∧ s.fetchWord w.cur.toNat = none ∧
      refill s w = .error (.notReady, 0)) ∨
    (∃ word, w.bl.toNat < s.cfg.bits ∧ w.cur.toNat + 2 ≤ w.lim.toNat ∧ s.fetchWord w.cur.toNat = some word ∧
      refill s w = .ok { w with
        acc := w.acc + (BitVec.ofNat 32 word <<< w.bl.toNat)
        bl := w.bl + 16
        cur := w.cur + 2 }) := by
  by_cases h₁ : w.bl.toNat < s.cfg.bits
  · by_cases h₂ : w.lim.toNat < w.cur.toNat + 2
    · exact .inr (.inl ⟨h₁, h₂, by simp [refill, h₁, h₂]⟩)
    · cases hf : s.fetchWord w.cur.toNat with
      | none => exact .inr (.inr (.inl ⟨h₁, by omega, rfl, by simp [refill, h₁, h₂, hf]⟩))
      | some word => exact .inr (.inr (.inr ⟨word, h₁, by omega, rfl, by simp [refill, h₁, h₂, hf]⟩))
  · exact .inl ⟨by omega, by simp [refill, h₁]⟩

/-- `REFILL` touches `ACC`, `BL` and `CUR` alone. -/
theorem refill_frame {s : State} {w w' : Work} (h : refill s w = .ok w') :
    w'.lim = w.lim ∧ w'.k = w.k ∧ w'.t = w.t ∧ w'.r = w.r ∧ w'.phase = w.phase := by
  rcases refill_cases s w with ⟨-, e⟩ | ⟨-, -, e⟩ | ⟨-, -, -, e⟩ | ⟨word, -, -, -, e⟩ <;> rw [e] at h
  · cases h; simp
  · cases h
  · cases h
  · cases h; simp

/-- The two outcomes of `COMPONENT()` (R150): an error of `REFILL`, or a component out of the refilled bits. -/
theorem component_cases (s : State) (w : Work) :
    (∃ e, refill s w = .error e ∧ component s w = .error e) ∨
    (∃ w', refill s w = .ok w' ∧
      component s w = .ok (signExtend s.cfg.bits (rawComponent s.cfg.bits w'), consume s.cfg.bits w')) := by
  cases h : refill s w with
  | error e => exact .inl ⟨e, rfl, by simp [component, h]⟩
  | ok w' => exact .inr ⟨w', rfl, by simp [component, h]⟩

/-- The outcomes of one step of the walk (R150, R151, R153): an error; an imaginary component held; a sample stored
and the walk goes on; a sample stored and the command completes. -/
theorem walkStep_cases {s : State} {d : Dim} {w : Work} (hd : s.dim = some d) (hw : s.work = some w) :
    (∃ e info, component s w = .error (e, info) ∧ walkStep s = s.raise .sampleDecoder e info) ∨
    (∃ v w', component s w = .ok (v, w') ∧ w.phase = .imaginary ∧
      walkStep s = { s with work := some { w' with phase := .real v } }) ∨
    (∃ v imh w' w'', component s w = .ok (v, w') ∧ w.phase = .real imh ∧ w'.advance d = some w'' ∧
      walkStep s = { storeSample d w ⟨v, imh⟩ s with work := some w'' }) ∨
    (∃ v imh w', component s w = .ok (v, w') ∧ w.phase = .real imh ∧ w'.advance d = none ∧
      walkStep s = finishDecode (storeSample d w ⟨v, imh⟩ s)) := by
  cases hc : component s w with
  | error e => exact .inl ⟨e.1, e.2, rfl, by simp [walkStep, hd, hw, hc]⟩
  | ok p =>
    obtain ⟨v, w'⟩ := p
    cases hp : w.phase with
    | imaginary => exact .inr (.inl ⟨v, w', rfl, rfl, by simp [walkStep, hd, hw, hc, hp]⟩)
    | real imh =>
      cases ha : w'.advance d with
      | some w'' =>
        exact .inr (.inr (.inl ⟨v, imh, w', w'', rfl, rfl, ha, by simp [walkStep, hd, hw, hc, hp, ha]⟩))
      | none =>
        exact .inr (.inr (.inr ⟨v, imh, w', rfl, rfl, ha, by simp [walkStep, hd, hw, hc, hp, ha]⟩))

/-- The four ways the walk's indices move (R145). -/
theorem Work.advance_cases (d : Dim) (w : Work) :
    (w.r.toNat + 1 < d.nr.toNat ∧ w.advance d = some { w with r := w.r + 1, phase := .imaginary }) ∨
    (d.nr.toNat ≤ w.r.toNat + 1 ∧ w.t.toNat + 1 < d.nc.toNat ∧
      w.advance d = some { w with r := 0, t := w.t + 1, phase := .imaginary }) ∨
    (d.nr.toNat ≤ w.r.toNat + 1 ∧ d.nc.toNat ≤ w.t.toNat + 1 ∧ w.k.toNat + 1 < d.nt.toNat ∧
      w.advance d = some { w with r := 0, t := 0, k := w.k + 1, phase := .imaginary }) ∨
    (d.nr.toNat ≤ w.r.toNat + 1 ∧ d.nc.toNat ≤ w.t.toNat + 1 ∧ d.nt.toNat ≤ w.k.toNat + 1 ∧
      w.advance d = none) := by
  unfold Work.advance
  split
  · exact .inl ⟨‹_›, rfl⟩
  · split
    · exact .inr (.inl ⟨by omega, ‹_›, rfl⟩)
    · split
      · exact .inr (.inr (.inl ⟨by omega, by omega, ‹_›, rfl⟩))
      · exact .inr (.inr (.inr ⟨by omega, by omega, by omega, rfl⟩))

/-- The words a `DECODE` fetches all hold values when each of their bytes does (R22). -/
theorem State.wordsHeld_iff (s : State) (start : Nat) (d : Dim) :
    s.wordsHeld start d = true ↔
      ∀ j, j < 2 * s.wordsToFetch start d → (s.fb.read (start + j)).isSome = true :=
  s.memRead_isSome start _

/-- The bytes that `wordsHeld` asks for depend on the buffer, `CNT` and `B` alone. -/
theorem State.wordsHeld_congr {s t : State} (start : Nat) (d : Dim) (hb : t.fb = s.fb) (hc : t.cnt = s.cnt)
    (hg : t.cfg = s.cfg) : t.wordsHeld start d = s.wordsHeld start d := by
  simp only [State.wordsHeld, State.streamValue, State.wordsToFetch, hc, hg]
  exact congrArg Option.isSome (State.memRead_congr start start _ fun j _ => by rw [hb])

/-- When at least one word lies below `CNT` and the words are held, the first word is there. -/
theorem State.fetchWord_of_wordsHeld {s : State} {start : Nat} {d : Dim} (hc : start + 2 ≤ s.cnt.toNat)
    (h : s.wordsHeld start d = true) : ∃ word, s.fetchWord start = some word := by
  have hw : 1 ≤ s.wordsToFetch start d := by
    simp only [State.wordsToFetch, Dim.words, le_min_iff, le_max_iff, le_refl, true_or, true_and]
    omega
  have hs : (s.fetchWord start).isSome = true :=
    (s.memRead_isSome start 2).2 fun j hj => (s.wordsHeld_iff start d).1 h j (by omega)
  exact Option.isSome_iff_exists.1 hs

/-- All that `INIT` does when its word is there (R144, R159). -/
theorem initDecode_of_fetch {start word : Nat} {d : Dim} {s : State} (hc : start + 2 ≤ s.cnt.toNat)
    (hw : s.fetchWord start = some word) :
    initDecode start d s =
      if d.samples = 0 then finishDecode s
      else
        { s with
          work := some
            { acc := BitVec.ofNat 32 word
              bl := 16
              cur := BitVec.ofNat 16 (start + 2)
              lim := s.cnt
              k := 0
              t := 0
              r := 0
              phase := .imaginary } } := by
  rw [initDecode, if_neg (by omega), hw]
  rfl

/-- The five outcomes of a `DECODE` up to its walk (R140, R144, R159): rejected for its count, rejected for want of a
value, no first word, nothing to extract, the walk. -/
theorem beginDecode_cases (src : Src) (d : Dim) (s : State) :
    (s.cfg.fbSize < s.cnt.toNat ∧
      beginDecode src d s = { s with err := 6, errInfo := s.cnt, run := .idle }) ∨
    (s.cnt.toNat ≤ s.cfg.fbSize ∧ s.wordsHeld (startOffset src) d = false ∧
      beginDecode src d s = { s with err := 7, errInfo := 0, run := .idle }) ∨
    (s.cnt.toNat ≤ s.cfg.fbSize ∧ s.cnt.toNat < startOffset src + 2 ∧
      beginDecode src d s =
        s.raise .sampleDecoder .bufferUnderrun (BitVec.ofNat 16 (startOffset src))) ∨
    (s.cnt.toNat ≤ s.cfg.fbSize ∧ s.wordsHeld (startOffset src) d = true ∧ startOffset src + 2 ≤ s.cnt.toNat ∧
      d.samples = 0 ∧ beginDecode src d s = finishDecode { s.dropMatrix with dim := some d }) ∨
    (∃ word, s.cnt.toNat ≤ s.cfg.fbSize ∧ s.wordsHeld (startOffset src) d = true ∧
      startOffset src + 2 ≤ s.cnt.toNat ∧ d.samples ≠ 0 ∧ s.fetchWord (startOffset src) = some word ∧
      beginDecode src d s =
        { s.dropMatrix.start with
          dim := some d
          work := some
            { acc := BitVec.ofNat 32 word
              bl := 16
              cur := BitVec.ofNat 16 (startOffset src + 2)
              lim := s.cnt
              k := 0
              t := 0
              r := 0
              phase := .imaginary } }) := by
  by_cases h₁ : s.cfg.fbSize < s.cnt.toNat
  · exact .inl ⟨h₁, by simp only [beginDecode, h₁, if_true]; rfl⟩
  cases hh : s.wordsHeld (startOffset src) d with
  | false =>
    refine .inr (.inl ⟨by omega, rfl, ?_⟩)
    simp only [beginDecode, h₁, if_false, hh]
    rfl
  | true =>
    by_cases h₂ : s.cnt.toNat < startOffset src + 2
    · refine .inr (.inr (.inl ⟨by omega, h₂, ?_⟩))
      simp only [beginDecode, h₁, if_false, hh, if_true, initDecode, State.start_cnt, State.dropMatrix_cnt, h₂]
      rfl
    · obtain ⟨word, hw⟩ := State.fetchWord_of_wordsHeld (d := d) (by omega) hh
      have hb : beginDecode src d s = initDecode (startOffset src) d { s.dropMatrix.start with dim := some d } := by
        simp only [beginDecode, h₁, if_false, hh, if_true]
      have hi := initDecode_of_fetch (start := startOffset src) (d := d) (s := { s.dropMatrix.start with dim := some d })
        (by simpa using h₂) ((State.fetchWord_congr (s := s) rfl _).trans hw)
      rw [hi] at hb
      by_cases h₃ : d.samples = 0
      · refine .inr (.inr (.inr (.inl ⟨by omega, rfl, by omega, h₃, ?_⟩)))
        rw [hb, if_pos h₃]
        rfl
      · refine .inr (.inr (.inr (.inr ⟨word, by omega, rfl, by omega, h₃, hw, ?_⟩)))
        rw [hb, if_neg h₃]
        rfl

@[simp] theorem runWalk_zero (s : State) : runWalk 0 s = s := rfl

theorem runWalk_idle {s : State} (n : Nat) (h : s.run = .idle) : runWalk n s = s := by
  cases n with
  | zero => rfl
  | succ n => simp [runWalk, h]

theorem runWalk_busy {s : State} (n : Nat) (h : s.run = .busy) : runWalk (n + 1) s = runWalk n (walkStep s) := by
  simp [runWalk, h]

/-- What holds where the walk begins and is kept by each of its steps holds where it ends. -/
theorem runWalk_induction {P : State → Prop} (hstep : ∀ s, s.run = .busy → P s → P (walkStep s)) (n : Nat) {s : State}
    (h : P s) : P (runWalk n s) := by
  induction n generalizing s with
  | zero => exact h
  | succ n ih =>
    cases hr : s.run with
    | idle => rwa [runWalk_idle _ hr]
    | busy =>
      rw [runWalk_busy n hr]
      exact ih (hstep s hr h)

/-- The result of a sign extension fits its width (R148). -/
theorem signExtend_fits {bits raw : Nat} (hb : 1 ≤ bits) (hr : raw < 2 ^ bits) :
    componentFits bits (signExtend bits raw) = true := by
  obtain ⟨b, rfl⟩ : ∃ b, bits = b + 1 := ⟨bits - 1, by omega⟩
  have hpow : (2 : Nat) ^ (b + 1) = 2 * 2 ^ b := by rw [pow_succ]; ring
  have hpow' : (2 : Int) ^ (b + 1) = 2 * 2 ^ b := by rw [pow_succ]; ring
  have htest : raw.testBit b = decide (2 ^ b ≤ raw) := by
    rcases lt_or_ge raw (2 ^ b) with h | h
    · simp [Nat.testBit_lt_two_pow h, h]
    · simp [Nat.testBit_of_two_pow_le_and_two_pow_add_one_gt h hr, h]
  have hc : ((2 ^ b : Nat) : Int) = (2 : Int) ^ b := by push_cast; rfl
  simp only [componentFits, signExtend, Nat.add_sub_cancel, htest, Bool.and_eq_true, decide_eq_true_eq]
  split <;> omega

end Sys2Proof.Machine
end

