-- ==== Sys2Proof/Laws/Ports.lean ====
section
/-! SUPPORT. All that a step can do, by what the host does at the ports. -/

namespace Sys2Proof.Machine

theorem step_nil {s : State} (h : s.inputs = []) : step s = undisturbed s := by simp [step, takeStep, h]

theorem step_cons {s : State} {x : HostInput} {xs : List HostInput} (h : s.inputs = x :: xs) :
    step s = accept x { s with inputs := xs } := by simp [step, takeStep, h]

theorem whenIdle_idle {s : State} {act : Host.Outcome State Fault Refusal} (h : s.run = .idle) :
    whenIdle s act = act := by simp [whenIdle, h]

theorem whenIdle_busy {s : State} {act : Host.Outcome State Fault Refusal} (h : s.run = .busy) :
    whenIdle s act = .fault .hostActsWhileBusy := by simp [whenIdle, h]

/-- The two outcomes of the command port (R235). -/
theorem issue_cases (w : Word32) (s : State) :
    (∃ i, decode w = .ok i ∧ issue w s = exec i s) ∨
    (∃ e, decode w = .error e ∧ issue w s = .next { s with err := 5, errInfo := 0, run := .idle }) := by
  cases h : decode w with
  | ok i => exact .inl ⟨i, rfl, by simp [issue, h]⟩
  | error e => exact .inr ⟨e, rfl, by simp only [issue, h]; rfl⟩

/-- If the port accepts a host action, the state after is one of these. -/
theorem accept_next {x : HostInput} {s t : State} (h : accept x s = .next t) :
    (∃ a b, x = .fbWrite a b ∧ s.run = .idle ∧ a < s.cfg.fbSize ∧ t = { s with fb := s.fb.write a b }) ∨
    (∃ v, x = .cntWrite v ∧ s.run = .idle ∧ t = { s with cnt := v }) ∨
    (∃ v, x = .tsWrite v ∧ s.run = .idle ∧ t = { s with tsIn := some v }) ∨
    (∃ w, x = .command w ∧ s.run = .idle ∧ issue w s = .next t) ∨
    (∃ p v, x = .read p ∧ s.readPort p = some v ∧ t = s) ∨
    (x = .reset ∧ t = s.applyReset) := by
  have key : ∀ act : Host.Outcome State Fault Refusal, whenIdle s act = .next t → s.run = .idle ∧ act = .next t := by
    intro act ha
    cases hr : s.run with
    | idle => exact ⟨rfl, by rwa [whenIdle_idle hr] at ha⟩
    | busy => rw [whenIdle_busy hr] at ha; cases ha
  cases x with
  | fbWrite a b =>
    obtain ⟨hr, ha⟩ := key _ h
    by_cases hb : a < s.cfg.fbSize
    · simp only [hostWriteByte, hb, if_true, Host.Outcome.next.injEq] at ha
      exact .inl ⟨a, b, rfl, hr, hb, ha.symm⟩
    · simp [hostWriteByte, hb] at ha
  | cntWrite v =>
    obtain ⟨hr, ha⟩ := key _ h
    cases ha
    exact .inr (.inl ⟨v, rfl, hr, rfl⟩)
  | tsWrite v =>
    obtain ⟨hr, ha⟩ := key _ h
    cases ha
    exact .inr (.inr (.inl ⟨v, rfl, hr, rfl⟩))
  | command w =>
    obtain ⟨hr, ha⟩ := key _ h
    exact .inr (.inr (.inr (.inl ⟨w, rfl, hr, ha⟩)))
  | read p =>
    cases hp : s.readPort p with
    | none => simp [accept, hostRead, hp] at h
    | some v =>
      simp only [accept, hostRead, hp, Host.Outcome.next.injEq] at h
      exact .inr (.inr (.inr (.inr (.inl ⟨p, v, rfl, hp, h.symm⟩))))
  | reset =>
    simp only [accept, Host.Outcome.next.injEq] at h
    exact .inr (.inr (.inr (.inr (.inr ⟨rfl, h.symm⟩))))

/-- If a step with nothing at the ports answers a state, the block was idle and stays as it is, or its walk moves. -/
theorem undisturbed_next {s t : State} (h : undisturbed s = .next t) :
    (s.run = .idle ∧ t = s) ∨
    (s.run = .busy ∧ (∃ d w, s.dim = some d ∧ s.work = some w) ∧ t = walkStep s) := by
  unfold undisturbed at h
  split at h
  · cases h
    exact .inl ⟨‹_›, rfl⟩
  · cases h
    exact .inr ⟨‹_›, ⟨_, _, ‹_›, ‹_›⟩, rfl⟩
  · cases h

end Sys2Proof.Machine
end

