-- ==== Sys2Proof/Laws/HostModel.lean ====
section
/-! SUPPORT. How the host's sequences are put together, and what each part can answer. -/

namespace Sys2Proof.Machine

variable {α β γ : Type}

@[simp] theorem andThen_next (a : α) (f : α → Host.Outcome β Fault Refusal) : andThen (.next a) f = f a := rfl

/-- A sequence that answers has answered in both of its parts. -/
theorem andThen_eq_next {o : Host.Outcome α Fault Refusal} {f : α → Host.Outcome β Fault Refusal} {b : β} :
    andThen o f = .next b ↔ ∃ a, o = .next a ∧ f a = .next b := by
  cases o <;> simp [andThen]

/-- Sequences are put together in any grouping. -/
theorem andThen_assoc (o : Host.Outcome α Fault Refusal) (f : α → Host.Outcome β Fault Refusal)
    (g : β → Host.Outcome γ Fault Refusal) : andThen (andThen o f) g = andThen o fun a => andThen (f a) g := by
  cases o <;> rfl

/-- Serving two lists of actions one after the other. -/
theorem serve_append (xs ys : List HostInput) (s : State) : serve (xs ++ ys) s = andThen (serve xs s) (serve ys) := by
  induction xs generalizing s with
  | nil => rfl
  | cons x xs ih =>
    simp only [List.cons_append, serve, andThen_assoc]
    congr 1
    funext t
    exact ih t

/-- Serving one action is what its port does. -/
theorem serve_singleton (x : HostInput) (s : State) : serve [x] s = accept x { s with inputs := [] } := by
  simp only [serve, step_cons (s := { s with inputs := [x] }) rfl]
  cases accept x { s with inputs := [] } <;> rfl

/-- A host in `IDLE` that issues the word of a command that decodes to it runs it (R21). -/
theorem runCommand_idle {i : Instr} {s : State} (hr : s.run = .idle) (hd : decode (encode i) = .ok i) :
    runCommand i s = exec i { s with inputs := [] } := by
  rw [runCommand, serve_singleton]
  simp only [accept]
  rw [whenIdle_idle (by exact hr)]
  simp [issue, hd]

/-- All that the two sequences share at their end (R210): a decision only after `ERR = 0`. -/
theorem analyzeAndDecide_next {thr : BitVec 8} {kTrig : Nat} {s t : State} {report : FrameReport}
    (h : analyzeAndDecide thr kTrig s = .next (t, report)) :
    analyze thr s = .next t ∧
      ((t.err = 0 ∧ report = .analyzed (decision kTrig t)) ∨ (t.err ≠ 0 ∧ report = .analysisError t.err)) := by
  obtain ⟨u, hu, he⟩ := andThen_eq_next.1 h
  simp only [Host.Outcome.next.injEq, Prod.mk.injEq] at he
  obtain ⟨rfl, rfl⟩ := he
  refine ⟨hu, ?_⟩
  by_cases hz : u.err = 0
  · exact .inl ⟨hz, if_pos hz⟩
  · exact .inr ⟨hz, if_neg hz⟩

/-- When the trigger gives a decision the vector is valid and long enough (R210, R211). -/
theorem decision_eq_some {kTrig : Nat} {s : State} {b : Bool} (h : decision kTrig s = some b) :
    s.svv = true ∧ 1 ≤ kTrig ∧ s.dim.any (fun d => decide (kTrig ≤ d.streams)) = true ∧
      b = (List.range kTrig).all (fun p => s.sv.read p == some true) := by
  unfold decision at h
  split at h
  · rename_i hc
    simp only [Bool.and_eq_true, decide_eq_true_eq] at hc
    exact ⟨hc.1.1, hc.1.2, hc.2, (Option.some.inj h).symm⟩
  · cases h

end Sys2Proof.Machine
end

