-- ==== Sys2Proof/Laws/Parser.lean ====
section
/-! SUPPORT. All that `HPARSE` can do. -/

namespace Sys2Proof.Machine

/-- The four outcomes of `HPARSE` (R120): rejected for its count, truncated, rejected for want of a value, parsed. -/
theorem headerParse_cases (src : Src) (s : State) :
    (s.cfg.fbSize < s.cnt.toNat ∧
      headerParse src s = { s with err := 6, errInfo := s.cnt, run := .idle }) ∨
    (s.cnt.toNat ≤ s.cfg.fbSize ∧ s.cnt.toNat < 25 ∧
      headerParse src s =
        { s with hv := false, hdr := Header.empty, err := 1, errInfo := s.cnt, run := .idle }) ∨
    (s.cnt.toNat ≤ s.cfg.fbSize ∧ 25 ≤ s.cnt.toNat ∧ parseHeader src s = none ∧
      headerParse src s = { s with err := 7, errInfo := 0, run := .idle }) ∨
    (∃ h, s.cnt.toNat ≤ s.cfg.fbSize ∧ 25 ≤ s.cnt.toNat ∧ parseHeader src s = some h ∧
      headerParse src s = { s with hv := true, hdr := h, err := 0, errInfo := 0, run := .idle }) := by
  by_cases h₁ : s.cfg.fbSize < s.cnt.toNat
  · exact .inl ⟨h₁, by simp only [headerParse, h₁, if_true]; rfl⟩
  · by_cases h₂ : s.cnt.toNat < 25
    · exact .inr (.inl ⟨by omega, h₂, by simp only [headerParse, h₁, if_false, Config.hdrMin, h₂, if_true]; rfl⟩)
    · cases hp : parseHeader src s with
      | none =>
        refine .inr (.inr (.inl ⟨by omega, by omega, rfl, ?_⟩))
        simp only [headerParse, h₁, if_false, Config.hdrMin, h₂, hp]
        rfl
      | some h =>
        refine .inr (.inr (.inr ⟨h, by omega, by omega, rfl, ?_⟩))
        simp only [headerParse, h₁, if_false, Config.hdrMin, h₂, hp]
        rfl

/-- The fields are not there exactly when those of one row are not (R22). -/
theorem extractFields_eq_none (s : State) (rows : List HdrRow) (h : Header) :
    extractFields s rows h = none ↔ ∃ row ∈ rows, s.memRead (row.off.resolve s.cnt.toNat) row.width = none := by
  induction rows generalizing h with
  | nil => simp [extractFields]
  | cons row rows ih =>
    cases hr : s.memRead (row.off.resolve s.cnt.toNat) row.width with
    | none => simp [extractFields, hr]
    | some v => simp [extractFields, hr, ih]

/-- A header is not there exactly when a field or the timestamp is not (R22). -/
theorem parseHeader_eq_none (src : Src) (s : State) :
    parseHeader src s = none ↔
      s.tsIn = none ∨ ∃ row ∈ hdrTable, s.memRead (row.off.resolve s.cnt.toNat) row.width = none := by
  rw [← extractFields_eq_none s hdrTable Header.empty]
  cases he : extractFields s hdrTable Header.empty <;> cases ht : s.tsIn <;> simp [parseHeader, he, ht]

/-- The header a parse gives, register by register, from the values of the fields (R95, R122). -/
theorem parseHeader_of_reads {src : Src} {s : State} {stamp : Stamp}
    {tstamp csiLen channel phyerr noise rate chanbw numTones nr nc rssi rssi0 rssi1 rssi2 payloadLen bufLen : Nat}
    (h₀ : s.memRead 0 8 = some tstamp) (h₁ : s.memRead 8 2 = some csiLen) (h₂ : s.memRead 10 2 = some channel)
    (h₃ : s.memRead 12 1 = some phyerr) (h₄ : s.memRead 13 1 = some noise) (h₅ : s.memRead 14 1 = some rate)
    (h₆ : s.memRead 15 1 = some chanbw) (h₇ : s.memRead 16 1 = some numTones) (h₈ : s.memRead 17 1 = some nr)
    (h₉ : s.memRead 18 1 = some nc) (h₁₀ : s.memRead 19 1 = some rssi) (h₁₁ : s.memRead 20 1 = some rssi0)
    (h₁₂ : s.memRead 21 1 = some rssi1) (h₁₃ : s.memRead 22 1 = some rssi2) (h₁₄ : s.memRead 23 2 = some payloadLen)
    (h₁₅ : s.memRead (s.cnt.toNat - 2) 2 = some bufLen) (ht : s.tsIn = some stamp) :
    parseHeader src s = some
      { tstamp := some (BitVec.ofNat 64 tstamp)
        csiLen := some (BitVec.ofNat 16 csiLen)
        channel := some (BitVec.ofNat 16 channel)
        phyerr := some (BitVec.ofNat 8 phyerr)
        noise := some (BitVec.ofNat 8 noise)
        rate := some (BitVec.ofNat 8 rate)
        chanbw := some (BitVec.ofNat 8 chanbw)
        numTones := some (BitVec.ofNat 8 numTones)
        nr := some (BitVec.ofNat 8 nr)
        nc := some (BitVec.ofNat 8 nc)
        rssi := some (BitVec.ofNat 8 rssi)
        rssi0 := some (BitVec.ofNat 8 rssi0)
        rssi1 := some (BitVec.ofNat 8 rssi1)
        rssi2 := some (BitVec.ofNat 8 rssi2)
        payloadLen := some (BitVec.ofNat 16 payloadLen)
        bufLen := some (BitVec.ofNat 16 bufLen)
        capTs := some stamp
        src := some (sourceBit src) } := by
  simp only [parseHeader, hdrTable, extractFields, FieldOffset.resolve, Config.stLen, Config.plLen, Config.blLen,
    h₀, h₁, h₂, h₃, h₄, h₅, h₆, h₇, h₈, h₉, h₁₀, h₁₁, h₁₂, h₁₃, h₁₄, h₁₅, ht, Header.set]

end Sys2Proof.Machine
end

