-- ==== Sys2Proof/Laws/PerInstr.lean ====
section
/-! SUPPORT. Statements made per command, one lemma for each constructor. -/

namespace Sys2Proof

/-- The fields a command is written with make a legal word (R92, R94). -/
def Laws.FieldsLegal.Statement (i : Instr) : Prop := i.fields.legal = true

theorem Laws.FieldsLegal.hparseL : Laws.FieldsLegal.Statement .hparseL := rfl

theorem Laws.FieldsLegal.hparseR : Laws.FieldsLegal.Statement .hparseR := rfl

theorem Laws.FieldsLegal.decodeL (nr nc nt : BitVec 8) : Laws.FieldsLegal.Statement (.decodeL nr nc nt) := rfl

theorem Laws.FieldsLegal.decodeR (nr nc nt : BitVec 8) : Laws.FieldsLegal.Statement (.decodeR nr nc nt) := rfl

theorem Laws.FieldsLegal.magdb : Laws.FieldsLegal.Statement .magdb := rfl

theorem Laws.FieldsLegal.stab (thr : BitVec 8) : Laws.FieldsLegal.Statement (.stab thr) := rfl

end Sys2Proof
end

