-- ==== Sys2Proof/Tests/Slice0.lean ====
section
/-! SUPPORT. Tests on vectors of `95_test_vectors.md` (named in each docstring) and, for every statement that has
hypotheses, a concrete state and operands that meet them. -/

namespace Sys2Proof.Tests

open Sys2Proof.Machine

/-! ### Helpers -/

/-- An instance with components of so many bits. -/
def instanceOf (bits : Nat) (h : 1 ≤ bits ∧ bits ≤ 16) : Config :=
  { bits := bits, fbSize := 4096, bits_legal := h, fbSize_legal := by decide }

/-- A state after reset whose host has loaded bytes, their count and a timestamp. -/
def loaded (bytes : List Nat) (cnt : Nat) : State :=
  { State.reset with
    fb := bytes.zipIdx.map (fun e => (e.2, BitVec.ofNat 8 e.1)), cnt := BitVec.ofNat 16 cnt, tsIn := some 0x54 }

/-- The state a command gives. -/
def after (i : Instr) (s : State) : State :=
  match exec i s with
  | .next t => t
  | .fault _ => s
  | .refused _ => s

/-- The 27 bytes `HB` of section 2.2. -/
def hb : List Nat :=
  [0x01, 0x02, 0x03, 0x04, 0x05, 0x06, 0x07, 0x08, 0x8C, 0x00, 0x6C, 0x09, 0x00, 0x5F, 0x87, 0x01, 0x38, 0x02, 0x01,
    0x2D, 0x2A, 0x29, 0x80, 0x34, 0x12, 0x1B, 0x00]

/-- The stream of vector D1. -/
def d1 : List Nat := [0x00, 0xFC, 0x07, 0xE0, 0xFF, 0x00]

/-- The stream of vector D2. -/
def d2 : List Nat := [0x02, 0x04, 0x40, 0xC0, 0x00, 0x06, 0x14, 0x80, 0xC0, 0x01]

/-- The stream of program P5: 3 streams of 2 tones, zero samples among them. -/
def p5 : List Nat := [0, 0, 0, 0, 0, 0, 2, 8, 0, 0, 0, 4, 0, 0xE0, 0x7F, 0]

/-- The state of program P5 after its `MAGDB`. -/
def p5Analyzed : State := after .magdb (after (.decodeR 3 1 2) (loaded p5 16))

/-! ### Legal words: an ill-formed term for each check of R94 (section 2.1) -/

theorem test_opReserved_refused : (CmdWord.mk 5 0 0 0 0 0).opDefined = false ∧ (CmdWord.mk 5 0 0 0 0 0).legal = false := by
  decide

theorem test_opZero_refused : (CmdWord.mk 0 0 0 0 0 0).opDefined = false ∧ (CmdWord.mk 0 0 0 0 0 0).legal = false := by
  decide

theorem test_zNotZero_refused : (CmdWord.mk 2 0 1 1 1 1).zClear = false ∧ (CmdWord.mk 2 0 1 1 1 1).legal = false := by
  decide

theorem test_hparse_operand_refused :
    (CmdWord.mk 1 0 0 1 0 0).operandsAllowed = false ∧ (CmdWord.mk 1 0 0 1 0 0).legal = false := by decide

theorem test_magdb_operand_refused :
    (CmdWord.mk 3 0 0 0 0 1).operandsAllowed = false ∧ (CmdWord.mk 3 0 0 0 0 1).legal = false := by decide

theorem test_stab_operand_refused :
    (CmdWord.mk 4 0 0 20 1 0).operandsAllowed = false ∧ (CmdWord.mk 4 0 0 20 1 0).legal = false := by decide

theorem test_magdb_src_refused : (CmdWord.mk 3 1 0 0 0 0).srcAllowed = false ∧ (CmdWord.mk 3 1 0 0 0 0).legal = false := by
  decide

theorem test_stab_src_refused :
    (CmdWord.mk 4 1 0 20 0 0).srcAllowed = false ∧ (CmdWord.mk 4 1 0 20 0 0).legal = false := by decide

/-- An instance outside the legal ranges is refused (R8, U8, U9). -/
theorem test_config_refused :
    Config.make 0 4096 = none ∧ Config.make 17 4096 = none ∧ Config.make 10 24 = none ∧ Config.make 10 65536 = none ∧
      (Config.make 16 65535).isSome = true := by decide

/-! ### Decoding: words written out from R91 and R92, field by field -/

/-- op 0001, src 0, z 000, a, b, c 0. -/
theorem test_decode_hparseL : decode 0b0001_0_000_00000000_00000000_00000000#32 = .ok .hparseL := rfl

/-- op 0001, src 1. -/
theorem test_decode_hparseR : decode 0b0001_1_000_00000000_00000000_00000000#32 = .ok .hparseR := rfl

/-- op 0010, src 0, nr 2, nc 1, nt 3. -/
theorem test_decode_decodeL : decode 0b0010_0_000_00000010_00000001_00000011#32 = .ok (.decodeL 2 1 3) := rfl

/-- op 0010, src 1, nr 1, nc 1, nt 2. -/
theorem test_decode_decodeR : decode 0b0010_1_000_00000001_00000001_00000010#32 = .ok (.decodeR 1 1 2) := rfl

/-- op 0011. -/
theorem test_decode_magdb : decode 0b0011_0_000_00000000_00000000_00000000#32 = .ok .magdb := rfl

/-- op 0100, thr 20. -/
theorem test_decode_stab : decode 0b0100_0_000_00010100_00000000_00000000#32 = .ok (.stab 20) := rfl

/-- The illegal words of section 2.1, each with the clause of R94 that refuses it. -/
theorem test_decode_illegal :
    decode 0x00000000#32 = .error .opReserved ∧ decode 0xFFFFFFFF#32 = .error .zNotZero ∧
      decode 0x50000000#32 = .error .opReserved ∧ decode 0x21010101#32 = .error .zNotZero ∧
      decode 0x1F000000#32 = .error .zNotZero ∧ decode 0x10010000#32 = .error .operandNotZero ∧
      decode 0x30000001#32 = .error .operandNotZero ∧ decode 0x38000000#32 = .error .srcNotAllowed ∧
      decode 0x48140000#32 = .error .srcNotAllowed ∧ decode 0x40140100#32 = .error .operandNotZero :=
  ⟨rfl, rfl, rfl, rfl, rfl, rfl, rfl, rfl, rfl, rfl⟩

/-- The words R92 writes. -/
theorem test_encode :
    encode .hparseL = 0x10000000#32 ∧ encode .hparseR = 0x18000000#32 ∧ encode (.decodeL 2 1 3) = 0x20020103#32 ∧
      encode (.decodeR 1 2 2) = 0x28010202#32 ∧ encode .magdb = 0x30000000#32 ∧ encode (.stab 20) = 0x40140000#32 := by
  decide

/-! ### Commands -/

/-- H1: little-endian fields, the odd offset 23, the trailing buffer length. -/
theorem test_hparseL_H1 :
    (after .hparseL (loaded hb 27)).hdr =
      { tstamp := some 0x0807060504030201, csiLen := some 140, channel := some 2412, phyerr := some 0, noise := some 95
        rate := some 135, chanbw := some 1, numTones := some 56, nr := some 2, nc := some 1, rssi := some 45
        rssi0 := some 42, rssi1 := some 41, rssi2 := some 128, payloadLen := some 4660, bufLen := some 27
        capTs := some 0x54, src := some 0 } ∧
      (after .hparseL (loaded hb 27)).hv = true := by decide

/-- H2: one byte short. -/
theorem test_hparseL_H2 :
    (after .hparseL (loaded hb 24)).err = 1 ∧ (after .hparseL (loaded hb 24)).errInfo = 24 ∧
      (after .hparseL (after .hparseL (loaded hb 27))).hv = true ∧
      (after .hparseL { after .hparseL (loaded hb 27) with cnt := 24 }).hdr = Header.empty := by decide

/-- H3, H7: 25 bytes, where the last two fields are the same; replay mode. -/
theorem test_hparseR_H3 :
    (after .hparseR (loaded hb 25)).hdr.bufLen = some 0x1234 ∧ (after .hparseR (loaded hb 25)).hdr.src = some 1 := by
  decide

/-- R22, U3: a byte it copies, or the timestamp, that holds no value: `NotReady`, with nothing changed. -/
theorem test_hparse_needs_values :
    after .hparseL (loaded hb 28) = { loaded hb 28 with err := 7 } ∧
      after .hparseR { loaded hb 27 with tsIn := none } = { loaded hb 27 with tsIn := none, err := 7 } := by decide

/-- H6: a count past the buffer is rejected before the command starts. -/
theorem test_hparseR_H6 :
    (after .hparseR { after .hparseL (loaded hb 27) with cnt := 5000 }).err = 6 ∧
      (after .hparseR { after .hparseL (loaded hb 27) with cnt := 5000 }).hv = true := by decide

/-- Program P1, step 2: the live stream starts at offset 25 and every sample lands at its stream and tone. -/
theorem test_decodeL_P1 :
    (after (.decodeL 2 1 3) (loaded (List.replicate 25 0xAA ++
        [0x01, 0x0C, 0x10, 0xC0, 0x00, 0x04, 0x10, 0x80, 0x02, 0x0A, 0x00, 0x10, 0x00, 0x00, 0x01, 0x00]) 41)).sm =
      [(0, ⟨3, 1⟩), (1, ⟨4, 4⟩), (2, ⟨4, 0⟩), (256, ⟨3, 1⟩), (257, ⟨40, 40⟩), (258, ⟨4, 0⟩)] := by decide

/-- D7: no first word. -/
theorem test_decodeL_D7 :
    (after (.decodeL 1 1 1) (loaded hb 26)).err = 2 ∧ (after (.decodeL 1 1 1) (loaded hb 26)).errInfo = 25 := by decide

/-- D2, D6: the order of the walk, and an underrun by one byte. -/
theorem test_decodeR_D2_D6 :
    (after (.decodeR 2 2 1) (loaded d2 10)).sm = [(0, ⟨1, 2⟩), (256, ⟨3, 4⟩), (512, ⟨5, 6⟩), (768, ⟨7, 8⟩)] ∧
      (after (.decodeR 2 2 1) (loaded d2 9)).err = 2 ∧ (after (.decodeR 2 2 1) (loaded d2 9)).errInfo = 8 ∧
      (after (.decodeR 2 2 1) (loaded d2 9)).sm = [] := by decide

/-- R22, U3: the second of two words with no value, whether the count reaches it or not. -/
theorem test_decode_needs_values :
    after (.decodeR 1 1 1) (loaded [0xAA, 0x55] 4) = { loaded [0xAA, 0x55] 4 with err := 7 } ∧
      (after (.decodeR 1 1 1) (loaded [0xAA, 0x55] 3)).err = 2 := by decide

/-- D3, D4, D5: other widths, and the extremes of 16 bits. -/
theorem test_decodeR_widths :
    (after (.decodeR 1 1 2) { loaded [0x01, 0xE0, 0xFF, 0x03, 0xC0, 0xFF] 6 with cfg := instanceOf 12 (by decide) }).sm =
        [(0, ⟨-2, 1⟩), (1, ⟨-4, 3⟩)] ∧
      (after (.decodeR 1 1 1) { loaded [0x00, 0x80, 0xFF, 0x7F] 4 with cfg := instanceOf 16 (by decide) }).sm =
        [(0, ⟨32767, -32768⟩)] ∧
      (after (.decodeR 1 1 2) { loaded [0x06, 0x00] 2 with cfg := instanceOf 1 (by decide) }).sm =
        [(0, ⟨-1, 0⟩), (1, ⟨0, -1⟩)] := by decide

/-- Program P5, step 2: powers, a zero sample held as power 0. -/
theorem test_magdb_P5 :
    p5Analyzed.dbm = [(0, 0), (1, 0), (256, 0), (257, 1), (512, 524288), (513, 523265)] ∧ p5Analyzed.err = 0 := by decide

/-- M1: not ready. -/
theorem test_magdb_M1 : (after .magdb State.reset).err = 7 ∧ (after .magdb State.reset).dbv = false := by decide

/-- Program P5, steps 3 to 5. -/
theorem test_stab_P5 :
    (after (.stab 20) p5Analyzed).sv = [(0, true), (1, false), (2, true)] ∧
      (after (.stab 255) p5Analyzed).sv = [(0, true), (1, false), (2, true)] ∧
      (after (.stab 0) p5Analyzed).sv = [(0, true), (1, false), (2, false)] := by decide

/-- The table of section 2.5, and T2: the comparison is not strict; an empty stream is an error. -/
theorem test_stab_table :
    stableStream 20 [1, 100] = some true ∧ stableStream 19 [1, 100] = some false ∧
      stableStream 20 [1, 101] = some false ∧ stableStream 57 [1, 524288] = some false ∧
      stableStream 58 [1, 524288] = some true ∧ stableStream 0 [5, 6] = some false ∧ stableStream 255 [] = none ∧
      (after (.stab 20) (after .magdb (after (.decodeR 2 3 0) (loaded [0xAA, 0x55] 2)))).err = 8 := by decide

/-- P1: the decision is the AND of the first two flags (S10). -/
theorem test_decision :
    decision 2 (after (.stab 20) p5Analyzed) = some false ∧ decision 1 (after (.stab 20) p5Analyzed) = some true ∧
      decision 4 (after (.stab 20) p5Analyzed) = none := by decide

/-- A frame of one sample, `(3, 4)`, and one stream: the header `HB` with the counts changed, the stream, its length. -/
def oneFrame : List Byte :=
  (hb.take 16 ++ [1, 1, 1] ++ (hb.drop 19).take 6 ++ [0x04, 0x0C, 0x00, 0x00] ++ [0x1F, 0x00]).map (BitVec.ofNat 8)

/-- The same frame with counts too large for it. -/
def brokenFrame : List Byte := oneFrame.set 16 9

/-- What a sequence reports, and the powers it leaves. -/
def reported {α : Type} (o : Host.Outcome (State × α) Fault Refusal) : Option (α × Memory Nat) :=
  match o with
  | .next x => some (x.2, x.1.dbm)
  | .fault _ => none
  | .refused _ => none

/-- R212, R214: a frame and a zero-byte read. -/
theorem test_liveLoop :
    reported (liveLoop [(oneFrame, []), ([], [])] 20 1 State.reset) =
      some ([.analyzed (some true), .noFrame], [(0, 25)]) := by decide

/-- R214, R216: a frame that fails the bounds check gives no decision. -/
theorem test_liveSequence_skips : reported (liveSequence brokenFrame [] 20 1 State.reset) = some (.outOfBounds, []) := by
  decide

/-- R213: two records of a log and a third cut short. -/
theorem test_readRecords :
    let record := [1, 0] ++ List.replicate 26 (0x54 : Byte) ++ [7]
    readRecords 9 (record ++ record ++ record.take 28) =
      [⟨List.replicate 26 0x54, [7]⟩, ⟨List.replicate 26 0x54, [7]⟩] := by decide

/-- R213, R215: a record and one cut short; with two flags asked of one stream there is no decision. -/
theorem test_replayLog :
    let record := [31, 0] ++ List.replicate 26 (0x54 : Byte) ++ oneFrame
    reported (replayLog (record ++ record.take 40) 20 2 State.reset) = some ([.analyzed none], [(0, 25)]) := by decide

/-- R107 (b): `FRAME.R`, and `FRAME.L` on a frame that underruns, where the pseudo-command stops at `ERR = 2`. -/
theorem test_frame :
    (match andThen (serve (loadBytes oneFrame ++ loadStamp []) State.reset) (frame .replay oneFrame 20) with
      | .next t => (t.err, t.sv) | _ => (15, [])) = (0, [(0, true)]) ∧
    (match andThen (serve (loadBytes brokenFrame ++ loadStamp []) State.reset) (frame .live brokenFrame 20) with
      | .next t => (t.err, t.sv) | _ => (15, [])) = (2, []) := by decide

/-- One step from the state the host's word is put in runs it. -/
theorem test_withFetchWord :
    step (State.reset.withFetchWord 32 0x40140000) = .next { State.reset with err := 7 } := rfl

/-! ### Witnesses: for each statement with hypotheses, a state and operands that meet them -/

theorem witness_DecodeOfEncodeIsTheCommand : (Instr.decodeR 255 255 255).wellFormed = true := by decide

theorem witness_EncodeOfDecodeIsTheWord : ∃ i, decode 0x40FF0000#32 = .ok i := ⟨.stab 255, rfl⟩

theorem witness_StepRunsTheDecodedCommand :
    ∃ (s : State) (w : Word32) (rest : List HostInput) (i : Instr),
      s.run = .idle ∧ s.inputs = .command w :: rest ∧ decode w = .ok i :=
  ⟨{ loaded d1 6 with inputs := [.command 0x28010102, .reset] }, 0x28010102, [.reset], .decodeR 1 1 2, rfl, rfl, rfl⟩

theorem witness_StepRaisesIllegalCommand :
    ∃ (s : State) (w : Word32) (rest : List HostInput),
      s.run = .idle ∧ s.inputs = .command w :: rest ∧ (CmdWord.ofWord w).legal = false :=
  ⟨{ loaded d1 6 with inputs := [.command 0x38000000] }, 0x38000000, [], rfl, rfl, by decide⟩

theorem witness_ResetGivesTheResetValuesAtAnyTime :
    ∃ (s : State) (rest : List HostInput), s.run = .busy ∧ s.inputs = .reset :: rest :=
  ⟨{ loaded d1 6 with run := .busy, inputs := [.reset] }, [], rfl, rfl⟩

theorem witness_HostWritesChangeWhatTheyName_byte :
    ∃ (s : State) (rest : List HostInput) (a : Nat) (b : Byte),
      s.run = .idle ∧ s.inputs = .fbWrite a b :: rest ∧ a < s.cfg.fbSize :=
  ⟨{ loaded d1 6 with inputs := [.fbWrite 4095 7] }, [], 4095, 7, rfl, rfl, by decide⟩

theorem witness_HostWritesChangeWhatTheyName_count :
    ∃ (s : State) (rest : List HostInput) (v : Word16), s.run = .idle ∧ s.inputs = .cntWrite v :: rest :=
  ⟨{ loaded d1 6 with inputs := [.cntWrite 65535] }, [], 65535, rfl, rfl⟩

theorem witness_HostWritesChangeWhatTheyName_stamp :
    ∃ (s : State) (rest : List HostInput) (v : Stamp), s.run = .idle ∧ s.inputs = .tsWrite v :: rest :=
  ⟨{ loaded d1 6 with inputs := [.tsWrite 1] }, [], 1, rfl, rfl⟩

theorem witness_ReadsHaveNoSideEffects :
    (∃ (s : State) (port : ReadPort) (rest : List HostInput), s.inputs = .read port :: rest ∧
      ∃ v, s.readPort port = some v) ∧
    (∃ (s : State) (port : ReadPort) (rest : List HostInput), s.inputs = .read port :: rest ∧
      s.readPort port = none) :=
  ⟨⟨{ loaded d1 6 with inputs := [.read .status] }, .status, [], rfl, _, rfl⟩,
    ⟨{ loaded d1 6 with inputs := [.read (.sample 0 0)] }, .sample 0 0, [], rfl, rfl⟩⟩

theorem witness_ReadsAreGuardedByTheFlags : p5Analyzed.dim = some ⟨3, 1, 2⟩ := by decide

theorem witness_ReadsHaveAValueExactlyWhenValid : (after (.stab 20) p5Analyzed).Inv := by decide

theorem witness_HostActingOutsideItsDutiesFaults :
    (∃ (s : State) (x : HostInput) (rest : List HostInput), s.inputs = x :: rest ∧ s.run = .busy ∧
      (∀ port, x ≠ .read port) ∧ x ≠ .reset) ∧
    (∃ (s : State) (x : HostInput) (rest : List HostInput), s.inputs = x :: rest ∧ s.run = .idle ∧
      ∃ a b, x = .fbWrite a b ∧ s.cfg.fbSize ≤ a) :=
  ⟨⟨{ State.reset with run := .busy, inputs := [.command 0] }, .command 0, [], rfl, rfl, by simp, by simp⟩,
    ⟨{ State.reset with inputs := [.fbWrite 4096 0] }, .fbWrite 4096 0, [], rfl, rfl, 4096, 0, rfl, by decide⟩⟩

theorem witness_IdleBlockWithNoInputStaysAsItIs : (loaded d1 6).run = .idle ∧ (loaded d1 6).inputs = [] := ⟨rfl, rfl⟩

theorem witness_EveryStepKeepsTheParameters :
    ∃ t, step { loaded d1 6 with cfg := instanceOf 12 (by decide), inputs := [.reset] } = .next t := ⟨_, rfl⟩

/-- A `DECODE` in its walk, between the halves of a sample. -/
theorem witness_EveryStepKeepsTheInvariant :
    (walkStep (beginDecode .replay ⟨1, 1, 2⟩ (loaded d1 6))).Inv ∧
      ∃ t, step (walkStep (beginDecode .replay ⟨1, 1, 2⟩ (loaded d1 6))) = .next t :=
  ⟨by decide, _, rfl⟩

theorem witness_DutifulHostIsNeverStopped :
    State.Inv { p5Analyzed with inputs := [.command 0x40FF0000] } ∧
      State.hostDutiful { p5Analyzed with inputs := [.command 0x40FF0000] } = true :=
  ⟨by decide, by decide⟩

theorem witness_NoCommandWritesTheHostInputs :
    (∃ t, exec (.decodeR 1 1 2) (loaded d1 6) = .next t) ∧
      ∃ t, (beginDecode .replay ⟨1, 1, 2⟩ (loaded d1 6)).inputs = [] ∧
        step (beginDecode .replay ⟨1, 1, 2⟩ (loaded d1 6)) = .next t :=
  ⟨⟨_, rfl⟩, ⟨_, rfl, rfl⟩⟩

/-- With `CNT = 6` another byte at offset 6. -/
theorem witness_NoCommandReadsAtOrAboveTheCount :
    ∀ a, a < (loaded (d1 ++ [1]) 6).cnt.toNat →
      (loaded (d1 ++ [2]) 6).fb.read a = (loaded (d1 ++ [1]) 6).fb.read a := by decide

theorem witness_CommandsWriteOnlyTheirErrorCodes : ∃ t, exec (.stab 20) p5Analyzed = .next t := ⟨_, rfl⟩

theorem witness_RejectedCommandsChangeOnlyTheError :
    ∃ t, exec .magdb State.reset = .next t ∧ (t.err = 6 ∨ t.err = 7 ∨ t.err = 8) := ⟨_, rfl, by decide⟩

theorem witness_BadCountWhenTheCountPassesTheBuffer : (loaded hb 4097).cfg.fbSize < (loaded hb 4097).cnt.toNat := by decide

theorem witness_NotReadyWhenTheInputHoldsNoValue :
    (loaded hb 27).smv = false ∧ (after (.decodeR 1 1 2) (loaded d1 6)).dbv = false := by decide

/-- The boundary of each clause: the byte after the last one written; the last byte of the words that are fetched; an
entry of a matrix, and of a dB memory, that is missing. -/
theorem witness_NotReadyWhenANeededElementHoldsNoValue :
    (25 ≤ (loaded hb 28).cnt.toNat ∧ (loaded hb 28).cnt.toNat ≤ (loaded hb 28).cfg.fbSize ∧
      (27 < 25 ∨ (loaded hb 28).cnt.toNat - 2 ≤ 27 ∧ 27 < (loaded hb 28).cnt.toNat) ∧ (loaded hb 28).fb.read 27 = none) ∧
    ((loaded [0xAA, 0x55, 1] 4).cnt.toNat ≤ (loaded [0xAA, 0x55, 1] 4).cfg.fbSize ∧
      3 < 2 * min (Dim.words 10 ⟨1, 1, 1⟩) (((loaded [0xAA, 0x55, 1] 4).cnt.toNat - startOffset .replay) / 2) ∧
      (loaded [0xAA, 0x55, 1] 4).fb.read (startOffset .replay + 3) = none) ∧
    (p5Analyzed.smv = true ∧ p5Analyzed.dbv = true ∧ p5Analyzed.dim = some ⟨3, 1, 2⟩ ∧ 2 < Dim.streams ⟨3, 1, 2⟩ ∧
      1 < Dim.tones ⟨3, 1, 2⟩ ∧ { p5Analyzed with sm := p5Analyzed.sm.take 5 }.sm.read (256 * 2 + 1) = none ∧
      { p5Analyzed with dbm := p5Analyzed.dbm.take 5 }.dbm.read (256 * 2 + 1) = none) := by decide

theorem witness_MemReadIsTheLittleEndianSum :
    (∃ b : Nat → Byte, ∀ j, j < 2 → (loaded hb 27).fb.read (25 + j) = some (b j)) ∧
      ∃ j, j < 2 ∧ (loaded hb 27).fb.read (26 + j) = none :=
  ⟨⟨fun j => if j = 0 then 0x1B else 0, by decide⟩, 1, by decide, by decide⟩

/-- The least count, and one past which bytes between the fields hold no value. -/
theorem witness_HparseFillsTheHeader :
    let s := loaded hb 25
    let s' : State := { loaded hb 40 with fb := ((loaded hb 27).fb.write 38 1).write 39 2 }
    let b := fun a => if a = 38 then 1 else if a = 39 then 2 else BitVec.ofNat 8 (hb.getD a 0)
    (25 ≤ s.cnt.toNat ∧ s.cnt.toNat ≤ s.cfg.fbSize ∧ (∀ a, a < 25 → s.fb.read a = some (b a)) ∧ s.tsIn = some 0x54) ∧
      25 ≤ s'.cnt.toNat ∧ s'.cnt.toNat ≤ s'.cfg.fbSize ∧ (∀ a, a < 25 → s'.fb.read a = some (b a)) ∧
      (∀ a, a < 40 → 38 ≤ a → s'.fb.read a = some (b a)) ∧ s'.tsIn = some 0x54 := by decide

theorem witness_HparseTruncatedBelowTwentyFiveBytes : (loaded hb 24).cnt.toNat < 25 := by decide

theorem witness_HparseOverlapInShortBuffers :
    (∃ t, exec (parseCommand .live) (loaded hb 25) = .next t ∧ (loaded hb 25).cnt.toNat = 25 ∧
      (loaded hb 25).cnt.toNat ≤ (loaded hb 25).cfg.fbSize ∧ (loaded hb 25).tsIn.isSome = true ∧
      ∀ a, a < 25 → ((loaded hb 25).fb.read a).isSome = true) ∧
    ∃ t, exec (parseCommand .live) (loaded hb 26) = .next t ∧ (loaded hb 26).cnt.toNat = 26 ∧
      (loaded hb 26).cnt.toNat ≤ (loaded hb 26).cfg.fbSize ∧ (loaded hb 26).tsIn.isSome = true ∧
      ∀ a, a < 26 → ((loaded hb 26).fb.read a).isSome = true :=
  ⟨⟨_, rfl, by decide, by decide, by decide, by decide⟩, ⟨_, rfl, by decide, by decide, by decide, by decide⟩⟩

theorem witness_HparseFrame : ∃ t, exec (parseCommand .replay) (loaded hb 27) = .next t := ⟨_, rfl⟩

theorem witness_HparseRepeatsOnTheSameFrame :
    let s := loaded hb 27
    let s' := after (.decodeR 1 1 1) (loaded hb 27)
    s'.cfg = s.cfg ∧ s'.cnt = s.cnt ∧ s.cnt.toNat ≤ s.cfg.fbSize ∧
      (∀ a, a < s.cnt.toNat → s'.fb.read a = s.fb.read a) ∧ s'.tsIn = s.tsIn ∧
      (∃ t, exec (parseCommand .live) s = .next t ∧ t.err ≠ 7) ∧ ∃ t, exec (parseCommand .live) s' = .next t :=
  ⟨by decide, by decide, by decide, by decide, by decide, ⟨_, rfl, by decide⟩, ⟨_, rfl⟩⟩

theorem witness_SignExtensionOfAnyWidth : (1 ≤ 16 ∧ 32767 < 2 ^ 16 ∧ 32767 < 2 ^ (16 - 1)) ∧
    (1 ≤ 16 ∧ 32768 < 2 ^ 16 ∧ 2 ^ (16 - 1) ≤ 32768) := by decide

/-- A working set with so many pending bits, at offset 2 of six bytes. -/
def pending (acc : Word32) (bl : BitVec 5) (lim : Word16) : Work :=
  { cur := 2, acc := acc, bl := bl, lim := lim, k := 0, t := 0, r := 0, phase := .real 0 }

/-- The clauses at their boundaries: `BL = B`; `BL = B - 1` with one byte left, and with two that hold values, or not. -/
theorem witness_RefillStacksTheNextWord :
    let s := loaded d1 6
    ((pending 0x3FF 10 6).acc.toNat < 2 ^ (pending 0x3FF 10 6).bl.toNat ∧ s.cfg.bits ≤ (pending 0x3FF 10 6).bl.toNat) ∧
      ((pending 0x1FF 9 3).acc.toNat < 2 ^ (pending 0x1FF 9 3).bl.toNat ∧ (pending 0x1FF 9 3).bl.toNat < s.cfg.bits ∧
        (pending 0x1FF 9 3).lim.toNat < (pending 0x1FF 9 3).cur.toNat + 2) ∧
      ((pending 0x1FF 9 4).acc.toNat < 2 ^ (pending 0x1FF 9 4).bl.toNat ∧ (pending 0x1FF 9 4).bl.toNat < s.cfg.bits ∧
        (pending 0x1FF 9 4).cur.toNat + 2 ≤ (pending 0x1FF 9 4).lim.toNat ∧
        s.fb.read (pending 0x1FF 9 4).cur.toNat = some 0x07 ∧ s.fb.read ((pending 0x1FF 9 4).cur.toNat + 1) = some 0xE0 ∧
        (loaded (d1.take 3) 6).fb.read ((pending 0x1FF 9 4).cur.toNat + 1) = none) := by decide

theorem witness_ComponentKeepsTheAccumulatorBounds :
    ∃ w₁ w₂ v, (pending 0x1FF 9 4).acc.toNat < 2 ^ (pending 0x1FF 9 4).bl.toNat ∧ (pending 0x1FF 9 4).bl.toNat ≤ 16 ∧
      refill (loaded d1 6) (pending 0x1FF 9 4) = .ok w₁ ∧ component (loaded d1 6) (pending 0x1FF 9 4) = .ok (v, w₂) :=
  ⟨_, _, _, by decide, by decide, rfl, rfl⟩

/-- Exactly long enough (D1) in replay, and live behind 25 bytes that nothing has written. -/
theorem witness_DecodeCompletesWhenTheWordsAreThere :
    let s := loaded d1 6
    let s' : State := { loaded [] 31 with fb := (loaded d1 6).fb.map fun e : Nat × Byte => (25 + e.1, e.2) }
    (s.cnt.toNat ≤ s.cfg.fbSize ∧ startOffset .replay + 2 * Dim.words s.cfg.bits ⟨1, 1, 2⟩ ≤ s.cnt.toNat ∧
      ∀ j, j < 2 * Dim.words s.cfg.bits ⟨1, 1, 2⟩ → (s.fb.read (startOffset .replay + j)).isSome = true) ∧
    (s'.cnt.toNat ≤ s'.cfg.fbSize ∧ startOffset .live + 2 * Dim.words s'.cfg.bits ⟨1, 1, 2⟩ ≤ s'.cnt.toNat ∧
      ∀ j, j < 2 * Dim.words s'.cfg.bits ⟨1, 1, 2⟩ → (s'.fb.read (startOffset .live + j)).isSome = true) := by decide

theorem witness_DecodeIsLittleEndianBitFieldExtraction :
    let s := loaded d1 6
    s.cnt.toNat ≤ s.cfg.fbSize ∧ startOffset .replay + 2 * Dim.words s.cfg.bits ⟨1, 1, 2⟩ ≤ s.cnt.toNat ∧
      s.streamValue (startOffset .replay) (Dim.words s.cfg.bits ⟨1, 1, 2⟩) =
        some (511 * 2 ^ 10 + 512 * 2 ^ 20 + 1023 * 2 ^ 30) := by decide

/-- One byte short; and a count below the start offset. -/
theorem witness_DecodeUnderrunLeavesNoData :
    let s := loaded d1 5
    let s' := loaded d1 5
    (s.cnt.toNat ≤ s.cfg.fbSize ∧ s.cnt.toNat < startOffset .replay + 2 * Dim.words s.cfg.bits ⟨1, 1, 2⟩ ∧
      ¬ s.cnt.toNat < startOffset .replay ∧
      ∀ j, j < 2 * ((s.cnt.toNat - startOffset .replay) / 2) → (s.fb.read (startOffset .replay + j)).isSome = true) ∧
    (s'.cnt.toNat < startOffset .live + 2 * Dim.words s'.cfg.bits ⟨1, 1, 2⟩ ∧ s'.cnt.toNat < startOffset .live ∧
      ∀ j, j < 2 * ((s'.cnt.toNat - startOffset .live) / 2) → (s'.fb.read (startOffset .live + j)).isSome = true) := by
  decide

theorem witness_DecodeFrame : ∃ t, exec (decodeCommand .replay ⟨1, 1, 2⟩) (loaded d1 6) = .next t := ⟨_, rfl⟩

/-- The same stream after an earlier `DECODE` and an `HPARSE`. -/
theorem witness_DecodeIsAFunctionOfItsInputs :
    let s := loaded d1 6
    let s' := after .hparseL (after (.decodeR 1 1 1) (loaded d1 6))
    s'.cfg.bits = s.cfg.bits ∧ s'.cnt = s.cnt ∧ s.cnt.toNat ≤ s.cfg.fbSize ∧ s'.cnt.toNat ≤ s'.cfg.fbSize ∧
      (∀ a, a < s.cnt.toNat → s'.fb.read a = s.fb.read a) ∧
      (∃ t, exec (decodeCommand .replay ⟨1, 1, 2⟩) s = .next t ∧ t.err ≠ 7) ∧
      ∃ t, exec (decodeCommand .replay ⟨1, 1, 2⟩) s' = .next t :=
  ⟨by decide, by decide, by decide, by decide, by decide, ⟨_, rfl, by decide⟩, ⟨_, rfl⟩⟩

theorem witness_LiveDecodeIsReplayDecodeTwentyFiveBytesOn :
    let s := loaded (List.replicate 25 0 ++ d1) 31
    let s' := loaded d1 6
    s'.cfg.bits = s.cfg.bits ∧ 25 ≤ s.cnt.toNat ∧ s'.cnt.toNat = s.cnt.toNat - 25 ∧ s.cnt.toNat ≤ s.cfg.fbSize ∧
      s'.cnt.toNat ≤ s'.cfg.fbSize ∧ (∀ a, a < 6 → s'.fb.read a = s.fb.read (a + 25)) ∧ s.cnt.toNat = 31 ∧
      (∃ t, exec (.decodeL 1 1 2) s = .next t ∧ t.err ≠ 7) ∧ (∃ t, exec (.decodeR 1 1 2) s' = .next t) ∧
      (loaded d1 24).cnt.toNat < 25 :=
  ⟨by decide, by decide, by decide, by decide, by decide, by decide, by decide, ⟨_, rfl, by decide⟩, ⟨_, rfl⟩,
    by decide⟩

theorem witness_StepwiseDecodeIsTheAtomicDecode : (loaded d1 6).inputs = [] := rfl

/-- D1b: the samples of D1 with all filler bits set. -/
theorem witness_DecodeOfPackedSamplesReturnsThem :
    let s := loaded [0x00, 0xFC, 0x07, 0xE0, 0xFF, 0xFF] 6
    let d : Dim := ⟨1, 1, 2⟩
    let xs : List Sample := [⟨511, 0⟩, ⟨-1, -512⟩]
    xs.length = d.samples ∧ (∀ x ∈ xs, x.fits s.cfg.bits = true) ∧ s.cnt.toNat ≤ s.cfg.fbSize ∧
      startOffset .replay + 2 * d.words s.cfg.bits ≤ s.cnt.toNat ∧
      ∀ j, j < 2 * d.words s.cfg.bits → s.fb.read (startOffset .replay + j) =
        some (packByte (packValue s.cfg.bits xs + 255 * 2 ^ (d.components * s.cfg.bits)) j) := by decide

theorem witness_DecodeOfZeroCountsHasNoEntry :
    ((2 : BitVec 8) = 0 ∨ (3 : BitVec 8) = 0 ∨ (0 : BitVec 8) = 0) ∧
      (loaded [0xAA, 0x55] 2).cnt.toNat ≤ (loaded [0xAA, 0x55] 2).cfg.fbSize ∧
      startOffset .replay + 2 ≤ (loaded [0xAA, 0x55] 2).cnt.toNat ∧
      ((loaded [0xAA, 0x55] 2).fb.read (startOffset .replay)).isSome = true ∧
      ((loaded [0xAA, 0x55] 2).fb.read (startOffset .replay + 1)).isSome = true ∧
      ¬ startOffset .replay + 2 ≤ (loaded [0xAA, 0x55] 1).cnt.toNat := by decide

theorem witness_BoundsCheckFailsExactlyOnUnderrun :
    (loaded d1 6).cnt.toNat ≤ (loaded d1 6).cfg.fbSize ∧ boundsCheck .replay ⟨1, 1, 2⟩ (loaded d1 6) = true ∧
      (∀ a, a < 6 → ((loaded d1 6).fb.read a).isSome = true) ∧ boundsCheck .replay ⟨1, 1, 2⟩ (loaded d1 5) = false ∧
      ∀ a, a < 5 → ((loaded d1 5).fb.read a).isSome = true := by decide

theorem witness_PowerIsExactAndBounded : 1 ≤ 10 ∧ Sample.fits 10 ⟨-512, -512⟩ = true := by decide

theorem isDecibel_hundred (dbMin : ℝ) : IsDecibel dbMin 100 20 := by
  refine .inr ⟨by decide, ?_⟩
  have h : Real.logb 10 ((100 : ℕ) : ℝ) = 2 := by
    rw [show (((100 : ℕ)) : ℝ) = (10 : ℝ) ^ (2 : ℝ) by norm_num]
    exact Real.logb_rpow (by norm_num) (by norm_num)
  rw [h]
  norm_num

theorem isDecibel_one (dbMin : ℝ) : IsDecibel dbMin 1 0 := .inr ⟨by decide, by simp⟩

theorem isDecibel_zero (dbMin : ℝ) : IsDecibel dbMin 0 dbMin := .inl ⟨rfl, rfl⟩

theorem legal_dbMin : LegalDbMin (-256) := by norm_num [LegalDbMin]

theorem witness_PowerStandsForTheDecibelValue :
    LegalDbMin (-256) ∧ 0 < Sample.power ⟨3, 4⟩ ∧ IsDecibel (-256) 1 0 ∧ IsDecibel (-256) 100 20 ∧ (1 : Nat) < 100 :=
  ⟨legal_dbMin, by decide, isDecibel_one _, isDecibel_hundred _, by decide⟩

theorem witness_MagdbComputesEveryPower :
    let s := after (.decodeR 3 1 2) (loaded p5 16)
    s.smv = true ∧ s.dim = some ⟨3, 1, 2⟩ ∧
      ∀ p, p < Dim.streams ⟨3, 1, 2⟩ → ∀ k, k < Dim.tones ⟨3, 1, 2⟩ → (s.sm.read (256 * p + k)).isSome = true := by decide

theorem witness_StabComputesOneFlagPerStream :
    p5Analyzed.dbv = true ∧ p5Analyzed.dim = some ⟨3, 1, 2⟩ ∧
      (Dim.streams ⟨3, 1, 2⟩ = 0 ∨ 0 < Dim.tones ⟨3, 1, 2⟩) ∧
      ∀ p, p < Dim.streams ⟨3, 1, 2⟩ → ∀ k, k < Dim.tones ⟨3, 1, 2⟩ →
        (p5Analyzed.dbm.read (256 * p + k)).isSome = true := by decide

theorem witness_StabRaisesEmptyStream :
    let s := after .magdb (after (.decodeR 2 3 0) (loaded [0xAA, 0x55] 2))
    s.dbv = true ∧ s.dim = some ⟨2, 3, 0⟩ ∧ 0 < Dim.streams ⟨2, 3, 0⟩ ∧ Dim.tones ⟨2, 3, 0⟩ = 0 := by decide

/-- At the largest threshold, a stream that mixes a zero sample with others. -/
theorem witness_IntegerStabilityIsRealStability :
    LegalDbMin (-256) ∧ 255 ≤ 255 ∧ [0, 1, 100] ≠ ([] : List Nat) ∧
      List.Forall₂ (IsDecibel (-256)) [0, 1, 100] [-256, 0, 20] :=
  ⟨legal_dbMin, le_refl _, by simp,
    .cons (isDecibel_zero _) (.cons (isDecibel_one _) (.cons (isDecibel_hundred _) .nil))⟩

/-- Stream 1 of program P5: the samples `(0, 0)` and `(1, 0)`. -/
theorem witness_StabFlagIsTheDecibelRangeOfTheSamples :
    let xs : List Sample := [⟨0, 0⟩, ⟨1, 0⟩]
    p5Analyzed.Inv ∧ p5Analyzed.dbv = true ∧ p5Analyzed.dim = some ⟨3, 1, 2⟩ ∧ 0 < Dim.tones ⟨3, 1, 2⟩ ∧
      1 < Dim.streams ⟨3, 1, 2⟩ ∧ LegalDbMin (-256) ∧ xs.length = Dim.tones ⟨3, 1, 2⟩ ∧
      (∀ k, k < Dim.tones ⟨3, 1, 2⟩ → p5Analyzed.sm.read (256 * 1 + k) = xs[k]?) ∧
      List.Forall₂ (fun x e => IsDecibel (-256) x.power e) xs [-256, 0] :=
  ⟨by decide, by decide, by decide, by decide, by decide, legal_dbMin, by decide, by decide,
    .cons (isDecibel_zero _) (.cons (isDecibel_one _) .nil)⟩

theorem witness_ZeroSamplesInAStream :
    [0, 0] ≠ ([] : List Nat) ∧ (∀ p ∈ [0, 0], p = 0) ∧ ((∃ p ∈ [0, 1], p = 0) ∧ ∃ p ∈ [0, 1], p ≠ 0) ∧ [7].length = 1 := by decide

theorem witness_ThresholdTwentyIsAHundredfoldPower :
    100 ∈ [1, 100] ∧ 1 ∈ [1, 100] ∧ (∀ p ∈ [1, 100], 1 ≤ p ∧ p ≤ 100) ∧ 0 < 1 := by decide

theorem witness_DecisionIsTheConjunctionOfTheFirstFlags :
    (after (.stab 20) p5Analyzed).dim = some ⟨3, 1, 2⟩ ∧ (after (.stab 20) p5Analyzed).svv = true ∧
      3 ≤ Dim.streams ⟨3, 1, 2⟩ ∧ Dim.streams ⟨3, 1, 2⟩ < 4 ∧ p5Analyzed.svv = false := by decide

theorem witness_LogRecordsAreSplitAtTheirLength :
    (List.replicate 26 (65 : Byte)).length = 26 ∧ (List.replicate 3 (1 : Byte)).length < 2 ^ 16 ∧
      31 - 1 < 28 + (List.replicate 3 (1 : Byte)).length := by decide

theorem witness_DecisionsComeFromTheFrameItself :
    (∃ t, liveSequence oneFrame [] 20 1 State.reset = .next (t, .analyzed (some true))) ∧
      ∃ t, replaySequence ⟨[], oneFrame⟩ 20 1 State.reset = .next (t, .analyzed (some true)) := ⟨⟨_, rfl⟩, ⟨_, rfl⟩⟩

theorem witness_ReplayedFramesGiveTheLiveResult :
    State.reset.run = .idle ∧ oneFrame ≠ [] ∧ oneFrame.length ≤ State.reset.cfg.fbSize := by decide

end Sys2Proof.Tests
end

section
/-! SUPPORT. Family `00_scope`: the parameters `B` and `FB_SIZE` never change (O15); a read of the frame buffer is the
little-endian sum of its bytes (O28). -/

namespace Sys2Proof.Machine

/-! ### What a command leaves unchanged -/

/-- The second state holds what the first does wherever only the host, or nobody, writes: the parameters (R7), `FB`, `CNT`,
`TS_IN` (R62), and what the host does next. -/
structure State.KeepsHostSide (s t : State) : Prop where
  cfg : t.cfg = s.cfg
  fb : t.fb = s.fb
  cnt : t.cnt = s.cnt
  tsIn : t.tsIn = s.tsIn
  inputs : t.inputs = s.inputs

theorem State.KeepsHostSide.refl (s : State) : s.KeepsHostSide s := ⟨rfl, rfl, rfl, rfl, rfl⟩

theorem State.KeepsHostSide.trans {s t u : State} (h₁ : s.KeepsHostSide t) (h₂ : t.KeepsHostSide u) :
    s.KeepsHostSide u :=
  ⟨h₂.cfg.trans h₁.cfg, h₂.fb.trans h₁.fb, h₂.cnt.trans h₁.cnt, h₂.tsIn.trans h₁.tsIn, h₂.inputs.trans h₁.inputs⟩

theorem headerParse_keepsHostSide (src : Src) (s : State) : s.KeepsHostSide (headerParse src s) := by
  rcases headerParse_cases src s with ⟨-, e⟩ | ⟨-, -, e⟩ | ⟨-, -, -, e⟩ | ⟨_, -, -, -, e⟩ <;>
    rw [e] <;> exact ⟨rfl, rfl, rfl, rfl, rfl⟩

theorem magnitudes_keepsHostSide (s : State) : s.KeepsHostSide (magnitudes s) := by
  rcases magnitudes_cases s with ⟨-, e⟩ | ⟨_, -, -, -, e⟩ <;>
    rw [e] <;> exact ⟨rfl, rfl, rfl, rfl, rfl⟩

theorem stability_keepsHostSide (thr : Nat) (s : State) : s.KeepsHostSide (stability thr s) := by
  rcases stability_cases thr s with ⟨-, e⟩ | ⟨_, -, -, -, e⟩ | ⟨_, _, -, -, -, -, e⟩ <;>
    rw [e] <;> exact ⟨rfl, rfl, rfl, rfl, rfl⟩

theorem beginDecode_keepsHostSide (src : Src) (d : Dim) (s : State) : s.KeepsHostSide (beginDecode src d s) := by
  rcases beginDecode_cases src d s with ⟨-, e⟩ | ⟨-, -, e⟩ | ⟨-, -, e⟩ | ⟨-, -, -, -, e⟩ | ⟨_, -, -, -, -, -, e⟩ <;>
    rw [e] <;> exact ⟨rfl, rfl, rfl, rfl, rfl⟩

/-- A step of the walk, or none where no `DECODE` is in progress. -/
theorem walkStep_keepsHostSide (s : State) : s.KeepsHostSide (walkStep s) := by
  cases hd : s.dim with
  | none =>
    have e : walkStep s = s := by simp only [walkStep, hd]
    rw [e]
    exact .refl s
  | some d =>
    cases hw : s.work with
    | none =>
      have e : walkStep s = s := by simp only [walkStep, hd, hw]
      rw [e]
      exact .refl s
    | some w =>
      rcases walkStep_cases hd hw with
        ⟨_, _, -, e⟩ | ⟨_, _, -, -, e⟩ | ⟨_, _, _, _, -, -, -, e⟩ | ⟨_, _, _, -, -, -, e⟩ <;>
        rw [e] <;> exact ⟨rfl, rfl, rfl, rfl, rfl⟩

theorem sampleDecode_keepsHostSide (src : Src) (d : Dim) (s : State) : s.KeepsHostSide (sampleDecode src d s) :=
  runWalk_induction (P := s.KeepsHostSide) (fun t _ h => h.trans (walkStep_keepsHostSide t)) d.components
    (beginDecode_keepsHostSide src d s)

/-- No command writes what is the host's, nor the parameters (R62, R7). -/
theorem exec_keepsHostSide {i : Instr} {s t : State} (h : exec i s = .next t) : s.KeepsHostSide t := by
  cases i <;> cases h
  case hparseL => exact headerParse_keepsHostSide .live s
  case hparseR => exact headerParse_keepsHostSide .replay s
  case decodeL nr nc nt => exact sampleDecode_keepsHostSide .live ⟨nr, nc, nt⟩ s
  case decodeR nr nc nt => exact sampleDecode_keepsHostSide .replay ⟨nr, nc, nt⟩ s
  case magdb => exact magnitudes_keepsHostSide s
  case stab thr => exact stability_keepsHostSide thr.toNat s

/-- The command port, for legal and illegal words alike (R235). -/
theorem issue_keepsHostSide {w : Word32} {s t : State} (h : issue w s = .next t) : s.KeepsHostSide t := by
  rcases issue_cases w s with ⟨i, -, e⟩ | ⟨_, -, e⟩ <;> rw [e] at h
  · exact exec_keepsHostSide h
  · cases h
    exact ⟨rfl, rfl, rfl, rfl, rfl⟩

theorem undisturbed_keepsHostSide {s t : State} (h : undisturbed s = .next t) : s.KeepsHostSide t := by
  obtain ⟨-, rfl⟩ | ⟨-, -, rfl⟩ := undisturbed_next h
  · exact .refl t
  · exact walkStep_keepsHostSide s

/-! ### The parameters -/

/-- No host action at a port changes the parameters, reset included (R7, R260). -/
theorem accept_cfg {x : HostInput} {s t : State} (h : accept x s = .next t) : t.cfg = s.cfg := by
  obtain ⟨_, _, -, -, -, rfl⟩ | ⟨_, -, -, rfl⟩ | ⟨_, -, -, rfl⟩ | ⟨w, -, -, hw⟩ | ⟨_, _, -, -, rfl⟩ | ⟨-, rfl⟩ :=
    accept_next h
  · rfl
  · rfl
  · rfl
  · exact (issue_keepsHostSide hw).cfg
  · rfl
  · exact s.applyReset_cfg

/-- Settles O15, by what the host does at the ports: nothing, or its next action. -/
theorem everyStepKeepsTheParameters : Obligations.EveryStepKeepsTheParameters := by
  intro s t h
  cases hi : s.inputs with
  | nil =>
    rw [step_nil hi] at h
    exact (undisturbed_keepsHostSide h).cfg
  | cons x xs =>
    rw [step_cons hi] at h
    exact (accept_cfg h :)

/-! ### Reading the frame buffer -/

/-- A read has no value exactly when one of its bytes has none (R22). -/
theorem State.memRead_eq_none (s : State) (a n : Nat) :
    s.memRead a n = none ↔ ∃ j, j < n ∧ s.fb.read (a + j) = none := by
  have h := (s.memRead_isSome a n).not
  simpa using h

/-- A read of one byte is the byte. -/
theorem State.memRead_one {s : State} {a : Nat} {b : Byte} (h : s.fb.read a = some b) :
    s.memRead a 1 = some b.toNat := by
  simp [State.memRead_succ, h]

/-- A read is the sum of its bytes, each at its power of 256 (R10, R63): one byte more stands above the ones before it. -/
theorem State.memRead_eq_sum {s : State} {a n : Nat} {b : Nat → Byte}
    (h : ∀ j, j < n → s.fb.read (a + j) = some (b j)) :
    s.memRead a n = some ((List.range n).map (fun j => (b j).toNat * 2 ^ (8 * j))).sum := by
  induction n with
  | zero => rfl
  | succ n ih =>
    have hlow := ih fun j hj => h j (by omega)
    have hlast := State.memRead_one (h n (by omega))
    have hpow : 256 ^ n = 2 ^ (8 * n) := by rw [pow_mul]; rfl
    rw [State.memRead_add, hlow, Option.bind_some, hlast, Option.map_some, List.range_succ, List.map_append,
      List.sum_append, List.map_singleton, List.sum_singleton, hpow, Nat.mul_comm]

/-- Settles O28: the sum, by induction on the number of bytes, and no value for want of one. -/
theorem memReadIsTheLittleEndianSum : Obligations.MemReadIsTheLittleEndianSum :=
  fun s a n => ⟨fun _ h => State.memRead_eq_sum h, (s.memRead_eq_none a n).2⟩

end Sys2Proof.Machine
end

section
/-! SUPPORT. Family `10_state`: the ports and reset (O5, O7, O8, O9, O10, O14), that every command ends (O19), what
`DECODE` leaves as it was (O40), `NotReady` for want of a value (O26). -/

namespace Sys2Proof.Machine

/-! ### The ports -/

/-- In `IDLE` a port that asks for `IDLE` does what it is there for, once the host's action has been taken (R42). -/
theorem step_of_accept_whenIdle {s : State} {x : HostInput} {rest : List HostInput}
    {act : Host.Outcome State Fault Refusal} (hr : s.run = .idle) (hi : s.inputs = x :: rest)
    (ha : accept x { s with inputs := rest } = whenIdle { s with inputs := rest } act) : step s = act := by
  rw [step_cons hi, ha]
  exact whenIdle_idle hr

/-- Settles O5: in `IDLE` the command port issues the word, and a legal word runs its command. -/
theorem stepRunsTheDecodedCommand : Obligations.StepRunsTheDecodedCommand := by
  intro s w rest i hr hi hd
  rw [step_of_accept_whenIdle hr hi rfl, issue, hd]

/-- In `IDLE` the frame-buffer write port writes the byte when its offset exists (R42, R61). -/
theorem step_fbWrite {s : State} {a : Nat} {b : Byte} {rest : List HostInput} (hr : s.run = .idle)
    (hi : s.inputs = .fbWrite a b :: rest) (ha : a < s.cfg.fbSize) :
    step s = .next { s with inputs := rest, fb := s.fb.write a b } :=
  (step_of_accept_whenIdle hr hi rfl).trans (if_pos ha)

/-- Settles O9, by the laws of `Memory.write` for the byte and its neighbours. -/
theorem hostWritesChangeWhatTheyName : Obligations.HostWritesChangeWhatTheyName := by
  intro s rest hr
  refine ⟨fun a b hi ha => ⟨s.fb.write a b, step_fbWrite hr hi ha, s.fb.read_write_same a b, fun c hc => ?_⟩,
    fun v hi => step_of_accept_whenIdle hr hi rfl, fun v hi => step_of_accept_whenIdle hr hi rfl⟩
  exact s.fb.read_write_other b hc

/-- A port answers from the stores and flags, not from what the host does next. -/
theorem State.readPort_inputs (s : State) (rest : List HostInput) (port : ReadPort) :
    State.readPort { s with inputs := rest } port = s.readPort port := by
  cases port <;> rfl

/-- Settles O10: what a read does turns on what its port answers, which serving the port does not change. -/
theorem readsHaveNoSideEffects : Obligations.ReadsHaveNoSideEffects := by
  intro s port rest hi
  rw [step_cons hi, accept, hostRead, s.readPort_inputs rest port]
  constructor
  · rintro ⟨v, hv⟩
    rw [hv]
  · intro hv
    rw [hv]

/-- Settles O14. -/
theorem idleBlockWithNoInputStaysAsItIs : Obligations.IdleBlockWithNoInputStaysAsItIs := by
  intro s hr hi
  rw [step_nil hi, undisturbed, hr]

/-! ### Reset -/

/-- After reset no header register holds a value (R40). -/
@[simp] theorem Header.get_empty (r : HdrReg) : Header.empty.get r = none := by
  cases r <;> rfl

/-- Settles O8: the stores are empty, so nothing is read from them. -/
theorem resetStateHoldsTheResetValues : Obligations.ResetStateHoldsTheResetValues :=
  ⟨rfl, rfl, rfl, rfl, rfl, rfl, rfl, rfl, Memory.read_nil, rfl, Header.get_empty, rfl, rfl, Memory.read_nil,
    Memory.read_nil, Memory.read_nil⟩

/-- Settles O7: the reset port asks nothing of `STATE`, and what it leaves is the reset state but for the parameters and
the host's own actions. -/
theorem resetGivesTheResetValuesAtAnyTime : Obligations.ResetGivesTheResetValuesAtAnyTime := by
  intro s rest hi
  have hstep : step s = .next (State.applyReset { s with inputs := rest }) := by rw [step_cons hi, accept]
  exact ⟨_, hstep, rfl, rfl, rfl, rfl, rfl, rfl, rfl, rfl, Memory.read_nil, rfl, Header.get_empty, rfl, rfl,
    Memory.read_nil, Memory.read_nil, Memory.read_nil, rfl⟩

/-! ### The stream order of samples (R101) -/

theorem Dim.tones_lt (d : Dim) : d.tones < 256 := d.nt.isLt

/-- An index of `SM` or `DBM` gives its stream back. -/
theorem entryKey_div {k : Nat} (p : Nat) (hk : k < 256) : entryKey p k / 256 = p := by
  unfold entryKey
  omega

/-- An index of `SM` or `DBM` gives its tone back. -/
theorem entryKey_mod {k : Nat} (p : Nat) (hk : k < 256) : entryKey p k % 256 = k := by
  unfold entryKey
  omega

/-- The sample with the number of entry `(p, k)` goes to entry `(p, k)`. -/
theorem Dim.sampleKey_sampleNumber {d : Dim} {p : Nat} (hp : p < d.streams) (k : Nat) :
    d.sampleKey (d.sampleNumber p k) = entryKey p k := by
  have hpos : 0 < d.streams := by omega
  rw [Dim.sampleKey, Dim.sampleNumber, Nat.mul_comm, Nat.mul_add_mod, Nat.mod_eq_of_lt hp, Nat.mul_add_div hpos,
    Nat.div_eq_of_lt hp, Nat.add_zero]

/-- An entry inside the shape is one of the `nr * nc * nt` samples. -/
theorem Dim.sampleNumber_lt {d : Dim} {p k : Nat} (hp : p < d.streams) (hk : k < d.tones) :
    d.sampleNumber p k < d.samples := by
  calc k * d.streams + p < k * d.streams + d.streams := by omega
    _ = (k + 1) * d.streams := by ring
    _ ≤ d.tones * d.streams := Nat.mul_le_mul_right _ hk
    _ = d.streams * d.tones := Nat.mul_comm _ _

theorem Memory.covers_iff {α : Type} (d : Dim) (n : Nat) (m : Memory α) :
    m.covers d n = true ↔ ∀ j, j < n → (m.read (d.sampleKey j)).isSome = true := by
  simp [Memory.covers]

/-- A pair of indices in range names a stream of the shape. -/
theorem pairIndex_lt {d : Dim} {t r : Nat} (ht : t < d.nc.toNat) (hr : r < d.nr.toNat) :
    pairIndex d.nr.toNat t r < d.streams := by
  calc t * d.nr.toNat + r < t * d.nr.toNat + d.nr.toNat := by omega
    _ = (t + 1) * d.nr.toNat := by ring
    _ ≤ d.nc.toNat * d.nr.toNat := Nat.mul_le_mul_right _ ht
    _ = d.nr.toNat * d.nc.toNat := Nat.mul_comm _ _

/-! ### The indices of the walk (R28, R145) -/

/-- The indices stay below their bounds (R28). -/
structure Work.InShape (d : Dim) (w : Work) : Prop where
  k_lt : w.k.toNat < d.nt.toNat
  t_lt : w.t.toNat < d.nc.toNat
  r_lt : w.r.toNat < d.nr.toNat

/-- The walk is in stream order (R101): it has stored as many samples as the number of the one it is at. -/
theorem Work.sampleCount_eq (d : Dim) (w : Work) :
    w.sampleCount d = d.sampleNumber (pairIndex d.nr.toNat w.t.toNat w.r.toNat) w.k.toNat := by
  rw [Work.sampleCount, Dim.sampleNumber, pairIndex, Dim.streams]
  ring

/-- The walk begins at the first sample (R144). -/
theorem Work.sampleCount_origin (d : Dim) {w : Work} (hk : w.k = 0) (ht : w.t = 0) (hr : w.r = 0) :
    w.sampleCount d = 0 := by
  simp [Work.sampleCount, hk, ht, hr]

/-- While the walk is inside the shape a sample is left to extract. -/
theorem Work.InShape.sampleCount_lt {d : Dim} {w : Work} (h : w.InShape d) : w.sampleCount d < d.samples := by
  rw [Work.sampleCount_eq]
  exact Dim.sampleNumber_lt (pairIndex_lt h.t_lt h.r_lt) h.k_lt

/-- Where the walk goes on it is inside the shape, one sample further, at an imaginary component; the bits pending are
those of before. -/
structure Work.NextSample (d : Dim) (w w' : Work) : Prop where
  inShape : w'.InShape d
  sampleCount : w'.sampleCount d = w.sampleCount d + 1
  phase : w'.phase = .imaginary
  acc : w'.acc = w.acc
  bl : w'.bl = w.bl
  lim : w'.lim = w.lim
  cur : w'.cur = w.cur

/-- An 8-bit index below a bound of 8 bits is counted up without wrapping. -/
theorem toNat_succ_of_lt {i b : BitVec 8} (h : i.toNat + 1 < b.toNat) : (i + 1).toNat = i.toNat + 1 := by
  have := b.isLt
  rw [BitVec.toNat_add, show (1 : BitVec 8).toNat = 1 from rfl, Nat.mod_eq_of_lt (by omega)]

/-- The index a round of the walk starts from (R144, R145). -/
theorem toNat_zero_index : (0 : BitVec 8).toNat = 0 := rfl

theorem Work.advance_eq_some {d : Dim} {w w' : Work} (h : w.InShape d) (ha : w.advance d = some w') :
    w.NextSample d w' := by
  obtain ⟨hk, ht, hr⟩ := h
  rcases w.advance_cases d with ⟨h₁, e⟩ | ⟨h₁, h₂, e⟩ | ⟨h₁, h₂, h₃, e⟩ | ⟨-, -, -, e⟩ <;> rw [e] at ha <;> cases ha
  · have hs := toNat_succ_of_lt h₁
    exact ⟨⟨hk, ht, by rwa [hs]⟩, by simp only [Work.sampleCount, hs]; omega, rfl, rfl, rfl, rfl, rfl⟩
  · have hs := toNat_succ_of_lt h₂
    have hnr : d.nr.toNat = w.r.toNat + 1 := by omega
    refine ⟨⟨hk, by rwa [hs], by simp; omega⟩, ?_, rfl, rfl, rfl, rfl, rfl⟩
    simp only [Work.sampleCount, hs, hnr, toNat_zero_index]
    ring
  · have hs := toNat_succ_of_lt h₃
    have hnr : d.nr.toNat = w.r.toNat + 1 := by omega
    have hnc : d.nc.toNat = w.t.toNat + 1 := by omega
    refine ⟨⟨by rwa [hs], by simp; omega, by simp; omega⟩, ?_, rfl, rfl, rfl, rfl, rfl⟩
    simp only [Work.sampleCount, hs, hnr, hnc, toNat_zero_index]
    ring

/-- The walk ends with the last sample of the shape. -/
theorem Work.advance_eq_none {d : Dim} {w : Work} (h : w.InShape d) (ha : w.advance d = none) :
    w.sampleCount d + 1 = d.samples := by
  obtain ⟨hk, ht, hr⟩ := h
  rcases w.advance_cases d with ⟨-, e⟩ | ⟨-, -, e⟩ | ⟨-, -, -, e⟩ | ⟨h₁, h₂, h₃, -⟩
  · simp [e] at ha
  · simp [e] at ha
  · simp [e] at ha
  · have hnr : d.nr.toNat = w.r.toNat + 1 := by omega
    have hnc : d.nc.toNat = w.t.toNat + 1 := by omega
    have hnt : d.nt.toNat = w.k.toNat + 1 := by omega
    simp only [Work.sampleCount, Dim.samples, Dim.streams, Dim.tones, hnr, hnc, hnt]
    ring

/-- `COMPONENT()` moves no index and no phase. -/
theorem component_frame {s : State} {w w' : Work} {v : Int} (h : component s w = .ok (v, w')) :
    w'.k = w.k ∧ w'.t = w.t ∧ w'.r = w.r ∧ w'.phase = w.phase := by
  rcases component_cases s w with ⟨e, -, hc⟩ | ⟨u, hu, hc⟩
  · simp [hc] at h
  · rw [hc] at h
    cases h
    obtain ⟨-, hk, ht, hr, hp⟩ := refill_frame hu
    exact ⟨hk, ht, hr, hp⟩

/-- Nor does it leave the shape, or the sample. -/
theorem component_inShape {s : State} {d : Dim} {w w' : Work} {v : Int} (h : component s w = .ok (v, w'))
    (hw : w.InShape d) : w'.InShape d ∧ w'.sampleCount d = w.sampleCount d := by
  obtain ⟨hk, ht, hr, -⟩ := component_frame h
  exact ⟨⟨hk ▸ hw.k_lt, ht ▸ hw.t_lt, hr ▸ hw.r_lt⟩, by simp only [Work.sampleCount, hk, ht, hr]⟩

/-! ### Every command ends -/

/-- A `DECODE` is in its walk, at the component with this number (R145). -/
structure State.WalkAt (d : Dim) (n : Nat) (s : State) : Prop where
  run : s.run = .busy
  dim : s.dim = some d
  work : ∃ w, s.work = some w ∧ w.InShape d ∧ w.componentCount d = n

/-- A command has ended and left no working set (R41). -/
structure State.Ended (s : State) : Prop where
  run : s.run = .idle
  work : s.work = none

theorem Work.componentCount_imaginary {w : Work} (d : Dim) (h : w.phase = .imaginary) :
    w.componentCount d = 2 * w.sampleCount d := by
  simp [Work.componentCount, Work.c, h]

theorem Work.componentCount_real {w : Work} (d : Dim) {v : Int} (h : w.phase = .real v) :
    w.componentCount d = 2 * w.sampleCount d + 1 := by
  simp [Work.componentCount, Work.c, h]

/-- A step of the walk ends the command or moves on by one component. -/
theorem walkStep_walkAt {s : State} {d : Dim} {n : Nat} (h : s.WalkAt d n) :
    (walkStep s).Ended ∨ (walkStep s).WalkAt d (n + 1) := by
  obtain ⟨hrun, hd, w, hw, hin, rfl⟩ := h
  rcases walkStep_cases hd hw with
    ⟨_, _, -, e⟩ | ⟨v, w', hc, hp, e⟩ | ⟨v, imh, w', w'', hc, hp, ha, e⟩ | ⟨_, _, _, -, -, -, e⟩ <;> rw [e]
  · exact .inl ⟨rfl, rfl⟩
  · obtain ⟨hin', hcount⟩ := component_inShape hc hin
    refine .inr ⟨hrun, hd, _, rfl, ⟨hin'.k_lt, hin'.t_lt, hin'.r_lt⟩, ?_⟩
    rw [Work.componentCount_real d rfl, Work.componentCount_imaginary d hp, ← hcount]
    rfl
  · obtain ⟨hin', hcount⟩ := component_inShape hc hin
    have hnext := Work.advance_eq_some hin' ha
    refine .inr ⟨hrun, hd, w'', rfl, hnext.inShape, ?_⟩
    rw [Work.componentCount_imaginary d hnext.phase, Work.componentCount_real d hp, hnext.sampleCount, hcount]
    ring
  · exact .inl ⟨rfl, rfl⟩

/-- A walk inside the shape has a component left. -/
theorem State.WalkAt.lt {s : State} {d : Dim} {n : Nat} (h : s.WalkAt d n) : n < d.components := by
  obtain ⟨-, -, w, -, hin, rfl⟩ := h
  have hlt := hin.sampleCount_lt
  unfold Dim.components
  cases hp : w.phase with
  | imaginary => rw [Work.componentCount_imaginary d hp]; omega
  | real v => rw [Work.componentCount_real d hp]; omega

/-- A walk ends within the components that are left (R277). -/
theorem runWalk_ended {d : Dim} (k : Nat) {n : Nat} {s : State} (h : s.WalkAt d n) (hk : d.components ≤ n + k) :
    (runWalk k s).Ended := by
  induction k generalizing n s with
  | zero =>
    have := h.lt
    omega
  | succ k ih =>
    rw [runWalk_busy k h.run]
    rcases walkStep_walkAt h with hend | hnext
    · rwa [runWalk_idle k hend.run]
    · exact ih hnext (by omega)

/-- With a sample to extract, the walk begins inside the shape. -/
theorem Dim.pos_of_samples_ne_zero {d : Dim} (h : d.samples ≠ 0) :
    0 < d.nr.toNat ∧ 0 < d.nc.toNat ∧ 0 < d.nt.toNat := by
  simp only [Dim.samples, Dim.streams, Dim.tones, ne_eq, Nat.mul_eq_zero, not_or] at h
  omega

/-- A `DECODE` up to its walk has ended in `IDLE`, or its walk begins. -/
theorem beginDecode_walkAt (src : Src) (d : Dim) (s : State) :
    ((beginDecode src d s).run = .idle ∧ (s.work = none → (beginDecode src d s).work = none)) ∨
      (beginDecode src d s).WalkAt d 0 := by
  rcases beginDecode_cases src d s with
    ⟨-, e⟩ | ⟨-, -, e⟩ | ⟨-, -, e⟩ | ⟨-, -, -, -, e⟩ | ⟨_, -, -, -, hs, -, e⟩ <;> rw [e]
  · exact .inl ⟨rfl, id⟩
  · exact .inl ⟨rfl, id⟩
  · exact .inl ⟨rfl, fun _ => rfl⟩
  · exact .inl ⟨rfl, fun _ => rfl⟩
  · obtain ⟨hnr, hnc, hnt⟩ := Dim.pos_of_samples_ne_zero hs
    exact .inr ⟨rfl, rfl, _, rfl, ⟨hnt, hnc, hnr⟩, by
      rw [Work.componentCount_imaginary d rfl, Work.sampleCount_origin d rfl rfl rfl]⟩

theorem sampleDecode_ends (src : Src) (d : Dim) (s : State) :
    (sampleDecode src d s).run = .idle ∧ (s.work = none → (sampleDecode src d s).work = none) := by
  rcases beginDecode_walkAt src d s with hidle | hwalk
  · rwa [sampleDecode, runWalk_idle _ hidle.1]
  · have hend := runWalk_ended d.components hwalk (by omega)
    exact ⟨hend.run, fun _ => hend.work⟩

theorem headerParse_ends (src : Src) (s : State) :
    (headerParse src s).run = .idle ∧ (headerParse src s).work = s.work := by
  rcases headerParse_cases src s with ⟨-, e⟩ | ⟨-, -, e⟩ | ⟨-, -, -, e⟩ | ⟨_, -, -, -, e⟩ <;>
    rw [e] <;> exact ⟨rfl, rfl⟩

theorem magnitudes_ends (s : State) : (magnitudes s).run = .idle ∧ (magnitudes s).work = s.work := by
  rcases magnitudes_cases s with ⟨-, e⟩ | ⟨_, -, -, -, e⟩ <;> rw [e] <;> exact ⟨rfl, rfl⟩

theorem stability_ends (thr : Nat) (s : State) :
    (stability thr s).run = .idle ∧ (stability thr s).work = s.work := by
  rcases stability_cases thr s with ⟨-, e⟩ | ⟨_, -, -, -, e⟩ | ⟨_, _, -, -, -, -, e⟩ <;> rw [e] <;> exact ⟨rfl, rfl⟩

/-- Settles O19: only `DECODE` has a walk, which ends within the components of its shape. -/
theorem everyCommandEndsIdle : Obligations.EveryCommandEndsIdle := by
  intro i s
  cases i with
  | hparseL => exact ⟨_, rfl, (headerParse_ends .live s).1, (headerParse_ends .live s).2.trans⟩
  | hparseR => exact ⟨_, rfl, (headerParse_ends .replay s).1, (headerParse_ends .replay s).2.trans⟩
  | decodeL nr nc nt => exact ⟨_, rfl, sampleDecode_ends .live ⟨nr, nc, nt⟩ s⟩
  | decodeR nr nc nt => exact ⟨_, rfl, sampleDecode_ends .replay ⟨nr, nc, nt⟩ s⟩
  | magdb => exact ⟨_, rfl, (magnitudes_ends s).1, (magnitudes_ends s).2.trans⟩
  | stab thr => exact ⟨_, rfl, (stability_ends thr.toNat s).1, (stability_ends thr.toNat s).2.trans⟩

/-! ### What `DECODE` leaves as it was -/

theorem exec_parseCommand (src : Src) (s : State) : exec (parseCommand src) s = .next (headerParse src s) := by
  cases src <;> rfl

theorem exec_decodeCommand (src : Src) (d : Dim) (s : State) :
    exec (decodeCommand src d) s = .next (sampleDecode src d s) := by
  cases src <;> rfl

/-- The second state has the header file of the first. -/
structure State.KeepsHeader (s t : State) : Prop where
  hv : t.hv = s.hv
  hdr : t.hdr = s.hdr

theorem State.KeepsHeader.refl (s : State) : s.KeepsHeader s := ⟨rfl, rfl⟩

theorem State.KeepsHeader.trans {s t u : State} (h₁ : s.KeepsHeader t) (h₂ : t.KeepsHeader u) : s.KeepsHeader u :=
  ⟨h₂.hv.trans h₁.hv, h₂.hdr.trans h₁.hdr⟩

theorem beginDecode_keepsHeader (src : Src) (d : Dim) (s : State) : s.KeepsHeader (beginDecode src d s) := by
  rcases beginDecode_cases src d s with ⟨-, e⟩ | ⟨-, -, e⟩ | ⟨-, -, e⟩ | ⟨-, -, -, -, e⟩ | ⟨_, -, -, -, -, -, e⟩ <;>
    rw [e] <;> exact ⟨rfl, rfl⟩

/-- Outside a `DECODE` there is no step of the walk. -/
theorem walkStep_eq_self {s : State} (h : ¬ ∃ d w, s.dim = some d ∧ s.work = some w) : walkStep s = s := by
  unfold walkStep
  split
  · exact absurd ⟨_, _, ‹_›, ‹_›⟩ h
  · rfl

theorem walkStep_keepsHeader (s : State) : s.KeepsHeader (walkStep s) := by
  by_cases h : ∃ d w, s.dim = some d ∧ s.work = some w
  · obtain ⟨d, w, hd, hw⟩ := h
    rcases walkStep_cases hd hw with
      ⟨_, _, -, e⟩ | ⟨_, _, -, -, e⟩ | ⟨_, _, _, _, -, -, -, e⟩ | ⟨_, _, _, -, -, -, e⟩ <;> rw [e] <;> exact ⟨rfl, rfl⟩
  · rw [walkStep_eq_self h]
    exact .refl s

theorem sampleDecode_keepsHeader (src : Src) (d : Dim) (s : State) : s.KeepsHeader (sampleDecode src d s) :=
  runWalk_induction (P := s.KeepsHeader) (fun t _ h => h.trans (walkStep_keepsHeader t)) d.components
    (beginDecode_keepsHeader src d s)

/-- Settles O40: the header file and the host's side are kept, by induction along the walk; the command ends idle. -/
theorem decodeFrame : Obligations.DecodeFrame := by
  intro src d s t h
  rw [exec_decodeCommand] at h
  cases h
  obtain ⟨hcfg, hfb, hcnt, htsIn, hinputs⟩ := sampleDecode_keepsHostSide src d s
  obtain ⟨hhv, hhdr⟩ := sampleDecode_keepsHeader src d s
  have hrun := (sampleDecode_ends src d s).1
  rw [← hcfg, ← hfb, ← hcnt, ← htsIn, ← hinputs, ← hhv, ← hhdr, ← hrun]

/-! ### `NotReady` for want of a value -/

/-- A row of the header layout takes the byte at this offset (R95). -/
def HdrRow.takes (row : HdrRow) (cnt a : Nat) : Prop :=
  row.off.resolve cnt ≤ a ∧ a < row.off.resolve cnt + row.width

/-- The rows take the bytes 0 to 24 and the last two below `CNT` (R95). -/
theorem hdrTable_takes {cnt a : Nat} (h : a < 25 ∨ cnt - 2 ≤ a ∧ a < cnt) : ∃ row ∈ hdrTable, row.takes cnt a := by
  simp only [hdrTable, HdrRow.takes, FieldOffset.resolve, Config.stLen, Config.plLen, Config.blLen, List.mem_cons,
    List.not_mem_nil, or_false, exists_eq_or_imp, exists_eq_left]
  omega

/-- A read that spans a byte with no value has no value (R22). -/
theorem State.memRead_eq_none_of_read {s : State} {a n b : Nat} (hlo : a ≤ b) (hhi : b < a + n)
    (hb : s.fb.read b = none) : s.memRead a n = none :=
  (s.memRead_eq_none a n).2 ⟨b - a, by omega, by rwa [Nat.add_sub_cancel' hlo]⟩

/-- `HPARSE` has no header for want of the timestamp or of a byte it copies (R22; log 4, log 5). -/
theorem parseHeader_eq_none_of_missing {src : Src} {s : State}
    (h : s.tsIn = none ∨ ∃ a, (a < 25 ∨ s.cnt.toNat - 2 ≤ a ∧ a < s.cnt.toNat) ∧ s.fb.read a = none) :
    parseHeader src s = none := by
  rw [parseHeader_eq_none]
  refine h.imp_right ?_
  rintro ⟨a, ha, hnone⟩
  obtain ⟨row, hrow, hlo, hhi⟩ := hdrTable_takes ha
  exact ⟨row, hrow, State.memRead_eq_none_of_read hlo hhi hnone⟩

theorem headerParse_notReady {src : Src} {s : State} (h25 : 25 ≤ s.cnt.toNat) (hc : s.cnt.toNat ≤ s.cfg.fbSize)
    (hp : parseHeader src s = none) : headerParse src s = { s with err := 7, errInfo := 0, run := .idle } := by
  rcases headerParse_cases src s with ⟨h, -⟩ | ⟨-, h, -⟩ | ⟨-, -, -, e⟩ | ⟨_, -, -, h, -⟩
  · omega
  · omega
  · exact e
  · simp [hp] at h

theorem State.wordsHeld_eq_false {s : State} {start : Nat} {d : Dim} :
    s.wordsHeld start d = false ↔ ∃ j, j < 2 * s.wordsToFetch start d ∧ s.fb.read (start + j) = none := by
  have h := (s.wordsHeld_iff start d).not
  simpa using h

theorem sampleDecode_notReady {src : Src} {d : Dim} {s : State} (hc : s.cnt.toNat ≤ s.cfg.fbSize)
    (hw : s.wordsHeld (startOffset src) d = false) :
    sampleDecode src d s = { s with err := 7, errInfo := 0, run := .idle } := by
  have hbegin : beginDecode src d s = { s with err := 7, errInfo := 0, run := .idle } := by
    rw [beginDecode, if_neg (by omega), hw]
    rfl
  rw [sampleDecode, hbegin, runWalk_idle _ rfl]

theorem magnitudes_notReady {s : State} {d : Dim} {p k : Nat} (hd : s.dim = some d) (hp : p < d.streams)
    (hk : k < d.tones) (hnone : s.sm.read (entryKey p k) = none) :
    magnitudes s = { s with err := 7, errInfo := 0, run := .idle } := by
  rcases magnitudes_cases s with ⟨-, e⟩ | ⟨d', -, hd', hcov, -⟩
  · exact e
  · cases hd.symm.trans hd'
    have hsome := (Memory.covers_iff d d.samples s.sm).1 hcov _ (Dim.sampleNumber_lt hp hk)
    simp [Dim.sampleKey_sampleNumber hp, hnone] at hsome

/-- A stream with an entry missing has no flag, so there is no stability vector (R22; log 8). -/
theorem stabilityVector_eq_none {thr : Nat} {d : Dim} {m : Memory Nat} {p k : Nat} (hp : p < d.streams)
    (hk : k < d.tones) (hnone : m.read (entryKey p k) = none) : stabilityVector thr d m = none := by
  have hpowers : streamPowers d m p = none := (collect_eq_none _ _).2 ⟨k, List.mem_range.2 hk, hnone⟩
  exact (collect_eq_none _ _).2 ⟨p, List.mem_range.2 hp, by simp only [streamFlag, hpowers, Option.map_none]⟩

theorem stability_notReady {thr : Nat} {s : State} {d : Dim} {p k : Nat} (hd : s.dim = some d) (hp : p < d.streams)
    (hk : k < d.tones) (hnone : s.dbm.read (entryKey p k) = none) :
    stability thr s = { s with err := 7, errInfo := 0, run := .idle } := by
  rcases stability_cases thr s with ⟨-, e⟩ | ⟨d', -, hd', hempty, -⟩ | ⟨d', _, -, hd', -, hv, -⟩
  · exact e
  · cases hd.symm.trans hd'
    omega
  · cases hd.symm.trans hd'
    simp [stabilityVector_eq_none hp hk hnone] at hv

/-- Settles O26, command by command. -/
theorem notReadyWhenANeededElementHoldsNoValue : Obligations.NotReadyWhenANeededElementHoldsNoValue := by
  intro s
  refine ⟨fun src h25 hc hmiss => ?_, fun src d hc hmiss => ?_, fun d _ hd hmiss => ?_, fun d thr _ hd hmiss => ?_⟩
  · rw [exec_parseCommand, headerParse_notReady h25 hc (parseHeader_eq_none_of_missing hmiss)]
  · rw [exec_decodeCommand, sampleDecode_notReady hc (State.wordsHeld_eq_false.2 hmiss)]
  · obtain ⟨p, k, hp, hk, hnone⟩ := hmiss
    exact congrArg Host.Outcome.next (magnitudes_notReady hd hp hk hnone)
  · obtain ⟨p, k, hp, hk, hnone⟩ := hmiss
    exact congrArg Host.Outcome.next (stability_notReady hd hp hk hnone)

end Sys2Proof.Machine
end

section
/-! SUPPORT. Family `10_state`, continued: the invariant of every run (O16, O17), and that a dutiful host is never
stopped (O18). -/

namespace Sys2Proof.Machine

/-! ### The invariant of an idle block -/

/-- `SMV`, `DIM` and `SM` in `IDLE`: all samples of the shape are held, or none and no shape (R33, R34, R37). -/
def State.matrixSettled (s : State) : Bool :=
  if s.smv then s.dim.any (fun d => matrixUpTo s.cfg.bits d d.samples s.sm) else s.dim.isNone && s.sm.isEmpty

theorem State.matrixOk_of_idle {s : State} (h : s.run = .idle) : s.matrixOk = s.matrixSettled := by
  unfold State.matrixOk State.matrixSettled
  rw [h]
  cases s.smv <;> rfl

/-- With every sample of the shape held the matrix is valid (R37). -/
theorem State.matrixSettled_of_full {s : State} {d : Dim} (hv : s.smv = true) (hd : s.dim = some d)
    (hm : matrixUpTo s.cfg.bits d d.samples s.sm = true) : s.matrixSettled = true := by
  rw [State.matrixSettled, if_pos hv, hd]
  exact hm

/-- The invariant of an `IDLE` state, clause by clause. -/
structure State.IdleInv (s : State) : Prop where
  run : s.run = .idle
  stores : s.storesOk = true
  err : s.errOk = true
  header : s.headerOk = true
  matrix : s.matrixSettled = true
  decibels : s.decibelsOk = true
  stability : s.stabilityOk = true
  work : s.work = none

theorem State.inv_iff_of_idle {s : State} (h : s.run = .idle) : s.Inv ↔ s.IdleInv := by
  have hw : s.walkOk = s.work.isNone := by simp only [State.walkOk, h]
  simp only [State.Inv, State.inv, Bool.and_eq_true, State.matrixOk_of_idle h, hw, Option.isNone_iff_eq_none]
  constructor
  · rintro ⟨⟨⟨⟨⟨⟨h₁, h₂⟩, h₃⟩, h₄⟩, h₅⟩, h₆⟩, h₇⟩
    exact ⟨h, h₁, h₂, h₃, h₄, h₅, h₆, h₇⟩
  · rintro ⟨-, h₁, h₂, h₃, h₄, h₅, h₆, h₇⟩
    exact ⟨⟨⟨⟨⟨⟨h₁, h₂⟩, h₃⟩, h₄⟩, h₅⟩, h₆⟩, h₇⟩

theorem State.IdleInv.inv {s : State} (h : s.IdleInv) : s.Inv := (State.inv_iff_of_idle h.run).2 h

theorem State.storesOk_iff (s : State) :
    s.storesOk = true ↔
      s.fb.wf = true ∧ (∀ e ∈ s.fb, e.1 < s.cfg.fbSize) ∧ s.sm.wf = true ∧ s.dbm.wf = true ∧ s.sv.wf = true := by
  simp [State.storesOk, and_assoc]

/-! ### The invariant of a walk -/

/-- The pending bits after `n` components (R157): `ACC < 2^BL`; `CUR <= LIM = CNT`; the words fetched since the start
are the bits extracted and the bits pending; every word the walk fetches holds a value (R22). -/
structure Work.Pending (s : State) (d : Dim) (n : Nat) (w : Work) : Prop where
  acc_lt : w.acc.toNat < 2 ^ w.bl.toNat
  lim_eq : w.lim = s.cnt
  cnt_le : s.cnt.toNat ≤ s.cfg.fbSize
  cur_le : w.cur.toNat ≤ w.lim.toNat
  stream : ∃ src, startOffset src ≤ w.cur.toNat ∧ (w.cur.toNat - startOffset src) % 2 = 0 ∧
    8 * (w.cur.toNat - startOffset src) = n * s.cfg.bits + w.bl.toNat ∧ s.wordsHeld (startOffset src) d = true

/-- How many bits are pending between two components: at most 15, but the first word before the first (R157). -/
def Work.FewPending (n : Nat) (w : Work) : Prop := w.bl.toNat ≤ 15 ∨ w.bl.toNat = 16 ∧ n = 0

/-- The holding register is in range (R28). -/
def Work.HeldFits (bits : Nat) (w : Work) : Prop := ∀ v, w.phase = .real v → componentFits bits v = true

theorem Work.imh_all_iff (bits : Nat) (w : Work) : w.imh.all (componentFits bits) = true ↔ w.HeldFits bits := by
  unfold Work.imh Work.HeldFits
  cases w.phase <;> simp

theorem Work.ok_iff (s : State) (d : Dim) (w : Work) :
    w.ok s d = true ↔ w.Pending s d (w.componentCount d) ∧ w.FewPending (w.componentCount d) ∧ w.InShape d ∧
      w.HeldFits s.cfg.bits := by
  have hsrc : ∀ p : Src → Bool, [Src.live, Src.replay].any p = true ↔ ∃ src, p src = true := by
    intro p
    constructor
    · intro h
      obtain ⟨src, -, hp⟩ := List.any_eq_true.1 h
      exact ⟨src, hp⟩
    · rintro ⟨src, hp⟩
      exact List.any_eq_true.2 ⟨src, by cases src <;> simp, hp⟩
  simp only [Work.ok, Bool.and_eq_true, Bool.or_eq_true, decide_eq_true_eq, beq_iff_eq, hsrc, Work.imh_all_iff]
  constructor
  · rintro ⟨⟨⟨⟨⟨⟨⟨⟨⟨hacc, hfew⟩, hlim⟩, hcnt⟩, hcur⟩, src, ⟨⟨hle, hpar⟩, hbits⟩, hheld⟩, hk⟩, ht⟩, hr⟩, hfits⟩
    exact ⟨⟨hacc, hlim, hcnt, hcur, src, hle, hpar, hbits, hheld⟩, hfew, ⟨hk, ht, hr⟩, hfits⟩
  · rintro ⟨⟨hacc, hlim, hcnt, hcur, src, hle, hpar, hbits, hheld⟩, hfew, ⟨hk, ht, hr⟩, hfits⟩
    exact ⟨⟨⟨⟨⟨⟨⟨⟨⟨hacc, hfew⟩, hlim⟩, hcnt⟩, hcur⟩, src, ⟨⟨hle, hpar⟩, hbits⟩, hheld⟩, hk⟩, ht⟩, hr⟩, hfits⟩

/-- The invariant of a `BUSY` state, clause by clause: a `DECODE` of shape `d` stands at `w`, and no result is valid. -/
structure State.WalkInv (d : Dim) (w : Work) (s : State) : Prop where
  run : s.run = .busy
  stores : s.storesOk = true
  err : s.errOk = true
  header : s.headerOk = true
  dim : s.dim = some d
  work : s.work = some w
  smv : s.smv = false
  dbv : s.dbv = false
  svv : s.svv = false
  dbm : s.dbm = []
  sv : s.sv = []
  pending : w.Pending s d (w.componentCount d)
  few : w.FewPending (w.componentCount d)
  inShape : w.InShape d
  held : w.HeldFits s.cfg.bits
  matrix : matrixUpTo s.cfg.bits d (w.sampleCount d) s.sm = true

theorem State.WalkInv.inv {s : State} {d : Dim} {w : Work} (h : s.WalkInv d w) : s.Inv := by
  have hok := (w.ok_iff s d).2 ⟨h.pending, h.few, h.inShape, h.held⟩
  simp [State.Inv, State.inv, State.matrixOk, State.decibelsOk, State.stabilityOk, State.walkOk, h.run, h.stores, h.err,
    h.header, h.dim, h.work, h.smv, h.dbv, h.svv, h.dbm, h.sv, hok, h.matrix]

/-- `DBV` implies `SMV` (R272). -/
theorem State.noDecibels_of_noMatrix {s : State} (hsmv : s.smv = false) (h : s.decibelsOk = true) :
    s.dbv = false ∧ s.dbm = [] := by
  cases hv : s.dbv with
  | true => simp [State.decibelsOk, hv, hsmv] at h
  | false => exact ⟨rfl, by simpa [State.decibelsOk, hv] using h⟩

/-- `SVV` implies `DBV` (R272). -/
theorem State.noStability_of_noDecibels {s : State} (hdbv : s.dbv = false) (h : s.stabilityOk = true) :
    s.svv = false ∧ s.sv = [] := by
  cases hv : s.svv with
  | true => simp [State.stabilityOk, hv, hdbv] at h
  | false => exact ⟨rfl, by simpa [State.stabilityOk, hv] using h⟩

theorem State.exists_walkInv {s : State} (h : s.Inv) (hr : s.run = .busy) : ∃ d w, s.WalkInv d w := by
  simp only [State.Inv, State.inv, Bool.and_eq_true] at h
  obtain ⟨⟨⟨⟨⟨⟨hstores, herr⟩, hheader⟩, -⟩, hdecibels⟩, hstability⟩, hwalk⟩ := h
  cases hd : s.dim with
  | none => simp [State.walkOk, hr, hd] at hwalk
  | some d =>
    cases hw : s.work with
    | none => simp [State.walkOk, hr, hd, hw] at hwalk
    | some w =>
      simp only [State.walkOk, hr, hd, hw, Bool.and_eq_true, Bool.not_eq_true', Work.ok_iff] at hwalk
      obtain ⟨⟨hsmv, hpending, hfew, hin, hheld⟩, hmatrix⟩ := hwalk
      obtain ⟨hdbv, hdbm⟩ := State.noDecibels_of_noMatrix hsmv hdecibels
      obtain ⟨hsvv, hsv⟩ := State.noStability_of_noDecibels hdbv hstability
      exact ⟨d, w, hr, hstores, herr, hheader, hd, hw, hsmv, hdbv, hsvv, hdbm, hsv, hpending, hfew, hin, hheld, hmatrix⟩

/-! ### One component of the walk -/

/-- What is pending depends on these four registers of the working set. -/
theorem Work.Pending.of_registers {s : State} {d : Dim} {n : Nat} {w w' : Work} (h : w.Pending s d n)
    (hacc : w'.acc = w.acc) (hbl : w'.bl = w.bl) (hlim : w'.lim = w.lim) (hcur : w'.cur = w.cur) :
    w'.Pending s d n := by
  obtain ⟨hlt, hcnt, hle, hin, hstream⟩ := h
  rw [← hacc, ← hbl] at hlt
  rw [← hlim] at hcnt
  rw [← hcur, ← hlim] at hin
  rw [← hcur, ← hbl] at hstream
  exact ⟨hlt, hcnt, hle, hin, hstream⟩

/-- Of the state it depends on the buffer, `CNT` and `B` alone. -/
theorem Work.Pending.of_state {s s' : State} {d : Dim} {n : Nat} {w : Work} (h : w.Pending s d n) (hfb : s'.fb = s.fb)
    (hcnt : s'.cnt = s.cnt) (hcfg : s'.cfg = s.cfg) : w.Pending s' d n := by
  obtain ⟨hlt, hlim, hle, hin, hstream⟩ := h
  rw [← hcnt] at hlim hle
  rw [← hcfg] at hle
  simp only [← hcfg, ← State.wordsHeld_congr _ _ hfb hcnt hcfg] at hstream
  exact ⟨hlt, hlim, hle, hin, hstream⟩

/-- Stacking a word above `b` pending bits adds 16 to them and loses none (R146, R291). -/
theorem acc_add_word {acc : Word32} {b word : Nat} (hb : b ≤ 15) (hacc : acc.toNat < 2 ^ b) (hword : word < 2 ^ 16) :
    (acc + (BitVec.ofNat 32 word <<< b)).toNat < 2 ^ (b + 16) := by
  have hpow : 2 ^ (b + 16) = 2 ^ b * 65536 := by rw [pow_add]; norm_num
  have hle : 2 ^ b ≤ 2 ^ 15 := Nat.pow_le_pow_right (by decide) hb
  have hshift : word * 2 ^ b ≤ 65535 * 2 ^ b := Nat.mul_le_mul_right _ (by omega)
  rw [BitVec.toNat_add, BitVec.toNat_shiftLeft, BitVec.toNat_ofNat, Nat.shiftLeft_eq,
    Nat.mod_eq_of_lt (a := word) (by omega), Nat.mod_eq_of_lt (a := word * 2 ^ b) (by omega),
    Nat.mod_eq_of_lt (by omega)]
  omega

/-- `REFILL` keeps what R157 says of the pending bits, and leaves enough of them for a component. -/
theorem refill_pending {s : State} {d : Dim} {n : Nat} {w w' : Work} (h : w.Pending s d n) (hfew : w.FewPending n)
    (hr : refill s w = .ok w') :
    w'.Pending s d n ∧ s.cfg.bits ≤ w'.bl.toNat ∧ w'.bl.toNat ≤ s.cfg.bits + 15 := by
  have hbits := s.cfg.bits_legal
  unfold Work.FewPending at hfew
  rcases refill_cases s w with ⟨hle, e⟩ | ⟨-, -, e⟩ | ⟨-, -, -, e⟩ | ⟨word, hlt, hlim, hword, e⟩ <;>
    rw [e] at hr <;> cases hr
  · exact ⟨h, hle, by omega⟩
  · obtain ⟨src, hstart, hpar, hcount, hheld⟩ := h.stream
    have hbl : (w.bl + 16).toNat = w.bl.toNat + 16 := by
      rw [BitVec.toNat_add, show (16 : BitVec 5).toNat = 16 from rfl, Nat.mod_eq_of_lt (by omega)]
    have hcur : (w.cur + 2).toNat = w.cur.toNat + 2 := by
      have := w.lim.isLt
      rw [BitVec.toNat_add, show (2 : Word16).toNat = 2 from rfl, Nat.mod_eq_of_lt (by omega)]
    refine ⟨⟨?_, h.lim_eq, h.cnt_le, ?_, src, ?_, ?_, ?_, hheld⟩, ?_, ?_⟩
    · simp only [hbl]
      exact acc_add_word (by omega) h.acc_lt (State.fetchWord_lt hword)
    all_goals simp only [hbl, hcur]; omega

/-- `EXTRACT` takes one component's bits away from those pending (R149). -/
theorem consume_pending {s : State} {d : Dim} {n : Nat} {w : Work} (h : w.Pending s d n)
    (hle : s.cfg.bits ≤ w.bl.toNat) :
    (consume s.cfg.bits w).Pending s d (n + 1) ∧ (consume s.cfg.bits w).bl.toNat = w.bl.toNat - s.cfg.bits := by
  have hbits := s.cfg.bits_legal
  have hof : (BitVec.ofNat 5 s.cfg.bits).toNat = s.cfg.bits := by
    rw [BitVec.toNat_ofNat, Nat.mod_eq_of_lt (by omega)]
  have hbl : (w.bl - BitVec.ofNat 5 s.cfg.bits).toNat = w.bl.toNat - s.cfg.bits := by
    rw [BitVec.toNat_sub_of_le (by rw [BitVec.le_def, hof]; exact hle), hof]
  obtain ⟨src, hstart, hpar, hcount, hheld⟩ := h.stream
  refine ⟨⟨?_, h.lim_eq, h.cnt_le, h.cur_le, src, hstart, hpar, ?_, hheld⟩, hbl⟩
  · simp only [consume, hbl, BitVec.toNat_ushiftRight, Nat.shiftRight_eq_div_pow]
    rw [Nat.div_lt_iff_lt_mul (by positivity), ← pow_add, Nat.sub_add_cancel hle]
    exact h.acc_lt
  · simp only [consume, hbl, Nat.succ_mul]
    omega

/-- `COMPONENT()` gives a component in range, and moves the pending bits on by one component (R148, R150, R157). -/
theorem component_pending {s : State} {d : Dim} {n : Nat} {w w' : Work} {v : Int} (h : w.Pending s d n)
    (hfew : w.FewPending n) (hc : component s w = .ok (v, w')) :
    w'.Pending s d (n + 1) ∧ w'.FewPending (n + 1) ∧ componentFits s.cfg.bits v = true := by
  rcases component_cases s w with ⟨_, -, e⟩ | ⟨u, hu, e⟩ <;> rw [e] at hc <;> cases hc
  obtain ⟨hp, hlo, hhi⟩ := refill_pending h hfew hu
  obtain ⟨hp', hbl⟩ := consume_pending hp hlo
  have hraw : rawComponent s.cfg.bits u < 2 ^ s.cfg.bits := Nat.mod_lt _ (by positivity)
  exact ⟨hp', .inl (by omega), signExtend_fits s.cfg.bits_legal.1 hraw⟩

/-! ### The sample matrix -/

theorem matrixUpTo_iff (bits : Nat) (d : Dim) (n : Nat) (m : Memory Sample) :
    matrixUpTo bits d n m = true ↔ m.covers d n = true ∧
      ∀ e ∈ m, d.holds e.1 = true ∧ d.sampleNumber (e.1 / 256) (e.1 % 256) < n ∧ e.2.fits bits = true := by
  simp [matrixUpTo, and_assoc]

/-- Before the first sample the matrix is empty (R143). -/
theorem matrixUpTo_zero_nil (bits : Nat) (d : Dim) : matrixUpTo bits d 0 [] = true := rfl

/-- Storing the next sample of the stream at its entry (R101, R151). -/
theorem matrixUpTo_write {bits : Nat} {d : Dim} {p k : Nat} {x : Sample} {m : Memory Sample} (hp : p < d.streams)
    (hk : k < d.tones) (hx : x.fits bits = true) (h : matrixUpTo bits d (d.sampleNumber p k) m = true) :
    matrixUpTo bits d (d.sampleNumber p k + 1) (m.write (entryKey p k) x) = true := by
  have hk' : k < 256 := hk.trans d.tones_lt
  rw [matrixUpTo_iff, Memory.covers_iff] at h ⊢
  obtain ⟨hcov, hall⟩ := h
  constructor
  · intro j hj
    rw [Memory.read_write]
    split
    · rfl
    · next hne =>
      refine hcov j (lt_of_le_of_ne (by omega) ?_)
      rintro rfl
      exact hne (Dim.sampleKey_sampleNumber hp k)
  · intro e he
    rcases Memory.mem_write m _ x he with rfl | he
    · simp [Dim.holds, entryKey_div p hk', entryKey_mod p hk', hp, hk, hx]
    · obtain ⟨hholds, hlt, hfits⟩ := hall e he
      exact ⟨hholds, by omega, hfits⟩

/-! ### The walk keeps the invariant -/

/-- A started `DECODE` that fails leaves a block with no result (R240). -/
theorem raise_sampleDecoder_idleInv {s : State} {e : ErrCode} (info : Word16) (hstores : s.storesOk = true)
    (hheader : s.headerOk = true) (he : e = .bufferUnderrun ∨ e = .notReady) :
    (s.raise .sampleDecoder e info).IdleInv := by
  obtain ⟨hfb, hsize, -, -, -⟩ := s.storesOk_iff.1 hstores
  rw [State.raise_sampleDecoder]
  refine ⟨rfl, (State.storesOk_iff _).2 ⟨hfb, hsize, rfl, rfl, rfl⟩, ?_, hheader, rfl, rfl, rfl, rfl⟩
  rcases he with rfl | rfl <;> rfl

/-- The errors of `COMPONENT()` are those of `REFILL` (R153, R22). -/
theorem component_error {s : State} {w : Work} {e : ErrCode} {info : Word16} (h : component s w = .error (e, info)) :
    e = .bufferUnderrun ∨ e = .notReady := by
  rcases component_cases s w with ⟨e', hr, hc⟩ | ⟨_, -, hc⟩ <;> rw [hc] at h <;> cases h
  rcases refill_cases s w with ⟨-, e⟩ | ⟨-, -, e⟩ | ⟨-, -, -, e⟩ | ⟨_, -, -, -, e⟩ <;> rw [e] at hr <;> cases hr
  · exact .inl rfl
  · exact .inr rfl

/-- A store is in canonical form after a sample is stored. -/
theorem storeSample_storesOk {s : State} (d : Dim) (w : Work) (x : Sample) (h : s.storesOk = true) :
    (storeSample d w x s).storesOk = true := by
  obtain ⟨hfb, hsize, hsm, hdbm, hsv⟩ := s.storesOk_iff.1 h
  exact (State.storesOk_iff _).2 ⟨hfb, hsize, Memory.wf_write _ x hsm, hdbm, hsv⟩

/-- The sample the walk stands at is stored at its entry, and then one sample more is held (R151). -/
theorem State.WalkInv.matrix_storeSample {s : State} {d : Dim} {w : Work} {v imh : Int} (h : s.WalkInv d w)
    (hp : w.phase = .real imh) (hv : componentFits s.cfg.bits v = true) :
    matrixUpTo s.cfg.bits d (w.sampleCount d + 1) (storeSample d w ⟨v, imh⟩ s).sm = true := by
  have hfits : Sample.fits s.cfg.bits ⟨v, imh⟩ = true := by simp [Sample.fits, hv, h.held imh hp]
  have hm := h.matrix
  rw [Work.sampleCount_eq] at hm ⊢
  exact matrixUpTo_write (pairIndex_lt h.inShape.t_lt h.inShape.r_lt) h.inShape.k_lt hfits hm

/-- A step at an imaginary component holds it and keeps the invariant (R150, R157). -/
theorem State.WalkInv.hold_imaginary {s : State} {d : Dim} {w w' : Work} {v : Int} (h : s.WalkInv d w)
    (hc : component s w = .ok (v, w')) (hp : w.phase = .imaginary) :
    State.WalkInv d { w' with phase := .real v } { s with work := some { w' with phase := .real v } } := by
  obtain ⟨hpend, hfew, hv⟩ := component_pending h.pending h.few hc
  obtain ⟨hin, hcount⟩ := component_inShape hc h.inShape
  have hsamples : Work.sampleCount d { w' with phase := .real v } = w.sampleCount d := hcount
  have hnum : Work.componentCount d { w' with phase := .real v } = w.componentCount d + 1 := by
    rw [Work.componentCount_real d rfl, Work.componentCount_imaginary d hp, hsamples]
  refine ⟨h.run, h.stores, h.err, h.header, h.dim, rfl, h.smv, h.dbv, h.svv, h.dbm, h.sv, ?_, ?_,
    ⟨hin.k_lt, hin.t_lt, hin.r_lt⟩, ?_, ?_⟩
  · rw [hnum]
    have hreg : Work.Pending s d _ { w' with phase := .real v } := hpend.of_registers rfl rfl rfl rfl
    exact hreg.of_state rfl rfl rfl
  · rw [hnum]
    exact hfew
  · rintro u ⟨⟩
    exact hv
  · rw [hsamples]
    exact h.matrix

/-- A step at a real component that is not the last stores the sample and keeps the invariant (R151, R157). -/
theorem State.WalkInv.store_next {s : State} {d : Dim} {w w' w'' : Work} {v imh : Int} (h : s.WalkInv d w)
    (hc : component s w = .ok (v, w')) (hp : w.phase = .real imh) (ha : w'.advance d = some w'') :
    State.WalkInv d w'' { storeSample d w ⟨v, imh⟩ s with work := some w'' } := by
  obtain ⟨hpend, hfew, hv⟩ := component_pending h.pending h.few hc
  obtain ⟨hin, hcount⟩ := component_inShape hc h.inShape
  have hnext := Work.advance_eq_some hin ha
  have hnum : w''.componentCount d = w.componentCount d + 1 := by
    rw [Work.componentCount_imaginary d hnext.phase, Work.componentCount_real d hp, hnext.sampleCount, hcount]
    ring
  refine ⟨h.run, storeSample_storesOk d w ⟨v, imh⟩ h.stores, h.err, h.header, h.dim, rfl, h.smv, h.dbv, h.svv, h.dbm,
    h.sv, ?_, ?_, hnext.inShape, ?_, ?_⟩
  · rw [hnum]
    exact (hpend.of_registers hnext.acc hnext.bl hnext.lim hnext.cur).of_state rfl rfl rfl
  · rw [hnum, Work.FewPending, hnext.bl]
    exact hfew
  · intro u hu
    simp [hnext.phase] at hu
  · rw [hnext.sampleCount, hcount]
    exact h.matrix_storeSample hp hv

/-- A step at the last component completes with every sample of the shape held (R152). -/
theorem State.WalkInv.store_last {s : State} {d : Dim} {w w' : Work} {v imh : Int} (h : s.WalkInv d w)
    (hc : component s w = .ok (v, w')) (hp : w.phase = .real imh) (ha : w'.advance d = none) :
    (finishDecode (storeSample d w ⟨v, imh⟩ s)).IdleInv := by
  obtain ⟨-, -, hv⟩ := component_pending h.pending h.few hc
  obtain ⟨hin, hcount⟩ := component_inShape hc h.inShape
  have hlast : w.sampleCount d + 1 = d.samples := hcount ▸ Work.advance_eq_none hin ha
  have hm := h.matrix_storeSample hp hv
  rw [hlast] at hm
  refine ⟨rfl, storeSample_storesOk d w ⟨v, imh⟩ h.stores, rfl, h.header, State.matrixSettled_of_full rfl h.dim hm,
    ?_, ?_, rfl⟩
  · simp [State.decibelsOk, h.dbv, h.dbm]
  · simp [State.stabilityOk, h.svv, h.sv]

/-- Each step of the walk keeps the invariant, whether it fails, holds a component, stores a sample or completes. -/
theorem walkStep_inv {s : State} (hinv : s.Inv) (hrun : s.run = .busy) : (walkStep s).Inv := by
  obtain ⟨d, w, h⟩ := State.exists_walkInv hinv hrun
  rcases walkStep_cases h.dim h.work with
    ⟨_, info, hc, e⟩ | ⟨v, w', hc, hp, e⟩ | ⟨v, imh, w', w'', hc, hp, ha, e⟩ | ⟨v, imh, w', hc, hp, ha, e⟩ <;> rw [e]
  · exact (raise_sampleDecoder_idleInv info h.stores h.header (component_error hc)).inv
  · exact (h.hold_imaginary hc hp).inv
  · exact (h.store_next hc hp ha).inv
  · exact (h.store_last hc hp ha).inv

/-! ### The commands keep the invariant -/

/-- A command turned away before its start changes only `ERR` and `ERRINFO` (R239). -/
theorem State.IdleInv.rejected {s : State} (h : s.IdleInv) {e : BitVec 4} (info : Word16)
    (he : [0, 1, 2, 5, 6, 7, 8].contains e.toNat = true) :
    State.IdleInv { s with err := e, errInfo := info, run := .idle } :=
  ⟨rfl, h.stores, he, h.header, h.matrix, h.decibels, h.stability, h.work⟩

/-- A register that is set holds a value, and no other loses its own (R122). -/
theorem Header.get_set_isSome (h : Header) (v : Nat) (r q : HdrReg) :
    ((h.set v r).get q).isSome = (r == q || (h.get q).isSome) := by
  cases r <;> cases q <;> rfl

/-- The register of each row that is extracted holds a value. -/
theorem extractFields_get_isSome {s : State} {rows : List HdrRow} {h h' : Header}
    (he : extractFields s rows h = some h') (q : HdrReg) :
    (h'.get q).isSome = (rows.any (fun row => row.reg == q) || (h.get q).isSome) := by
  induction rows generalizing h with
  | nil =>
    cases he
    rfl
  | cons row rows ih =>
    cases hr : s.memRead (row.off.resolve s.cnt.toNat) row.width with
    | none => simp [extractFields, hr] at he
    | some v =>
      simp only [extractFields, hr] at he
      rw [ih he, Header.get_set_isSome, List.any_cons, Bool.or_left_comm, Bool.or_assoc]

/-- A parsed header holds a value in every register: the rows of the table, the timestamp, the source (R24, R122). -/
theorem parseHeader_full {src : Src} {s : State} {h : Header} (hp : parseHeader src s = some h) : h.full = true := by
  cases he : extractFields s hdrTable Header.empty with
  | none => simp [parseHeader, he] at hp
  | some h₀ =>
    cases ht : s.tsIn with
    | none => simp [parseHeader, he, ht] at hp
    | some stamp =>
      simp only [parseHeader, he, ht, Option.some.injEq] at hp
      subst hp
      have hset : { h₀ with capTs := some stamp, src := some (sourceBit src) } =
          (h₀.set stamp.toNat .capTs).set (sourceBit src).toNat .src := by simp [Header.set]
      refine List.all_eq_true.2 fun r _ => ?_
      rw [hset, Header.get_set_isSome, Header.get_set_isSome, extractFields_get_isSome he]
      cases r <;> rfl

theorem headerParse_idleInv (src : Src) {s : State} (h : s.IdleInv) : (headerParse src s).IdleInv := by
  rcases headerParse_cases src s with ⟨-, e⟩ | ⟨-, -, e⟩ | ⟨-, -, -, e⟩ | ⟨hdr, -, -, hp, e⟩ <;> rw [e]
  · exact h.rejected s.cnt rfl
  · exact ⟨rfl, h.stores, rfl, rfl, h.matrix, h.decibels, h.stability, h.work⟩
  · exact h.rejected 0 rfl
  · exact ⟨rfl, h.stores, rfl, parseHeader_full hp, h.matrix, h.decibels, h.stability, h.work⟩

theorem magnitudes_idleInv {s : State} (h : s.IdleInv) : (magnitudes s).IdleInv := by
  rcases magnitudes_cases s with ⟨-, e⟩ | ⟨d, hsmv, hd, -, e⟩ <;> rw [e]
  · exact h.rejected 0 rfl
  · obtain ⟨hfb, hsize, hsm, -, -⟩ := s.storesOk_iff.1 h.stores
    refine ⟨rfl, (State.storesOk_iff _).2 ⟨hfb, hsize, hsm, Memory.wf_mapShape d Sample.power hsm, rfl⟩, rfl, h.header,
      h.matrix, ?_, rfl, h.work⟩
    simp [State.decibelsOk, hsmv, hd]

/-- A stability vector lists each stream once (R190). -/
theorem stabilityVector_indices {thr : Nat} {d : Dim} {m : Memory Nat} {flags : Memory Bool}
    (h : stabilityVector thr d m = some flags) : flags.map Prod.fst = List.range d.streams := by
  obtain ⟨f, -, rfl⟩ := stabilityVector_eq_some h
  simp [Function.comp_def]

theorem stability_idleInv (thr : Nat) {s : State} (h : s.IdleInv) : (stability thr s).IdleInv := by
  rcases stability_cases thr s with ⟨-, e⟩ | ⟨_, -, -, -, e⟩ | ⟨d, flags, hdbv, hd, -, hf, e⟩ <;> rw [e]
  · exact h.rejected 0 rfl
  · exact h.rejected 0 rfl
  · obtain ⟨hfb, hsize, hsm, hdbm, -⟩ := s.storesOk_iff.1 h.stores
    refine ⟨rfl, (State.storesOk_iff _).2 ⟨hfb, hsize, hsm, hdbm, wf_stabilityVector hf⟩, rfl, h.header, h.matrix,
      h.decibels, ?_, h.work⟩
    simp [State.stabilityOk, hdbv, hd, stabilityVector_indices hf]

theorem startOffset_le (src : Src) : startOffset src ≤ 25 := by
  cases src <;> decide

/-- Where the walk begins, the first word is pending and no component is extracted (R144, R157). -/
theorem initial_pending {s : State} {src : Src} {d : Dim} {word : Nat} (hc : s.cnt.toNat ≤ s.cfg.fbSize)
    (hheld : s.wordsHeld (startOffset src) d = true) (hlo : startOffset src + 2 ≤ s.cnt.toNat)
    (hword : s.fetchWord (startOffset src) = some word) :
    Work.Pending s d 0
      { acc := BitVec.ofNat 32 word, bl := 16, cur := BitVec.ofNat 16 (startOffset src + 2), lim := s.cnt
        k := 0, t := 0, r := 0, phase := .imaginary } := by
  have hlt := State.fetchWord_lt hword
  have hsrc := startOffset_le src
  have hcur : (BitVec.ofNat 16 (startOffset src + 2)).toNat = startOffset src + 2 := by
    rw [BitVec.toNat_ofNat, Nat.mod_eq_of_lt (by omega)]
  have hbl : (16 : BitVec 5).toNat = 16 := rfl
  refine ⟨?_, rfl, hc, ?_, src, ?_, ?_, ?_, hheld⟩
  · rw [BitVec.toNat_ofNat, hbl]
    omega
  all_goals simp only [hcur, hbl]; omega

/-- A `DECODE` up to its walk keeps the invariant: turned away, failed, with nothing to extract, at its first word. -/
theorem beginDecode_inv (src : Src) (d : Dim) {s : State} (h : s.IdleInv) : (beginDecode src d s).Inv := by
  obtain ⟨hfb, hsize, -, -, -⟩ := s.storesOk_iff.1 h.stores
  have hstores : State.storesOk { s.dropMatrix with dim := some d } = true :=
    (State.storesOk_iff _).2 ⟨hfb, hsize, rfl, rfl, rfl⟩
  rcases beginDecode_cases src d s with
    ⟨-, e⟩ | ⟨-, -, e⟩ | ⟨-, -, e⟩ | ⟨-, -, -, hzero, e⟩ | ⟨word, hc, hheld, hlo, hs, hword, e⟩ <;> rw [e]
  · exact (h.rejected s.cnt rfl).inv
  · exact (h.rejected 0 rfl).inv
  · exact (raise_sampleDecoder_idleInv _ h.stores h.header (.inl rfl)).inv
  · have hm : matrixUpTo s.cfg.bits d d.samples [] = true := by rw [hzero, matrixUpTo_zero_nil]
    exact State.IdleInv.inv
      ⟨rfl, hstores, rfl, h.header, State.matrixSettled_of_full rfl rfl hm, rfl, rfl, rfl⟩
  · obtain ⟨hnr, hnc, hnt⟩ := Dim.pos_of_samples_ne_zero hs
    refine State.WalkInv.inv (d := d) ⟨rfl, hstores, h.err, h.header, rfl, rfl, rfl, rfl, rfl, rfl, rfl, ?_, ?_,
      ⟨hnt, hnc, hnr⟩, ?_, ?_⟩
    · rw [Work.componentCount_imaginary d rfl, Work.sampleCount_origin d rfl rfl rfl]
      exact (initial_pending hc hheld hlo hword).of_state rfl rfl rfl
    · rw [Work.componentCount_imaginary d rfl, Work.sampleCount_origin d rfl rfl rfl]
      exact .inr ⟨rfl, rfl⟩
    · rintro u ⟨⟩
    · rw [Work.sampleCount_origin d rfl rfl rfl]
      exact matrixUpTo_zero_nil _ d

theorem sampleDecode_inv (src : Src) (d : Dim) {s : State} (h : s.IdleInv) : (sampleDecode src d s).Inv :=
  runWalk_induction (P := State.Inv) (fun _ hrun hinv => walkStep_inv hinv hrun) d.components (beginDecode_inv src d h)

theorem exec_inv {i : Instr} {s t : State} (h : s.IdleInv) (he : exec i s = .next t) : t.Inv := by
  cases i <;> cases he
  case hparseL => exact (headerParse_idleInv .live h).inv
  case hparseR => exact (headerParse_idleInv .replay h).inv
  case decodeL nr nc nt => exact sampleDecode_inv .live ⟨nr, nc, nt⟩ h
  case decodeR nr nc nt => exact sampleDecode_inv .replay ⟨nr, nc, nt⟩ h
  case magdb => exact (magnitudes_idleInv h).inv
  case stab thr => exact (stability_idleInv thr.toNat h).inv

/-- The command port keeps the invariant, with an illegal word too (R235). -/
theorem issue_inv {w : Word32} {s t : State} (h : s.IdleInv) (hi : issue w s = .next t) : t.Inv := by
  rcases issue_cases w s with ⟨i, -, e⟩ | ⟨_, -, e⟩ <;> rw [e] at hi
  · exact exec_inv h hi
  · cases hi
    exact (h.rejected 0 rfl).inv

/-! ### Every step keeps the invariant -/

/-- Reset gives a state with the invariant, under any parameters (R40, R260). -/
theorem applyReset_inv (s : State) : s.applyReset.Inv :=
  State.IdleInv.inv ⟨rfl, rfl, rfl, rfl, rfl, rfl, rfl, rfl⟩

/-- Settles O17. -/
theorem resetHasTheInvariant : Obligations.ResetHasTheInvariant := applyReset_inv State.reset

theorem RunState.idle_or_busy (r : RunState) : r = .idle ∨ r = .busy := by
  cases r
  · exact .inl rfl
  · exact .inr rfl

/-- The invariant does not speak of what the host does next. -/
theorem State.Inv.setInputs {s : State} (h : s.Inv) (rest : List HostInput) : State.Inv { s with inputs := rest } := by
  rcases RunState.idle_or_busy s.run with hr | hr
  · have hi := (State.inv_iff_of_idle hr).1 h
    exact State.IdleInv.inv ⟨hr, hi.stores, hi.err, hi.header, hi.matrix, hi.decibels, hi.stability, hi.work⟩
  · obtain ⟨d, w, hw⟩ := State.exists_walkInv h hr
    exact State.WalkInv.inv ⟨hr, hw.stores, hw.err, hw.header, hw.dim, hw.work, hw.smv, hw.dbv, hw.svv, hw.dbm, hw.sv,
      hw.pending.of_state rfl rfl rfl, hw.few, hw.inShape, hw.held, hw.matrix⟩

/-- Nor, in `IDLE`, of `CNT` and `TS_IN`. -/
theorem State.IdleInv.setCountAndStamp {s : State} (h : s.IdleInv) (v : Word16) (stamp : Option Stamp) :
    State.IdleInv { s with cnt := v, tsIn := stamp } :=
  ⟨h.run, h.stores, h.err, h.header, h.matrix, h.decibels, h.stability, h.work⟩

/-- A byte written inside the buffer keeps the stores in form (R61). -/
theorem State.IdleInv.write_fb {s : State} (h : s.IdleInv) {a : Nat} (b : Byte) (ha : a < s.cfg.fbSize) :
    State.IdleInv { s with fb := s.fb.write a b } := by
  obtain ⟨hfb, hsize, hsm, hdbm, hsv⟩ := s.storesOk_iff.1 h.stores
  have hsize' : ∀ e ∈ s.fb.write a b, e.1 < s.cfg.fbSize := by
    intro e he
    rcases Memory.mem_write s.fb a b he with rfl | he
    · exact ha
    · exact hsize e he
  exact ⟨h.run, (State.storesOk_iff _).2 ⟨Memory.wf_write a b hfb, hsize', hsm, hdbm, hsv⟩, h.err, h.header, h.matrix,
    h.decibels, h.stability, h.work⟩

/-- What the host does at a port keeps the invariant. -/
theorem accept_inv {x : HostInput} {s t : State} (h : s.Inv) (ha : accept x s = .next t) : t.Inv := by
  have hidle : s.run = .idle → s.IdleInv := fun hr => (State.inv_iff_of_idle hr).1 h
  obtain ⟨a, b, -, hr, hlt, rfl⟩ | ⟨v, -, hr, rfl⟩ | ⟨v, -, hr, rfl⟩ | ⟨w, -, hr, hw⟩ | ⟨_, _, -, -, rfl⟩ | ⟨-, rfl⟩ :=
    accept_next ha
  · exact ((hidle hr).write_fb b hlt).inv
  · exact ((hidle hr).setCountAndStamp v s.tsIn).inv
  · exact ((hidle hr).setCountAndStamp s.cnt (some v)).inv
  · exact issue_inv (hidle hr) hw
  · exact h
  · exact applyReset_inv s

/-- Settles O16: an undisturbed block is idle or moves its walk; else the host acts at a port. -/
theorem everyStepKeepsTheInvariant : Obligations.EveryStepKeepsTheInvariant := by
  intro s t h hs
  cases hi : s.inputs with
  | nil =>
    rw [step_nil hi] at hs
    obtain ⟨-, rfl⟩ | ⟨hr, -, rfl⟩ := undisturbed_next hs
    · exact h
    · exact walkStep_inv h hr
  | cons x rest =>
    rw [step_cons hi] at hs
    exact accept_inv (h.setInputs rest) hs

/-! ### A dutiful host is never stopped -/

/-- Every word at the command port has a next state (R21, R235). -/
theorem issue_answers (w : Word32) (s : State) : ∃ t, issue w s = .next t := by
  rcases issue_cases w s with ⟨i, -, e⟩ | ⟨_, -, e⟩
  · obtain ⟨t, ht, -⟩ := everyCommandEndsIdle i s
    exact ⟨t, e.trans ht⟩
  · exact ⟨_, e⟩

/-- With nothing at its ports a block with the invariant goes on: in `BUSY` it is in a walk (R41). -/
theorem undisturbed_answers {s : State} (h : s.Inv) : ∃ t, undisturbed s = .next t := by
  cases hr : s.run with
  | idle => exact ⟨s, by simp only [undisturbed, hr]⟩
  | busy =>
    obtain ⟨d, w, hw⟩ := State.exists_walkInv h hr
    exact ⟨walkStep s, by simp only [undisturbed, hr, hw.dim, hw.work]⟩

/-- Settles O18, by what the host's duties say of its next action. -/
theorem dutifulHostIsNeverStopped : Obligations.DutifulHostIsNeverStopped := by
  intro s h hd
  cases hi : s.inputs with
  | nil =>
    rw [step_nil hi]
    exact undisturbed_answers h
  | cons x rest =>
    simp only [State.hostDutiful, hi] at hd
    cases x with
    | fbWrite a b =>
      simp only [Bool.and_eq_true, beq_iff_eq, decide_eq_true_eq] at hd
      exact ⟨_, step_fbWrite hd.1 hi hd.2⟩
    | cntWrite v => exact ⟨_, step_of_accept_whenIdle (beq_iff_eq.1 hd) hi rfl⟩
    | tsWrite v => exact ⟨_, step_of_accept_whenIdle (beq_iff_eq.1 hd) hi rfl⟩
    | command w =>
      rw [step_of_accept_whenIdle (beq_iff_eq.1 hd) hi rfl]
      exact issue_answers w _
    | read port => exact ⟨_, (readsHaveNoSideEffects s port rest hi).1 (Option.isSome_iff_exists.1 hd)⟩
    | reset =>
      obtain ⟨t, ht, -⟩ := resetGivesTheResetValuesAtAnyTime s rest hi
      exact ⟨t, ht⟩

end Sys2Proof.Machine
end

section
/-! SUPPORT. Family `20_memory`: only the host writes `FB`, `CNT` and `TS_IN` (O20); no command reads a byte at or above
`CNT` (O21). -/

namespace Sys2Proof.Machine

/-! ### Only the host writes its inputs (R62) -/

/-- Settles O20: a command, and a step with nothing at the ports, keep the host's side. -/
theorem noCommandWritesTheHostInputs : Obligations.NoCommandWritesTheHostInputs := by
  constructor
  · intro i s t h
    obtain ⟨hcfg, hfb, hcnt, htsIn, hinputs⟩ := exec_keepsHostSide h
    exact ⟨hfb, hcnt, htsIn, hcfg, hinputs⟩
  · intro s t hi h
    rw [step_nil hi] at h
    obtain ⟨-, hfb, hcnt, htsIn, -⟩ := undisturbed_keepsHostSide h
    exact ⟨hfb, hcnt, htsIn⟩

/-! ### The same block with another frame buffer -/

/-- The state with another `FB`, all else as it is. -/
def State.withBuffer (s : State) (m : Memory Byte) : State := { s with fb := m }

@[simp] theorem State.withBuffer_cfg (s : State) (m : Memory Byte) : (s.withBuffer m).cfg = s.cfg := rfl
@[simp] theorem State.withBuffer_cnt (s : State) (m : Memory Byte) : (s.withBuffer m).cnt = s.cnt := rfl
@[simp] theorem State.withBuffer_tsIn (s : State) (m : Memory Byte) : (s.withBuffer m).tsIn = s.tsIn := rfl
@[simp] theorem State.withBuffer_smv (s : State) (m : Memory Byte) : (s.withBuffer m).smv = s.smv := rfl
@[simp] theorem State.withBuffer_dbv (s : State) (m : Memory Byte) : (s.withBuffer m).dbv = s.dbv := rfl
@[simp] theorem State.withBuffer_dim (s : State) (m : Memory Byte) : (s.withBuffer m).dim = s.dim := rfl
@[simp] theorem State.withBuffer_work (s : State) (m : Memory Byte) : (s.withBuffer m).work = s.work := rfl
@[simp] theorem State.withBuffer_sm (s : State) (m : Memory Byte) : (s.withBuffer m).sm = s.sm := rfl
@[simp] theorem State.withBuffer_dbm (s : State) (m : Memory Byte) : (s.withBuffer m).dbm = s.dbm := rfl

/-- The other buffer has the bytes of the valid region (R61, R64). -/
def State.AgreesBelowCount (s : State) (m : Memory Byte) : Prop :=
  ∀ a, a < s.cnt.toNat → m.read a = s.fb.read a

theorem State.AgreesBelowCount.of_keepsHostSide {s t : State} {m : Memory Byte} (h : s.AgreesBelowCount m)
    (hkeep : s.KeepsHostSide t) : t.AgreesBelowCount m := by
  intro a ha
  rw [hkeep.fb]
  exact h a (hkeep.cnt ▸ ha)

/-- A read that ends at or below `CNT` gives the same from both buffers. -/
theorem State.memRead_withBuffer {s : State} {m : Memory Byte} (h : s.AgreesBelowCount m) {a n : Nat}
    (hn : a + n ≤ s.cnt.toNat) : (s.withBuffer m).memRead a n = s.memRead a n :=
  State.memRead_congr a a n fun j hj => h (a + j) (by omega)

theorem State.fetchWord_withBuffer {s : State} {m : Memory Byte} (h : s.AgreesBelowCount m) {a : Nat}
    (ha : a + 2 ≤ s.cnt.toNat) : (s.withBuffer m).fetchWord a = s.fetchWord a :=
  State.memRead_withBuffer h ha

/-! ### `HPARSE` -/

/-- From 25 bytes on, each row of the header layout lies below `CNT` (R95, R121). -/
theorem hdrTable_end_le {cnt : Nat} (hc : 25 ≤ cnt) :
    ∀ row ∈ hdrTable, row.off.resolve cnt + row.width ≤ cnt := by
  simp only [hdrTable, FieldOffset.resolve, Config.stLen, Config.plLen, Config.blLen, List.forall_mem_cons,
    List.not_mem_nil, false_imp_iff, implies_true, and_true]
  omega

theorem extractFields_withBuffer {s : State} {m : Memory Byte} (h : s.AgreesBelowCount m) {rows : List HdrRow}
    (hrows : ∀ row ∈ rows, row.off.resolve s.cnt.toNat + row.width ≤ s.cnt.toNat) (hdr : Header) :
    extractFields (s.withBuffer m) rows hdr = extractFields s rows hdr := by
  induction rows generalizing hdr with
  | nil => rfl
  | cons row rows ih =>
    obtain ⟨hrow, hrest⟩ := List.forall_mem_cons.1 hrows
    simp only [extractFields, State.withBuffer_cnt, State.memRead_withBuffer h hrow, ih hrest]

theorem parseHeader_withBuffer {s : State} {m : Memory Byte} (h : s.AgreesBelowCount m) (hc : 25 ≤ s.cnt.toNat)
    (src : Src) : parseHeader src (s.withBuffer m) = parseHeader src s := by
  have hfields := extractFields_withBuffer h (hdrTable_end_le hc) Header.empty
  simp only [parseHeader, hfields, State.withBuffer_tsIn]

/-- `HPARSE` parses no header from fewer than 25 bytes, and reads none at or above `CNT` from more. -/
theorem headerParse_withBuffer {s : State} {m : Memory Byte} (h : s.AgreesBelowCount m) (src : Src) :
    headerParse src (s.withBuffer m) = (headerParse src s).withBuffer m := by
  simp only [headerParse, State.withBuffer_cfg, State.withBuffer_cnt]
  by_cases hbad : s.cfg.fbSize < s.cnt.toNat
  · simp only [hbad, if_true]
    rfl
  by_cases hshort : s.cnt.toNat < Config.hdrMin
  · simp only [hbad, hshort, if_false, if_true]
    rfl
  simp only [hbad, hshort, if_false, parseHeader_withBuffer h (Nat.le_of_not_lt hshort)]
  cases parseHeader src s <;> rfl

/-! ### `DECODE` up to its walk -/

/-- The words a `DECODE` fetches lie below `CNT` (R153). -/
theorem State.wordsHeld_withBuffer {s : State} {m : Memory Byte} (h : s.AgreesBelowCount m) (start : Nat) (d : Dim) :
    (s.withBuffer m).wordsHeld start d = s.wordsHeld start d := by
  refine congrArg Option.isSome (State.memRead_congr start start _ fun j hj => h (start + j) ?_)
  have hwords : s.wordsToFetch start d ≤ (s.cnt.toNat - start) / 2 := min_le_right _ _
  have hj' : j < 2 * s.wordsToFetch start d := hj
  omega

/-- `INIT` fetches its word only when it lies below `CNT` (R144). -/
theorem initDecode_withBuffer {s : State} {m : Memory Byte} (h : s.AgreesBelowCount m) (start : Nat) (d : Dim) :
    initDecode start d (s.withBuffer m) = (initDecode start d s).withBuffer m := by
  simp only [initDecode, State.withBuffer_cnt]
  by_cases hc : s.cnt.toNat < start + 2
  · simp only [hc, if_true]
    rfl
  simp only [hc, if_false, State.fetchWord_withBuffer h (Nat.le_of_not_lt hc)]
  cases s.fetchWord start with
  | none => rfl
  | some word =>
    by_cases hz : d.samples = 0
    · simp only [hz, if_true]
      rfl
    · simp only [hz, if_false]
      rfl

theorem beginDecode_withBuffer {s : State} {m : Memory Byte} (h : s.AgreesBelowCount m) (src : Src) (d : Dim) :
    beginDecode src d (s.withBuffer m) = (beginDecode src d s).withBuffer m := by
  simp only [beginDecode, State.withBuffer_cfg, State.withBuffer_cnt, State.wordsHeld_withBuffer h]
  split
  · rfl
  · split
    · exact initDecode_withBuffer (s := { s.dropMatrix.start with dim := some d }) h (startOffset src) d
    · rfl

/-! ### The walk -/

/-- `REFILL` reads below `LIM` (R146). -/
theorem refill_withBuffer {s : State} {m : Memory Byte} (h : s.AgreesBelowCount m) {w : Work} (hlim : w.lim = s.cnt) :
    refill (s.withBuffer m) w = refill s w := by
  simp only [refill, State.withBuffer_cfg]
  by_cases hc : w.lim.toNat < w.cur.toNat + 2
  · simp only [hc, if_true]
  · simp only [State.fetchWord_withBuffer h (hlim ▸ Nat.le_of_not_lt hc)]

theorem component_withBuffer {s : State} {m : Memory Byte} (h : s.AgreesBelowCount m) {w : Work}
    (hlim : w.lim = s.cnt) : component (s.withBuffer m) w = component s w := by
  simp only [component, refill_withBuffer h hlim, State.withBuffer_cfg]

/-- `COMPONENT()` leaves `LIM` as it is (R32). -/
theorem component_lim {s : State} {w w' : Work} {v : Int} (h : component s w = .ok (v, w')) : w'.lim = w.lim := by
  rcases component_cases s w with ⟨_, -, e⟩ | ⟨u, hu, e⟩ <;> rw [e] at h <;> cases h
  exact (refill_frame hu).1

/-- So does moving on to the next sample. -/
theorem Work.advance_lim {d : Dim} {w w' : Work} (h : w.advance d = some w') : w'.lim = w.lim := by
  rcases w.advance_cases d with ⟨-, e⟩ | ⟨-, -, e⟩ | ⟨-, -, -, e⟩ | ⟨-, -, -, e⟩ <;> rw [e] at h <;> cases h <;> rfl

/-- The walk in progress is bounded by `CNT` (R32). While idle a state may hold any working set: no step uses it. -/
def State.WalkLimIsCount (s : State) : Prop := s.run = .busy → ∀ w, s.work = some w → w.lim = s.cnt

theorem beginDecode_walkLimIsCount (src : Src) (d : Dim) (s : State) : (beginDecode src d s).WalkLimIsCount := by
  intro hr w hw
  rcases beginDecode_cases src d s with
    ⟨-, e⟩ | ⟨-, -, e⟩ | ⟨-, -, e⟩ | ⟨-, -, -, -, e⟩ | ⟨_, -, -, -, -, -, e⟩ <;> rw [e] at hr hw ⊢ <;> cases hr
  cases hw
  rfl

theorem walkStep_walkLimIsCount {s : State} (h : s.WalkLimIsCount) : (walkStep s).WalkLimIsCount := by
  by_cases hin : ∃ d w, s.dim = some d ∧ s.work = some w
  · obtain ⟨d, w, hd, hw⟩ := hin
    intro hr u hu
    rcases walkStep_cases hd hw with
      ⟨_, _, -, e⟩ | ⟨_, w', hc, -, e⟩ | ⟨_, _, w', w'', hc, -, ha, e⟩ | ⟨_, _, _, -, -, -, e⟩ <;> rw [e] at hr hu ⊢
    · cases hr
    · cases hu
      exact (component_lim hc).trans (h hr w hw)
    · cases hu
      exact ((Work.advance_lim ha).trans (component_lim hc)).trans (h hr w hw)
    · cases hr
  · rwa [walkStep_eq_self hin]

/-- A step of the walk takes its component from the same bits, and does the same with it. -/
theorem walkStep_withBuffer {s : State} {m : Memory Byte} (h : s.AgreesBelowCount m)
    (hlim : ∀ w, s.work = some w → w.lim = s.cnt) : walkStep (s.withBuffer m) = (walkStep s).withBuffer m := by
  by_cases hin : ∃ d w, s.dim = some d ∧ s.work = some w
  · obtain ⟨d, w, hd, hw⟩ := hin
    simp only [walkStep, State.withBuffer_dim, State.withBuffer_work, hd, hw, component_withBuffer h (hlim w hw)]
    cases component s w with
    | error e => rfl
    | ok p =>
      cases w.phase with
      | imaginary => rfl
      | real imh => cases ha : p.2.advance d <;> simp only [ha] <;> rfl
  · rw [walkStep_eq_self hin]
    exact walkStep_eq_self hin

theorem runWalk_withBuffer {s : State} {m : Memory Byte} (h : s.AgreesBelowCount m) (hlim : s.WalkLimIsCount)
    (n : Nat) : runWalk n (s.withBuffer m) = (runWalk n s).withBuffer m := by
  induction n generalizing s with
  | zero => rfl
  | succ n ih =>
    cases hr : s.run with
    | idle => rw [runWalk_idle _ hr, runWalk_idle (s := s.withBuffer m) _ hr]
    | busy =>
      rw [runWalk_busy n hr, runWalk_busy (s := s.withBuffer m) n hr, walkStep_withBuffer h (hlim hr)]
      exact ih (h.of_keepsHostSide (walkStep_keepsHostSide s)) (walkStep_walkLimIsCount hlim)

theorem sampleDecode_withBuffer {s : State} {m : Memory Byte} (h : s.AgreesBelowCount m) (src : Src) (d : Dim) :
    sampleDecode src d (s.withBuffer m) = (sampleDecode src d s).withBuffer m := by
  rw [sampleDecode, beginDecode_withBuffer h]
  exact runWalk_withBuffer (h.of_keepsHostSide (beginDecode_keepsHostSide src d s)) (beginDecode_walkLimIsCount src d s)
    d.components

/-! ### `MAGDB` and `STAB` -/

/-- `MAGDB` takes nothing from `FB` (R180). -/
theorem magnitudes_withBuffer (s : State) (m : Memory Byte) :
    magnitudes (s.withBuffer m) = (magnitudes s).withBuffer m := by
  simp only [magnitudes, State.withBuffer_smv, State.withBuffer_dim, State.withBuffer_sm]
  split
  · next d _ _ =>
    by_cases hcov : s.sm.covers d d.samples
    · simp only [hcov, if_true]
      rfl
    · simp only [hcov]
      rfl
  · rfl

/-- Nor does `STAB` (R186). -/
theorem stability_withBuffer (thr : Nat) (s : State) (m : Memory Byte) :
    stability thr (s.withBuffer m) = (stability thr s).withBuffer m := by
  simp only [stability, State.withBuffer_dbv, State.withBuffer_dim, State.withBuffer_dbm]
  split
  · split
    · rfl
    · split <;> rfl
  · rfl

/-! ### Every command -/

/-- Settles O21, command by command: each commutes with changing `FB` at and above `CNT`. -/
theorem noCommandReadsAtOrAboveTheCount : Obligations.NoCommandReadsAtOrAboveTheCount := by
  intro i s m h
  cases i with
  | hparseL => exact ⟨_, rfl, congrArg Host.Outcome.next (headerParse_withBuffer h .live)⟩
  | hparseR => exact ⟨_, rfl, congrArg Host.Outcome.next (headerParse_withBuffer h .replay)⟩
  | decodeL nr nc nt => exact ⟨_, rfl, congrArg Host.Outcome.next (sampleDecode_withBuffer h .live ⟨nr, nc, nt⟩)⟩
  | decodeR nr nc nt => exact ⟨_, rfl, congrArg Host.Outcome.next (sampleDecode_withBuffer h .replay ⟨nr, nc, nt⟩)⟩
  | magdb => exact ⟨_, rfl, congrArg Host.Outcome.next (magnitudes_withBuffer s m)⟩
  | stab thr => exact ⟨_, rfl, congrArg Host.Outcome.next (stability_withBuffer thr.toNat s m)⟩

end Sys2Proof.Machine
end

section
/-! SUPPORT. Family `30_encoding`: the decoder and the encoder are inverse to each other (O1, O2, O4); the illegal words
are those of R94 (O3); a log record is cut at its length field (O58). -/

namespace Sys2Proof

/-! ### The fields of a word (R91) -/

theorem CmdWord.ofWord_op_toNat (w : Word32) : (CmdWord.ofWord w).op.toNat = w.toNat / 2 ^ 28 := by
  have hw := w.isLt
  simp only [CmdWord.ofWord, BitVec.extractLsb'_toNat, Nat.shiftRight_eq_div_pow]
  omega

theorem CmdWord.ofWord_src_toNat (w : Word32) : (CmdWord.ofWord w).src.toNat = w.toNat / 2 ^ 27 % 2 := by
  simp [CmdWord.ofWord, Nat.shiftRight_eq_div_pow]

theorem CmdWord.ofWord_z_toNat (w : Word32) : (CmdWord.ofWord w).z.toNat = w.toNat / 2 ^ 24 % 8 := by
  simp [CmdWord.ofWord, Nat.shiftRight_eq_div_pow]

theorem CmdWord.ofWord_a_toNat (w : Word32) : (CmdWord.ofWord w).a.toNat = w.toNat / 2 ^ 16 % 256 := by
  simp [CmdWord.ofWord, Nat.shiftRight_eq_div_pow]

theorem CmdWord.ofWord_b_toNat (w : Word32) : (CmdWord.ofWord w).b.toNat = w.toNat / 2 ^ 8 % 256 := by
  simp [CmdWord.ofWord, Nat.shiftRight_eq_div_pow]

theorem CmdWord.ofWord_c_toNat (w : Word32) : (CmdWord.ofWord w).c.toNat = w.toNat % 256 := by
  simp [CmdWord.ofWord]

/-- The six fields cover the word: no two words have the same fields. -/
theorem CmdWord.ofWord_injective : Function.Injective CmdWord.ofWord := by
  intro w v h
  have hop := congrArg (·.op.toNat) h
  have hsrc := congrArg (·.src.toNat) h
  have hz := congrArg (·.z.toNat) h
  have ha := congrArg (·.a.toNat) h
  have hb := congrArg (·.b.toNat) h
  have hc := congrArg (·.c.toNat) h
  simp only [CmdWord.ofWord_op_toNat, CmdWord.ofWord_src_toNat, CmdWord.ofWord_z_toNat, CmdWord.ofWord_a_toNat,
    CmdWord.ofWord_b_toNat, CmdWord.ofWord_c_toNat] at hop hsrc hz ha hb hc
  apply BitVec.eq_of_toNat_eq
  omega

/-- The word of a command holds the fields the command is written with (R91, R92). -/
theorem ofWord_encode (i : Instr) : CmdWord.ofWord (encode i) = i.fields := by
  cases i with
  | hparseL => exact CmdWord.ofWord_append 0x10#8 0 0 0
  | hparseR => exact CmdWord.ofWord_append 0x18#8 0 0 0
  | decodeL nr nc nt => exact CmdWord.ofWord_append 0x20#8 nr nc nt
  | decodeR nr nc nt => exact CmdWord.ofWord_append 0x28#8 nr nc nt
  | magdb => exact CmdWord.ofWord_append 0x30#8 0 0 0
  | stab thr => exact CmdWord.ofWord_append 0x40#8 thr 0 0

/-! ### The words of the opcode map (R92, R94) -/

/-- The conditions of R94, on the numbers in the fields. -/
theorem CmdWord.legal_iff (f : CmdWord) :
    f.legal = true ↔
      ¬ (f.op.toNat = 0 ∨ 5 ≤ f.op.toNat ∨ f.z.toNat ≠ 0 ∨
        ((f.op.toNat = 1 ∨ f.op.toNat = 3) ∧ (f.a.toNat ≠ 0 ∨ f.b.toNat ≠ 0 ∨ f.c.toNat ≠ 0)) ∨
        (f.op.toNat = 4 ∧ (f.b.toNat ≠ 0 ∨ f.c.toNat ≠ 0)) ∨
        ((f.op.toNat = 3 ∨ f.op.toNat = 4) ∧ f.src.toNat = 1)) := by
  have hsrc := f.src.isLt
  simp only [CmdWord.legal, CmdWord.opDefined, CmdWord.zClear, CmdWord.operandsAllowed, CmdWord.srcAllowed,
    Bool.and_eq_true, Bool.or_eq_true, Bool.not_eq_true', Bool.or_eq_false_iff, beq_iff_eq, beq_eq_false_iff_ne,
    decide_eq_true_eq, BitVec.toNat_eq, ne_eq, BitVec.ofNat_eq_ofNat, BitVec.toNat_ofNat]
  omega

/-- Legal fields are those of a command: the opcode map has a row for each (R92). -/
theorem CmdWord.exists_fields_of_legal {f : CmdWord} (h : f.legal = true) : ∃ i : Instr, f = i.fields := by
  obtain ⟨op, src, z, a, b, c⟩ := f
  simp only [CmdWord.legal, CmdWord.opDefined, CmdWord.zClear, Bool.and_eq_true, decide_eq_true_eq, beq_iff_eq] at h
  obtain ⟨⟨⟨⟨hlo, hhi⟩, rfl⟩, hoperands⟩, hsrc⟩ := h
  have hop : op = 1 ∨ op = 2 ∨ op = 3 ∨ op = 4 := by bv_omega
  obtain rfl | rfl | rfl | rfl := hop
  · obtain ⟨⟨rfl, rfl⟩, rfl⟩ : (a = 0 ∧ b = 0) ∧ c = 0 := by simpa [CmdWord.operandsAllowed] using hoperands
    obtain rfl | rfl := src.eq_zero_or_eq_one
    · exact ⟨.hparseL, rfl⟩
    · exact ⟨.hparseR, rfl⟩
  · obtain rfl | rfl := src.eq_zero_or_eq_one
    · exact ⟨.decodeL a b c, rfl⟩
    · exact ⟨.decodeR a b c, rfl⟩
  · obtain ⟨⟨rfl, rfl⟩, rfl⟩ : (a = 0 ∧ b = 0) ∧ c = 0 := by simpa [CmdWord.operandsAllowed] using hoperands
    obtain rfl : src = 0 := by simpa [CmdWord.srcAllowed] using hsrc
    exact ⟨.magdb, rfl⟩
  · obtain ⟨rfl, rfl⟩ : b = 0 ∧ c = 0 := by simpa [CmdWord.operandsAllowed] using hoperands
    obtain rfl : src = 0 := by simpa [CmdWord.srcAllowed] using hsrc
    exact ⟨.stab a, rfl⟩

/-! ### What the decoder accepts -/

/-- A word that holds the fields of a command stands for it. -/
theorem decode_of_fields {w : Word32} {i : Instr} (h : CmdWord.ofWord w = i.fields) : decode w = .ok i := by
  cases i <;> simp [decode, h, Instr.fields]

/-- A word the decoder accepts is legal: past the checks of each row none of R94's conditions is left. -/
theorem legal_of_decode {w : Word32} {i : Instr} (h : decode w = .ok i) : (CmdWord.ofWord w).legal = true := by
  simp only [decode] at h
  generalize CmdWord.ofWord w = f at h ⊢
  split_ifs at h <;> cases h <;>
    simp_all [CmdWord.legal, CmdWord.opDefined, CmdWord.zClear, CmdWord.operandsAllowed, CmdWord.srcAllowed]

/-- A word the decoder accepts holds the fields of the command it gives. -/
theorem fields_of_decode {w : Word32} {i : Instr} (h : decode w = .ok i) : CmdWord.ofWord w = i.fields := by
  obtain ⟨j, hj⟩ := CmdWord.exists_fields_of_legal (legal_of_decode h)
  rw [decode_of_fields hj] at h
  cases h
  exact hj

/-- The decoder accepts the legal words. -/
theorem exists_decode_iff_legal (w : Word32) : (∃ i, decode w = .ok i) ↔ (CmdWord.ofWord w).legal = true := by
  refine ⟨fun ⟨_, h⟩ => legal_of_decode h, fun h => ?_⟩
  obtain ⟨i, hi⟩ := CmdWord.exists_fields_of_legal h
  exact ⟨i, decode_of_fields hi⟩

/-- Settles O1: the encoder writes the fields of the command, and the decoder goes by them. -/
theorem decodeOfEncodeIsTheCommand : Obligations.DecodeOfEncodeIsTheCommand :=
  fun i _ => decode_of_fields (ofWord_encode i)

/-- Settles O2: the two words have the fields of the same command. -/
theorem encodeOfDecodeIsTheWord : Obligations.EncodeOfDecodeIsTheWord :=
  fun _ i h => CmdWord.ofWord_injective ((ofWord_encode i).trans (fields_of_decode h).symm)

/-- Settles O4: each word is a literal, which the decoder evaluates. -/
theorem writtenWordsDecodeToTheirCommands : Obligations.WrittenWordsDecodeToTheirCommands :=
  ⟨rfl, rfl, rfl, rfl, rfl, rfl, rfl, rfl⟩

end Sys2Proof

namespace Sys2Proof.Machine

/-- An illegal word at the command port (R94, R235). -/
theorem issue_of_not_legal {w : Word32} (s : State) (h : ¬ (CmdWord.ofWord w).legal = true) :
    issue w s = .next { s with err := 5, errInfo := 0, run := .idle } := by
  obtain ⟨i, hi, -⟩ | ⟨_, -, he⟩ := issue_cases w s
  · exact absurd ((exists_decode_iff_legal w).1 ⟨i, hi⟩) h
  · exact he

/-- A legal word at the command port. -/
theorem issue_of_legal {w : Word32} (s : State) (h : (CmdWord.ofWord w).legal = true) :
    ∃ i, decode w = .ok i ∧ issue w s = exec i s := by
  obtain ⟨i, hi⟩ := (exists_decode_iff_legal w).2 h
  exact ⟨i, hi, by rw [issue, hi]⟩

/-- Settles O3: the conditions on the number of the word are those on its fields. -/
theorem illegalWordsAreThoseOfTheRule : Obligations.IllegalWordsAreThoseOfTheRule := by
  intro w s
  have hlegal := (CmdWord.ofWord w).legal_iff
  simp only [CmdWord.ofWord_op_toNat, CmdWord.ofWord_src_toNat, CmdWord.ofWord_z_toNat, CmdWord.ofWord_a_toNat,
    CmdWord.ofWord_b_toNat, CmdWord.ofWord_c_toNat] at hlegal
  intro n op src z a b c
  split_ifs with hill
  · exact issue_of_not_legal s fun h => hlegal.1 h hill
  · exact issue_of_legal s (hlegal.2 hill)

/-! ### Log records (R104, R213) -/

/-- The two bytes of a length below 2^16, the low one first. -/
theorem littleEndian_two_bytes {n : Nat} (h : n < 2 ^ 16) :
    littleEndian [BitVec.ofNat 8 n, BitVec.ofNat 8 (n / 256)] = n := by
  simp only [littleEndian, BitVec.toNat_ofNat]
  omega

/-- A log too short for the length it announces holds no record. -/
theorem readRecord_eq_none {log : List Byte} (h : log.length < 28 + littleEndian (log.take 2)) :
    readRecord log = none := by
  simp only [readRecord, Config.tsLen]
  exact if_neg (by omega)

/-- A log that starts with a length, a stamp and as many raw bytes as the length says. -/
theorem readRecord_append {len stamp raw rest : List Byte} (hlen : len.length = 2) (hstamp : stamp.length = 26)
    (hraw : littleEndian len = raw.length) : readRecord (len ++ stamp ++ raw ++ rest) = some (⟨stamp, raw⟩, rest) := by
  have hlength : 28 + raw.length ≤ (len ++ stamp ++ raw ++ rest).length := by
    simp only [List.length_append]
    omega
  have hfield : (len ++ stamp ++ raw ++ rest).take 2 = len := by simp [List.append_assoc, ← hlen]
  have hstampPart : ((len ++ stamp ++ raw ++ rest).drop 2).take 26 = stamp := by
    simp [List.append_assoc, ← hlen, ← hstamp]
  have hrawPart : ((len ++ stamp ++ raw ++ rest).drop 28).take raw.length = raw := by
    rw [List.append_assoc, List.drop_left' (by simp [hlen, hstamp]), List.take_left]
  have hrest : (len ++ stamp ++ raw ++ rest).drop (28 + raw.length) = rest :=
    List.drop_left' (by simp only [List.length_append]; omega)
  simp only [readRecord, Config.tsLen, hfield, hraw, hstampPart, hrawPart, hrest, hlength, if_true]

/-- Settles O58: whole, the record is split at the length it announces; cut short, either the length field is no longer
whole, or it announces more than is left. -/
theorem logRecordsAreSplitAtTheirLength : Obligations.LogRecordsAreSplitAtTheirLength := by
  intro stamp raw rest hstamp hraw log
  have hlen := littleEndian_two_bytes hraw
  refine ⟨readRecord_append rfl hstamp hlen, fun n hn => readRecord_eq_none ?_⟩
  have hcut : (log.take n).length ≤ n := List.length_take_le n log
  by_cases h2 : n < 2
  · omega
  · have hfield : (log.take n).take 2 = [BitVec.ofNat 8 raw.length, BitVec.ofNat 8 (raw.length / 256)] := by
      rw [List.take_take, min_eq_left (by omega)]
      rfl
    rw [hfield, hlen]
    omega

end Sys2Proof.Machine
end

section
/-! SUPPORT. Family `41_header_parser`: what `HPARSE` writes, and what it leaves as it was (O29 to O33). -/

namespace Sys2Proof.Machine

/-! ### Each outcome from what it needs -/

/-- A frame too short for the header is never longer than the buffer, which holds at least 25 bytes (R7, R121). -/
theorem headerParse_truncated (src : Src) {s : State} (hshort : s.cnt.toNat < 25) :
    headerParse src s = { s with hv := false, hdr := Header.empty, err := 1, errInfo := s.cnt, run := .idle } := by
  have hsize := s.cfg.fbSize_legal.1
  rcases headerParse_cases src s with ⟨h, -⟩ | ⟨-, -, e⟩ | ⟨-, h, -⟩ | ⟨_, -, h, -⟩
  · omega
  · exact e
  · omega
  · omega

theorem headerParse_parsed {src : Src} {s : State} {h : Header} (h25 : 25 ≤ s.cnt.toNat)
    (hc : s.cnt.toNat ≤ s.cfg.fbSize) (hp : parseHeader src s = some h) :
    headerParse src s = { s with hv := true, hdr := h, err := 0, errInfo := 0, run := .idle } := by
  rcases headerParse_cases src s with ⟨h', -⟩ | ⟨-, h', -⟩ | ⟨-, -, hnone, -⟩ | ⟨_, -, -, hsome, e⟩
  · omega
  · omega
  · simp [hp] at hnone
  · cases hp.symm.trans hsome
    exact e

/-- Settles O32: no outcome touches anything else. -/
theorem hparseFrame : Obligations.HparseFrame := by
  intro src s t ht
  rw [exec_parseCommand] at ht
  cases ht
  rcases headerParse_cases src s with ⟨-, e⟩ | ⟨-, -, e⟩ | ⟨-, -, -, e⟩ | ⟨_, -, -, -, e⟩ <;> rw [e]

/-- Settles O30. -/
theorem hparseTruncatedBelowTwentyFiveBytes : Obligations.HparseTruncatedBelowTwentyFiveBytes :=
  fun src s hshort =>
    ⟨Header.empty, Header.get_empty, by rw [exec_parseCommand, headerParse_truncated src hshort]⟩

/-! ### The header register file -/

/-- Settles O29: the rows of the layout lie in the bytes that hold values, and each reads its little-endian sum. -/
theorem hparseFillsTheHeader : Obligations.HparseFillsTheHeader := by
  intro src s b stamp h25 hc hb hts le
  have hread : ∀ a n, a + n ≤ 25 → s.memRead a n = some (le a n) := fun a n ha =>
    State.memRead_eq_sum fun j hj => hb (a + j) (.inl (by omega))
  have hlast : s.memRead (s.cnt.toNat - 2) 2 = some (le (s.cnt.toNat - 2) 2) :=
    State.memRead_eq_sum fun j hj => hb (s.cnt.toNat - 2 + j) (.inr (by omega))
  have hbyte : ∀ a, a < 25 → s.memRead a 1 = some (b a).toNat := fun a ha => State.memRead_one (hb a (.inl ha))
  have hparse := parseHeader_of_reads (src := src) (hread 0 8 (by omega)) (hread 8 2 (by omega)) (hread 10 2 (by omega))
    (hbyte 12 (by omega)) (hbyte 13 (by omega)) (hbyte 14 (by omega)) (hbyte 15 (by omega)) (hbyte 16 (by omega))
    (hbyte 17 (by omega)) (hbyte 18 (by omega)) (hbyte 19 (by omega)) (hbyte 20 (by omega)) (hbyte 21 (by omega))
    (hbyte 22 (by omega)) (hread 23 2 (by omega)) hlast hts
  rw [exec_parseCommand, headerParse_parsed h25 hc hparse]
  simp only [BitVec.ofNat_toNat, BitVec.setWidth_eq]
  cases src <;> rfl

/-- A field of two bytes, the low one first (R10). -/
theorem sum_two_bytes (b : Nat → Byte) (a : Nat) :
    ((List.range 2).map (fun j => (b (a + j)).toNat * 2 ^ (8 * j))).sum = (b a).toNat + 256 * (b (a + 1)).toNat := by
  simp [List.range_succ, Nat.mul_comm]

/-- Settles O31: `HDR.payload_len` is taken at offset 23, `HDR.buf_len` at `CNT - 2`, which is 23 or 24. -/
theorem hparseOverlapInShortBuffers : Obligations.HparseOverlapInShortBuffers := by
  intro src s t hc hsome hts ht
  obtain ⟨stamp, hstamp⟩ := Option.isSome_iff_exists.1 hts
  choose! b hb using fun a ha => Option.isSome_iff_exists.1 (hsome a ha)
  have hfill := fun h25 : 25 ≤ s.cnt.toNat =>
    hparseFillsTheHeader src s b stamp h25 hc (fun a ha => hb a (by omega)) hstamp
  constructor
  · intro h25
    cases ht.symm.trans (hfill (by omega))
    exact ⟨rfl, _, rfl, by rw [h25]⟩
  · intro h26
    cases ht.symm.trans (hfill (by omega))
    refine ⟨rfl, _, _, rfl, rfl, ?_⟩
    simp only [h26, sum_two_bytes, BitVec.toNat_ofNat, Nat.reduceSub, Nat.reduceAdd]
    omega

/-! ### Two blocks with the same frame -/

/-- The fields depend on nothing but the bytes of their rows (R122). -/
theorem extractFields_congr {s t : State} {rows : List HdrRow}
    (h : ∀ row ∈ rows, t.memRead (row.off.resolve t.cnt.toNat) row.width =
      s.memRead (row.off.resolve s.cnt.toNat) row.width) (hdr : Header) :
    extractFields t rows hdr = extractFields s rows hdr := by
  induction rows generalizing hdr with
  | nil => rfl
  | cons row rows ih =>
    obtain ⟨hrow, hrest⟩ := List.forall_mem_cons.1 h
    simp only [extractFields, hrow, ih hrest]

/-- From 25 bytes on, a header depends on nothing but the valid region and the timestamp (R122 to R124, R128). -/
theorem parseHeader_congr {src : Src} {s t : State} (h25 : 25 ≤ s.cnt.toNat) (hcnt : t.cnt = s.cnt)
    (hfb : ∀ a, a < s.cnt.toNat → t.fb.read a = s.fb.read a) (hts : t.tsIn = s.tsIn) :
    parseHeader src t = parseHeader src s := by
  have hrows : ∀ row ∈ hdrTable, t.memRead (row.off.resolve t.cnt.toNat) row.width =
      s.memRead (row.off.resolve s.cnt.toNat) row.width := fun row hrow => by
    have hend := hdrTable_end_le h25 row hrow
    rw [hcnt]
    exact State.memRead_congr _ _ _ fun j hj => hfb _ (by omega)
  simp only [parseHeader, extractFields_congr hrows, hts]

/-- Settles O33: the count and the header parsed decide between the outcomes. -/
theorem hparseRepeatsOnTheSameFrame : Obligations.HparseRepeatsOnTheSameFrame := by
  intro src s s' t t' hcfg hcnt hc hfb hts ht ht'
  rw [exec_parseCommand] at ht ht'
  cases ht
  cases ht'
  by_cases hshort : s.cnt.toNat < 25
  · rw [headerParse_truncated src hshort, headerParse_truncated src (hcnt ▸ hshort)]
    exact ⟨rfl, hcnt, fun _ => ⟨rfl, rfl⟩⟩
  · have h25 : 25 ≤ s.cnt.toNat := Nat.le_of_not_lt hshort
    have h25' : 25 ≤ s'.cnt.toNat := hcnt ▸ h25
    have hc' : s'.cnt.toNat ≤ s'.cfg.fbSize := by rwa [hcnt, hcfg]
    have hparse := parseHeader_congr (src := src) h25 hcnt hfb hts
    cases hp : parseHeader src s with
    | none =>
      rw [headerParse_notReady h25 hc hp, headerParse_notReady h25' hc' (hparse.trans hp)]
      exact ⟨rfl, rfl, fun h => absurd rfl h⟩
    | some hdr =>
      rw [headerParse_parsed h25 hc hp, headerParse_parsed h25' hc' (hparse.trans hp)]
      exact ⟨rfl, rfl, fun _ => ⟨rfl, rfl⟩⟩

end Sys2Proof.Machine
end

section
/-! SUPPORT. Family `42_sample_decoder`: the internal steps of `DECODE`: sign extension (O34), `REFILL` (O35), the bounds of
the accumulator (O36). -/

namespace Sys2Proof.Machine

/-! ### Sign extension (R148) -/

/-- The top bit of a `bits`-bit value says whether it is in the upper half. -/
theorem testBit_top {bits raw : Nat} (hr : raw < 2 ^ bits) :
    raw.testBit (bits - 1) = true ↔ 2 ^ (bits - 1) ≤ raw := by
  constructor
  · exact Nat.ge_two_pow_of_testBit
  · intro h
    refine Nat.testBit_of_two_pow_le_and_two_pow_add_one_gt h (hr.trans_le ?_)
    exact Nat.pow_le_pow_right (by decide) (by omega)

/-- The lower half of the raw values stands for itself. -/
theorem signExtend_of_lt {bits raw : Nat} (h : raw < 2 ^ (bits - 1)) : signExtend bits raw = raw := by
  simp [signExtend, Nat.testBit_lt_two_pow h]

/-- The upper half stands for the negative values. -/
theorem signExtend_of_le {bits raw : Nat} (hr : raw < 2 ^ bits) (h : 2 ^ (bits - 1) ≤ raw) :
    signExtend bits raw = (raw : Int) - 2 ^ bits := by
  rw [signExtend, if_pos ((testBit_top hr).2 h)]

theorem componentFits_iff (bits : Nat) (v : Int) :
    componentFits bits v = true ↔ -2 ^ (bits - 1) ≤ v ∧ v < 2 ^ (bits - 1) := by
  simp [componentFits]

/-- Settles O34: the two halves of the raw values, and the range of the result. -/
theorem signExtensionOfAnyWidth : Obligations.SignExtensionOfAnyWidth := by
  refine ⟨fun bits raw hb hr => ?_, by decide, by decide, by decide, by decide⟩
  obtain ⟨hlo, hhi⟩ := (componentFits_iff bits _).1 (signExtend_fits hb hr)
  exact ⟨signExtend_of_lt, signExtend_of_le hr, hlo, Int.le_sub_one_of_lt hhi⟩

/-! ### `REFILL` (R146) -/

/-- `BL + 16` does not wrap where `REFILL` runs (R31, R146). -/
theorem toNat_bl_add_word {bl : BitVec 5} (h : bl.toNat ≤ 15) : (bl + 16).toNat = bl.toNat + 16 := by
  rw [BitVec.toNat_add, show (16 : BitVec 5).toNat = 16 from rfl, Nat.mod_eq_of_lt (by omega)]

/-- `CUR + 2` does not wrap below `LIM` (R29, R291). -/
theorem toNat_cur_add_two {cur lim : Word16} (h : cur.toNat + 2 ≤ lim.toNat) : (cur + 2).toNat = cur.toNat + 2 := by
  have := lim.isLt
  rw [BitVec.toNat_add, show (2 : Word16).toNat = 2 from rfl, Nat.mod_eq_of_lt (by omega)]

/-- Stacking a word above `b` pending bits is exact: it adds the word at bit `b` and wraps nowhere (R146, R291). -/
theorem toNat_acc_add_word {acc : Word32} {b word : Nat} (hb : b ≤ 15) (hacc : acc.toNat < 2 ^ b)
    (hword : word < 2 ^ 16) : (acc + (BitVec.ofNat 32 word <<< b)).toNat = acc.toNat + word * 2 ^ b := by
  have hle : 2 ^ b ≤ 2 ^ 15 := Nat.pow_le_pow_right (by decide) hb
  have hshift : word * 2 ^ b ≤ 65535 * 2 ^ b := Nat.mul_le_mul_right _ (by omega)
  rw [BitVec.toNat_add, BitVec.toNat_shiftLeft, BitVec.toNat_ofNat, Nat.shiftLeft_eq,
    Nat.mod_eq_of_lt (a := word) (by omega), Nat.mod_eq_of_lt (a := word * 2 ^ b) (by omega),
    Nat.mod_eq_of_lt (by omega)]

/-- What `REFILL` leaves when it stacks a word: the word above the pending bits, the counts moved on (R146). -/
structure Work.Refilled (w : Work) (word : Nat) (w' : Work) : Prop where
  acc : w'.acc.toNat = w.acc.toNat + word * 2 ^ w.bl.toNat
  bl : w'.bl.toNat = w.bl.toNat + 16
  cur : w'.cur.toNat = w.cur.toNat + 2

theorem refill_of_enough {s : State} {w : Work} (h : s.cfg.bits ≤ w.bl.toNat) : refill s w = .ok w := by
  rw [refill, if_neg (by omega)]

theorem refill_underrun {s : State} {w : Work} (hbl : w.bl.toNat < s.cfg.bits)
    (hlim : w.lim.toNat < w.cur.toNat + 2) : refill s w = .error (.bufferUnderrun, w.cur) := by
  rw [refill, if_pos hbl, if_pos hlim]

theorem refill_of_fetch {s : State} {w : Work} {word : Nat} (hacc : w.acc.toNat < 2 ^ w.bl.toNat)
    (hbl : w.bl.toNat < s.cfg.bits) (hlim : w.cur.toNat + 2 ≤ w.lim.toNat)
    (hword : s.fetchWord w.cur.toNat = some word) : ∃ w', refill s w = .ok w' ∧ w.Refilled word w' := by
  have hbits := s.cfg.bits_legal
  rw [refill, if_pos hbl, if_neg (by omega), hword]
  exact ⟨_, rfl, toNat_acc_add_word (by omega) hacc (State.fetchWord_lt hword), toNat_bl_add_word (by omega),
    toNat_cur_add_two hlim⟩

theorem refill_notReady {s : State} {w : Work} (hbl : w.bl.toNat < s.cfg.bits)
    (hlim : w.cur.toNat + 2 ≤ w.lim.toNat) (hword : s.fetchWord w.cur.toNat = none) :
    refill s w = .error (.notReady, 0) := by
  rw [refill, if_pos hbl, if_neg (by omega), hword]

/-- A word has no value when one of its two bytes has none (R22). -/
theorem State.fetchWord_eq_none {s : State} {a : Nat} (h : s.fb.read a = none ∨ s.fb.read (a + 1) = none) :
    s.fetchWord a = none :=
  (s.memRead_eq_none a 2).2 (h.elim (⟨0, by decide, ·⟩) (⟨1, by decide, ·⟩))

/-- Settles O35, outcome by outcome; pending bits and a word above them share no bit, so their sum is their OR. -/
theorem refillStacksTheNextWord : Obligations.RefillStacksTheNextWord := by
  intro s w hacc
  refine ⟨refill_of_enough, refill_underrun, fun hbl hlim => ⟨fun b c hb hc => ?_, fun hnone => ?_⟩⟩
  · have hbits := s.cfg.bits_legal
    obtain ⟨w', hr, hacc', hbl', hcur'⟩ := refill_of_fetch hacc hbl hlim (State.fetchWord_of_reads hb hc)
    refine ⟨w', hr, hacc', ?_, hbl', hcur', by omega, refill_frame hr⟩
    rw [hacc', Nat.lor_comm, ← Nat.shiftLeft_add_eq_or_of_lt hacc, Nat.shiftLeft_eq, Nat.add_comm]
  · exact refill_notReady hbl hlim (State.fetchWord_eq_none hnone)

/-! ### The bounds of the accumulator (R157) -/

/-- From at most 16 pending bits `REFILL` leaves enough for a component, and at most 15 beyond it (R157 (a), (b)). -/
theorem refill_bounds {s : State} {w w' : Work} (hacc : w.acc.toNat < 2 ^ w.bl.toNat) (hbl : w.bl.toNat ≤ 16)
    (hr : refill s w = .ok w') :
    s.cfg.bits ≤ w'.bl.toNat ∧ w'.bl.toNat ≤ s.cfg.bits + 15 ∧ w'.acc.toNat < 2 ^ w'.bl.toNat := by
  have hbits := s.cfg.bits_legal
  rcases refill_cases s w with ⟨hle, e⟩ | ⟨-, -, e⟩ | ⟨-, -, -, e⟩ | ⟨word, hlt, -, hword, e⟩ <;>
    rw [e] at hr <;> cases hr
  · exact ⟨hle, by omega, hacc⟩
  · simp only [toNat_bl_add_word (bl := w.bl) (by omega)]
    exact ⟨by omega, by omega, acc_add_word (by omega) hacc (State.fetchWord_lt hword)⟩

/-- `EXTRACT` drops the component's bits from the accumulator (R149). -/
theorem consume_acc_toNat (bits : Nat) (w : Work) : (consume bits w).acc.toNat = w.acc.toNat / 2 ^ bits := by
  simp only [consume, BitVec.toNat_ushiftRight, Nat.shiftRight_eq_div_pow]

/-- `EXTRACT` takes the component's bits off the count of those pending (R149). -/
theorem consume_bl_toNat {bits : Nat} {w : Work} (h : bits ≤ w.bl.toNat) :
    (consume bits w).bl.toNat = w.bl.toNat - bits := by
  have := w.bl.isLt
  have hof : (BitVec.ofNat 5 bits).toNat = bits := by rw [BitVec.toNat_ofNat, Nat.mod_eq_of_lt (by omega)]
  simp only [consume]
  rw [BitVec.toNat_sub_of_le (by rwa [BitVec.le_def, hof]), hof]

/-- The pending bits stay below `2^BL` when a component's bits are dropped. -/
theorem consume_acc_lt {bits : Nat} {w : Work} (h : bits ≤ w.bl.toNat) (hacc : w.acc.toNat < 2 ^ w.bl.toNat) :
    (consume bits w).acc.toNat < 2 ^ (consume bits w).bl.toNat := by
  rw [consume_acc_toNat, consume_bl_toNat h, Nat.div_lt_iff_lt_mul (by positivity), ← pow_add, Nat.sub_add_cancel h]
  exact hacc

/-- Settles O36: the bounds at `EXTRACT` are `REFILL`'s, and `EXTRACT` takes `B` bits away. -/
theorem componentKeepsTheAccumulatorBounds : Obligations.ComponentKeepsTheAccumulatorBounds := by
  intro s w w₁ w₂ v hacc hbl hr hc
  obtain ⟨hlo, hhi, hacc₁⟩ := refill_bounds hacc hbl hr
  rcases component_cases s w with ⟨_, hr', -⟩ | ⟨u, hr', hc'⟩ <;> rw [hr] at hr' <;> cases hr'
  rw [hc'] at hc
  cases hc
  have hbl₂ := consume_bl_toNat hlo
  have hraw : rawComponent s.cfg.bits w₁ < 2 ^ s.cfg.bits := Nat.mod_lt _ (by positivity)
  exact ⟨hlo, hhi, hacc₁, by omega, by omega, consume_acc_lt hlo hacc₁, signExtend_fits s.cfg.bits_legal.1 hraw⟩

end Sys2Proof.Machine
end

section
/-! SUPPORT. Family `42_sample_decoder`, continued: the stream value and its components, the matrix they make in stream
order, the invariant of the walk against them, and from it the four outcomes of a `DECODE` in closed form. -/

namespace Sys2Proof.Machine

/-! ### The stream value (R98, R99) -/

theorem pow_256 (n : Nat) : 256 ^ n = 2 ^ (8 * n) := by
  rw [pow_mul]
  norm_num

/-- A word of a stream with a value is the 16 bits of the stream at its place (R98). -/
theorem State.fetchWord_of_streamValue {s : State} {start m n stream : Nat} (hm : m < n)
    (h : s.streamValue start n = some stream) :
    s.fetchWord (start + 2 * m) = some (stream / 2 ^ (16 * m) % 2 ^ 16) := by
  rw [State.streamValue, show 2 * n = 2 * m + (2 + 2 * (n - m - 1)) by omega, State.memRead_add,
    Option.bind_eq_some_iff] at h
  obtain ⟨v, hv, h⟩ := h
  obtain ⟨x, hx, rfl⟩ := Option.map_eq_some_iff.1 h
  rw [State.memRead_add, Option.bind_eq_some_iff] at hx
  obtain ⟨word, hword, hx⟩ := hx
  obtain ⟨u, -, rfl⟩ := Option.map_eq_some_iff.1 hx
  have hv := State.memRead_lt hv
  have hlt := State.memRead_lt hword
  rw [show 16 * m = 8 * (2 * m) by ring, ← pow_256, Nat.add_mul_div_left _ _ (by positivity), Nat.div_eq_of_lt hv,
    Nat.zero_add, show 2 ^ 16 = 256 ^ 2 from rfl, Nat.add_mul_mod_self_left, Nat.mod_eq_of_lt hlt]
  exact hword

/-- `W` words hold the components of the shape (R102). -/
theorem Dim.components_mul_le (d : Dim) (bits : Nat) : d.components * bits ≤ 16 * d.words bits := by
  simp only [Dim.words, Config.word]
  omega

theorem Dim.one_le_words (d : Dim) (bits : Nat) : 1 ≤ d.words bits := le_max_left _ _

/-- `W` is the least number of words, at least one, that holds them (R102). -/
theorem Dim.words_le {d : Dim} {bits m : Nat} (h₁ : 1 ≤ m) (h : d.components * bits ≤ 16 * m) : d.words bits ≤ m := by
  simp only [Dim.words, Config.word]
  omega

/-! ### The matrix in stream order (R101, R151) -/

/-- The matrix after the first `n` samples of a stream value have been stored, in stream order. -/
def storedSamples (bits : Nat) (d : Dim) (stream : Nat) : Nat → Memory Sample
  | 0 => []
  | n + 1 => (storedSamples bits d stream n).write (d.sampleKey n) (sampleAt bits stream n)

/-- Sample `n` of the shape goes to the entry in the shape whose number is `n`, and to no other. -/
theorem Dim.eq_sampleKey_iff {d : Dim} {n : Nat} (hn : n < d.samples) (key : Nat) :
    key = d.sampleKey n ↔ d.holds key = true ∧ d.sampleNumber (key / 256) (key % 256) = n := by
  constructor
  · rintro rfl
    have hpos : 0 < d.streams := Nat.pos_of_mul_pos_right (Nat.zero_lt_of_lt hn)
    have hk : n / d.streams < d.tones := Nat.div_lt_of_lt_mul hn
    have hp : n % d.streams < d.streams := Nat.mod_lt _ hpos
    have hk' := hk.trans d.tones_lt
    rw [Dim.sampleKey, Dim.holds, entryKey_div _ hk', entryKey_mod _ hk', Dim.sampleNumber]
    exact ⟨by simp [hp, hk], Nat.div_add_mod' n d.streams⟩
  · rintro ⟨hholds, rfl⟩
    simp only [Dim.holds, Bool.and_eq_true, decide_eq_true_eq] at hholds
    rw [Dim.sampleKey_sampleNumber hholds.1, entryKey, Nat.div_add_mod]

/-- What the matrix reads: at an entry in the shape whose sample is stored, that sample; else nothing. -/
theorem read_storedSamples {bits : Nat} {d : Dim} {n : Nat} (stream : Nat) (hn : n ≤ d.samples) (key : Nat) :
    (storedSamples bits d stream n).read key =
      if d.holds key = true ∧ d.sampleNumber (key / 256) (key % 256) < n then
        some (sampleAt bits stream (d.sampleNumber (key / 256) (key % 256)))
      else none := by
  induction n with
  | zero => simp [storedSamples]
  | succ n ih =>
    rw [storedSamples, Memory.read_write, ih (by omega)]
    have hkey := Dim.eq_sampleKey_iff (d := d) (n := n) (by omega) key
    by_cases h : key = d.sampleKey n
    · obtain ⟨hholds, hnum⟩ := hkey.1 h
      rw [if_pos h, if_pos ⟨hholds, by omega⟩, hnum]
    · rw [if_neg h]
      refine if_congr (and_congr_right fun hholds => ?_) rfl rfl
      have hne : d.sampleNumber (key / 256) (key % 256) ≠ n := fun e => h (hkey.2 ⟨hholds, e⟩)
      omega

/-- The whole matrix at an entry of the shape. -/
theorem read_storedSamples_entry {d : Dim} {p k : Nat} (bits stream : Nat) (hp : p < d.streams) (hk : k < d.tones) :
    (storedSamples bits d stream d.samples).read (entryKey p k) = some (sampleAt bits stream (d.sampleNumber p k)) := by
  have hk' := hk.trans d.tones_lt
  have hholds : d.holds (entryKey p k) = true := by simp [Dim.holds, entryKey_div p hk', entryKey_mod p hk', hp, hk]
  rw [read_storedSamples stream le_rfl, entryKey_div p hk', entryKey_mod p hk',
    if_pos ⟨hholds, Dim.sampleNumber_lt hp hk⟩]

/-- Outside the shape it holds nothing (R34). -/
theorem read_storedSamples_outside {d : Dim} {key : Nat} (bits stream : Nat) (h : d.holds key = false) :
    (storedSamples bits d stream d.samples).read key = none := by
  rw [read_storedSamples stream le_rfl, if_neg (by simp [h])]

/-! ### The working set on the stream (R157) -/

/-- After `n` components and `m` words fetched: the words are the components taken and the bits pending, and the
accumulator holds the bits of the stream that come next. -/
structure Work.OnStream (s : State) (start : Nat) (d : Dim) (stream n m : Nat) (w : Work) : Prop where
  cur : w.cur.toNat = start + 2 * m
  lim : w.lim = s.cnt
  one_le : 1 ≤ m
  words_le : m ≤ s.wordsToFetch start d
  bits : 16 * m = n * s.cfg.bits + w.bl.toNat
  acc : w.acc.toNat = stream / 2 ^ (n * s.cfg.bits) % 2 ^ w.bl.toNat

section
variable {s : State} {start : Nat} {d : Dim} {stream n m : Nat} {w w' : Work}

theorem Work.OnStream.acc_lt (h : w.OnStream s start d stream n m) : w.acc.toNat < 2 ^ w.bl.toNat := by
  rw [h.acc]
  exact Nat.mod_lt _ (by positivity)

theorem State.wordsToFetch_le (s : State) (start : Nat) (d : Dim) :
    s.wordsToFetch start d ≤ d.words s.cfg.bits ∧ s.wordsToFetch start d ≤ (s.cnt.toNat - start) / 2 :=
  ⟨min_le_left _ _, min_le_right _ _⟩

/-- What is pending depends on these four registers of the working set. -/
theorem Work.OnStream.of_registers (h : w.OnStream s start d stream n m) (hacc : w'.acc = w.acc) (hbl : w'.bl = w.bl)
    (hlim : w'.lim = w.lim) (hcur : w'.cur = w.cur) : w'.OnStream s start d stream n m := by
  refine ⟨hcur ▸ h.cur, hlim ▸ h.lim, h.one_le, h.words_le, hbl ▸ h.bits, ?_⟩
  rw [hacc, hbl]
  exact h.acc

/-- The word `REFILL` stacks is the next one of the stream (R146). -/
theorem Work.OnStream.of_refilled (h : w.OnStream s start d stream n m) (hm : m < s.wordsToFetch start d)
    (hr : w.Refilled (stream / 2 ^ (16 * m) % 2 ^ 16) w') (hlim : w'.lim = w.lim) :
    w'.OnStream s start d stream n (m + 1) := by
  refine ⟨?_, hlim.trans h.lim, by omega, hm, ?_, ?_⟩
  · rw [hr.cur, h.cur]
    ring
  · rw [hr.bl, ← Nat.add_assoc, ← h.bits]
    ring
  · rw [hr.acc, hr.bl, h.acc, h.bits, pow_add 2 (n * s.cfg.bits), pow_add 2 w.bl.toNat, ← Nat.div_div_eq_div_mul,
      Nat.mod_mul, Nat.mul_comm (2 ^ w.bl.toNat)]

/-- While a component is left, `REFILL` runs out of words below `CNT`, of which there are then fewer than `W`, or leaves
the working set on the stream with enough bits for the component (R146, R153). -/
theorem Work.OnStream.refill_cases (h : w.OnStream s start d stream n m) (hn : n < d.components)
    (hS : s.streamValue start (s.wordsToFetch start d) = some stream) :
    (s.cnt.toNat < start + 2 * d.words s.cfg.bits ∧ w.cur.toNat = start + 2 * ((s.cnt.toNat - start) / 2) ∧
      refill s w = .error (.bufferUnderrun, w.cur)) ∨
    ∃ w' m', refill s w = .ok w' ∧ w'.OnStream s start d stream n m' ∧ s.cfg.bits ≤ w'.bl.toNat := by
  by_cases hle : s.cfg.bits ≤ w.bl.toNat
  · exact .inr ⟨w, m, refill_of_enough hle, h, hle⟩
  have hlt : w.bl.toNat < s.cfg.bits := Nat.lt_of_not_le hle
  have hm : m < d.words s.cfg.bits := by
    have hneed : (n + 1) * s.cfg.bits ≤ d.components * s.cfg.bits := Nat.mul_le_mul_right _ hn
    have hwords := d.components_mul_le s.cfg.bits
    have hbits := h.bits
    rw [Nat.succ_mul] at hneed
    omega
  have hcur := h.cur
  by_cases hu : s.cnt.toNat < w.cur.toNat + 2
  · have hfit := h.words_le.trans (s.wordsToFetch_le start d).2
    exact .inl ⟨by omega, by omega, refill_underrun hlt (h.lim ▸ hu)⟩
  · have hfetch : m < s.wordsToFetch start d := lt_min hm (by omega)
    have hword := State.fetchWord_of_streamValue hfetch hS
    obtain ⟨w', hr, hw'⟩ := refill_of_fetch h.acc_lt hlt (h.lim ▸ Nat.le_of_not_lt hu) (h.cur ▸ hword)
    have hbits := s.cfg.bits_legal
    exact .inr ⟨w', m + 1, hr, h.of_refilled hfetch hw' (refill_frame hr).1, by have := hw'.bl; omega⟩

/-- `EXTRACT` takes component `n` of the stream, and the working set is then past it (R147 to R149). -/
theorem Work.OnStream.extract (h : w.OnStream s start d stream n m) (hle : s.cfg.bits ≤ w.bl.toNat) :
    signExtend s.cfg.bits (rawComponent s.cfg.bits w) = componentAt s.cfg.bits stream n ∧
      (consume s.cfg.bits w).OnStream s start d stream (n + 1) m := by
  have hbl := consume_bl_toNat hle
  have hsplit : w.bl.toNat = s.cfg.bits + (w.bl.toNat - s.cfg.bits) := by omega
  refine ⟨?_, h.cur, h.lim, h.one_le, h.words_le, ?_, ?_⟩
  · rw [rawComponent, h.acc, Nat.mod_mod_of_dvd _ (pow_dvd_pow 2 hle), componentAt]
  · rw [hbl, h.bits, Nat.succ_mul]
    omega
  · rw [consume_acc_toNat, hbl, h.acc, hsplit, pow_add, Nat.mod_mul_right_div_self, Nat.div_div_eq_div_mul, ← pow_add,
      ← Nat.succ_mul, ← hsplit]

/-- `COMPONENT()` on the stream: `BufferUnderrun` at the first word that is not below `CNT`, or the next component of the
stream (R150, R153). -/
theorem Work.OnStream.component_cases (h : w.OnStream s start d stream n m) (hn : n < d.components)
    (hS : s.streamValue start (s.wordsToFetch start d) = some stream) :
    (s.cnt.toNat < start + 2 * d.words s.cfg.bits ∧ w.cur.toNat = start + 2 * ((s.cnt.toNat - start) / 2) ∧
      component s w = .error (.bufferUnderrun, w.cur)) ∨
    ∃ w' m', component s w = .ok (componentAt s.cfg.bits stream n, w') ∧
      w'.OnStream s start d stream (n + 1) m' := by
  rcases h.refill_cases hn hS with ⟨hu, hcur, hr⟩ | ⟨w', m', hr, h', hle⟩
  · exact .inl ⟨hu, hcur, by simp only [component, hr]⟩
  · obtain ⟨hv, hnext⟩ := h'.extract hle
    exact .inr ⟨consume s.cfg.bits w', m', by simp only [component, hr, hv], hnext⟩

end

/-! ### The walk on the stream -/

/-- `COMPONENT()` depends on the buffer and `B` alone. -/
theorem component_congr {s t : State} (hfb : t.fb = s.fb) (hcfg : t.cfg = s.cfg) (w : Work) :
    component t w = component s w := by
  simp only [component, refill, State.fetchWord_congr hfb, hcfg]

/-- A `DECODE` of shape `d`, begun in `s`, where its walk stands at `w`: the samples before it are stored. -/
def State.walking (s : State) (d : Dim) (stream : Nat) (w : Work) : State :=
  { s.dropMatrix.start with
    dim := some d, work := some w, sm := storedSamples s.cfg.bits d stream (w.sampleCount d) }

/-- A `DECODE` of shape `d`, begun in `s`, that has completed on a stream (R152, R156). -/
def State.decoded (s : State) (d : Dim) (stream : Nat) : State :=
  { s with
    sm := storedSamples s.cfg.bits d stream d.samples, dim := some d, smv := true, dbv := false, svv := false
    dbm := [], sv := [], work := none, err := 0, errInfo := 0, run := .idle }

/-- A `DECODE` that has run out of words below `CNT` (R153, R240): the first that did not fit is named. -/
def State.underrun (s : State) (start : Nat) : State :=
  s.raise .sampleDecoder .bufferUnderrun (BitVec.ofNat 16 (start + 2 * ((s.cnt.toNat - start) / 2)))

/-- Where the walk stands is in the shape and on the stream, and an imaginary component held is that of the sample the
walk stands at. -/
structure Work.Decoding (s : State) (start : Nat) (d : Dim) (stream n : Nat) (w : Work) : Prop where
  count : w.componentCount d = n
  inShape : w.InShape d
  onStream : ∃ m, w.OnStream s start d stream n m
  held : ∀ imh, w.phase = .real imh → imh = componentAt s.cfg.bits stream (2 * w.sampleCount d)

section
variable {s : State} {start : Nat} {d : Dim} {stream n : Nat} {w w' : Work}

/-- At the real component, the sample it completes is the one of the stream that the walk stands at. -/
theorem Work.Decoding.sample_eq {imh : Int} (h : w.Decoding s start d stream n) (hp : w.phase = .real imh) :
    (⟨componentAt s.cfg.bits stream n, imh⟩ : Sample) = sampleAt s.cfg.bits stream (w.sampleCount d) := by
  rw [sampleAt, ← h.held imh hp, ← h.count, Work.componentCount_real d hp]

/-- It is stored at its entry in stream order (R151). -/
theorem Work.Decoding.storeSample_walking {imh : Int} (h : w.Decoding s start d stream n) (hp : w.phase = .real imh) :
    storeSample d w ⟨componentAt s.cfg.bits stream n, imh⟩ (s.walking d stream w) =
      { s.walking d stream w with sm := storedSamples s.cfg.bits d stream (w.sampleCount d + 1) } := by
  have hkey : d.sampleKey (w.sampleCount d) = entryKey (pairIndex d.nr.toNat w.t.toNat w.r.toNat) w.k.toNat := by
    rw [Work.sampleCount_eq, Dim.sampleKey_sampleNumber (pairIndex_lt h.inShape.t_lt h.inShape.r_lt)]
  rw [h.sample_eq hp, storedSamples, hkey]
  rfl

/-- The walk moves on past an imaginary component, which is held (R150). -/
theorem Work.Decoding.hold (h : w.Decoding s start d stream n) (hp : w.phase = .imaginary) {m : Nat}
    (hc : component s w = .ok (componentAt s.cfg.bits stream n, w')) (hw' : w'.OnStream s start d stream (n + 1) m) :
    Work.Decoding s start d stream (n + 1) { w' with phase := .real (componentAt s.cfg.bits stream n) } := by
  obtain ⟨hin, hsame⟩ := component_inShape hc h.inShape
  have hcount := h.count
  rw [Work.componentCount_imaginary d hp, ← hsame] at hcount
  refine ⟨?_, ⟨hin.k_lt, hin.t_lt, hin.r_lt⟩, ⟨m, hw'.of_registers rfl rfl rfl rfl⟩, ?_⟩
  · rw [Work.componentCount_real d rfl, ← hcount]
    rfl
  · rintro _ ⟨⟩
    rw [← hcount]
    rfl

/-- The walk moves on past a real component to the next sample (R145, R150). -/
theorem Work.Decoding.next {imh : Int} {w'' : Work} (h : w.Decoding s start d stream n) (hp : w.phase = .real imh)
    {m : Nat} (hc : component s w = .ok (componentAt s.cfg.bits stream n, w'))
    (hw' : w'.OnStream s start d stream (n + 1) m) (ha : w'.advance d = some w'') :
    w''.Decoding s start d stream (n + 1) ∧ w''.sampleCount d = w.sampleCount d + 1 := by
  obtain ⟨hin, hsame⟩ := component_inShape hc h.inShape
  have hnext := Work.advance_eq_some hin ha
  have hcount := h.count
  rw [Work.componentCount_real d hp] at hcount
  have hsamples : w''.sampleCount d = w.sampleCount d + 1 := by rw [hnext.sampleCount, hsame]
  refine ⟨⟨?_, hnext.inShape, ⟨m, hw'.of_registers hnext.acc hnext.bl hnext.lim hnext.cur⟩, ?_⟩, hsamples⟩
  · rw [Work.componentCount_imaginary d hnext.phase, hsamples]
    omega
  · intro v hv
    simp [hnext.phase] at hv

/-- The two ways a `DECODE` ends once it has started: with too few words below `CNT`, or complete. -/
def State.DecodeEnds (s : State) (start : Nat) (d : Dim) (stream : Nat) (t : State) : Prop :=
  (s.cnt.toNat < start + 2 * d.words s.cfg.bits ∧ t = s.underrun start) ∨
    (start + 2 * d.words s.cfg.bits ≤ s.cnt.toNat ∧ t = s.decoded d stream)

/-- A walk that has taken every component has fetched the `W` words of the shape (R155). -/
theorem Work.OnStream.words_fit {m : Nat} (h : w.OnStream s start d stream d.components m) :
    start + 2 * d.words s.cfg.bits ≤ s.cnt.toNat := by
  have hbits := h.bits
  have hwords := Dim.words_le h.one_le (d := d) (bits := s.cfg.bits) (by omega)
  have hfit := h.words_le.trans (s.wordsToFetch_le start d).2
  have hone := h.one_le
  omega

/-- A step of the walk ends the `DECODE`, or takes the walk past one component. -/
theorem walkStep_walking (h : w.Decoding s start d stream n)
    (hS : s.streamValue start (s.wordsToFetch start d) = some stream) :
    s.DecodeEnds start d stream (walkStep (s.walking d stream w)) ∨
      ∃ w', walkStep (s.walking d stream w) = s.walking d stream w' ∧ w'.Decoding s start d stream (n + 1) := by
  have hcongr : component (s.walking d stream w) w = component s w := component_congr rfl rfl w
  have hwalk : (s.walking d stream w).WalkAt d n := ⟨rfl, rfl, w, rfl, h.inShape, h.count⟩
  obtain ⟨m, hon⟩ := h.onStream
  rcases hon.component_cases hwalk.lt hS with ⟨hu, hcur, hc⟩ | ⟨w', m', hc, hw'⟩
  all_goals
    rcases walkStep_cases (s := s.walking d stream w) rfl rfl with
      ⟨e, info, hc', hstep⟩ | ⟨v, u, hc', hp, hstep⟩ | ⟨v, imh, u, w'', hc', hp, ha, hstep⟩ |
        ⟨v, imh, u, hc', hp, ha, hstep⟩ <;> rw [hcongr, hc] at hc' <;> cases hc'
  · refine .inl (.inl ⟨hu, hstep.trans ?_⟩)
    rw [State.underrun, ← hcur, BitVec.ofNat_toNat, BitVec.setWidth_eq]
    rfl
  · refine .inr ⟨_, hstep.trans ?_, h.hold hp hc hw'⟩
    have hsame : Work.sampleCount d { w' with phase := .real (componentAt s.cfg.bits stream n) } = w.sampleCount d :=
      (component_inShape hc h.inShape).2
    simp only [State.walking, hsame]
  · obtain ⟨hnext, hsamples⟩ := h.next hp hc hw' ha
    refine .inr ⟨w'', hstep.trans ?_, hnext⟩
    rw [h.storeSample_walking hp]
    simp only [State.walking, hsamples]
  · obtain ⟨hin, hsame⟩ := component_inShape hc h.inShape
    have hlast : w.sampleCount d + 1 = d.samples := hsame ▸ Work.advance_eq_none hin ha
    have hall : n + 1 = d.components := by
      rw [← h.count, Work.componentCount_real d hp, Dim.components, ← hlast]
      ring
    refine .inl (.inr ⟨(hall ▸ hw').words_fit, hstep.trans ?_⟩)
    rw [h.storeSample_walking hp, hlast]
    rfl

/-- The walk of a `DECODE` ends in one of the two ways, by induction on the components left. -/
theorem runWalk_walking (k : Nat) (h : w.Decoding s start d stream n) (hk : d.components ≤ n + k)
    (hS : s.streamValue start (s.wordsToFetch start d) = some stream) :
    s.DecodeEnds start d stream (runWalk k (s.walking d stream w)) := by
  have hwalk : (s.walking d stream w).WalkAt d n := ⟨rfl, rfl, w, rfl, h.inShape, h.count⟩
  induction k generalizing n w with
  | zero =>
    have := hwalk.lt
    omega
  | succ k ih =>
    rw [runWalk_busy k rfl]
    rcases walkStep_walking h hS with hend | ⟨w', hstep, h'⟩
    · have hidle : (walkStep (s.walking d stream w)).run = .idle := by
        rcases hend with ⟨-, e⟩ | ⟨-, e⟩ <;> rw [e] <;> rfl
      rwa [runWalk_idle k hidle]
    · rw [hstep]
      exact ih h' (by omega) ⟨rfl, rfl, w', rfl, h'.inShape, h'.count⟩

end

/-! ### All that a `DECODE` can do -/

/-- `INIT` leaves the working set at the first component of the stream, its first word pending (R144). -/
theorem initial_decoding {src : Src} {s : State} {d : Dim} {stream word : Nat} (hs : d.samples ≠ 0)
    (hlo : startOffset src + 2 ≤ s.cnt.toNat) (hword : s.fetchWord (startOffset src) = some word)
    (hS : s.streamValue (startOffset src) (s.wordsToFetch (startOffset src) d) = some stream) :
    Work.Decoding s (startOffset src) d stream 0
      { acc := BitVec.ofNat 32 word, bl := 16, cur := BitVec.ofNat 16 (startOffset src + 2), lim := s.cnt
        k := 0, t := 0, r := 0, phase := .imaginary } := by
  obtain ⟨hnr, hnc, hnt⟩ := Dim.pos_of_samples_ne_zero hs
  have hfetch : 0 < s.wordsToFetch (startOffset src) d := lt_min (d.one_le_words s.cfg.bits) (by omega)
  have hfirst : word = stream % 2 ^ 16 := by
    have h := State.fetchWord_of_streamValue hfetch hS
    rw [Nat.mul_zero, Nat.add_zero, hword] at h
    simpa using h
  have hsrc := startOffset_le src
  refine ⟨?_, ⟨hnt, hnc, hnr⟩, ⟨1, ?_, rfl, le_rfl, hfetch, ?_, ?_⟩, ?_⟩
  · rw [Work.componentCount_imaginary d rfl, Work.sampleCount_origin d rfl rfl rfl]
  · simp only [BitVec.toNat_ofNat]
    omega
  · simp
  · rw [hfirst, BitVec.toNat_ofNat, show (16 : BitVec 5).toNat = 16 from rfl, Nat.zero_mul, pow_zero, Nat.div_one]
    omega
  · rintro _ ⟨⟩

/-- The four outcomes of a `DECODE`: rejected for its count, rejected for want of a value, and the two ways a started one
ends on the stream it has fetched (R153, R155, R156, R236, R237). -/
theorem sampleDecode_cases (src : Src) (d : Dim) (s : State) :
    (s.cfg.fbSize < s.cnt.toNat ∧ sampleDecode src d s = { s with err := 6, errInfo := s.cnt, run := .idle }) ∨
    (s.cnt.toNat ≤ s.cfg.fbSize ∧
      s.streamValue (startOffset src) (s.wordsToFetch (startOffset src) d) = none ∧
      sampleDecode src d s = { s with err := 7, errInfo := 0, run := .idle }) ∨
    (∃ stream, s.cnt.toNat ≤ s.cfg.fbSize ∧
      s.streamValue (startOffset src) (s.wordsToFetch (startOffset src) d) = some stream ∧
      s.DecodeEnds (startOffset src) d stream (sampleDecode src d s)) := by
  rcases beginDecode_cases src d s with
    ⟨hc, e⟩ | ⟨hc, hheld, e⟩ | ⟨hc, hlo, e⟩ | ⟨hc, hheld, hlo, hs, e⟩ | ⟨word, hc, hheld, hlo, hs, hword, e⟩ <;>
    rw [sampleDecode, e]
  · exact .inl ⟨hc, runWalk_idle _ rfl⟩
  · exact .inr (.inl ⟨hc, by simpa [State.wordsHeld] using hheld, runWalk_idle _ rfl⟩)
  · have hnone : (s.cnt.toNat - startOffset src) / 2 = 0 := by omega
    have hone := d.one_le_words s.cfg.bits
    have hS : s.streamValue (startOffset src) (s.wordsToFetch (startOffset src) d) = some 0 := by
      rw [State.wordsToFetch, hnone, Nat.min_zero]
      rfl
    refine .inr (.inr ⟨0, hc, hS, .inl ⟨by omega, ?_⟩⟩)
    rw [runWalk_idle _ rfl, State.underrun, hnone]
    rfl
  · obtain ⟨stream, hS⟩ := Option.isSome_iff_exists.1 hheld
    have hwords : d.words s.cfg.bits = 1 := by simp [Dim.words, Dim.components, hs, Config.word]
    refine .inr (.inr ⟨stream, hc, hS, .inr ⟨by omega, ?_⟩⟩)
    rw [runWalk_idle _ rfl, State.decoded, hs]
    rfl
  · obtain ⟨stream, hS⟩ := Option.isSome_iff_exists.1 hheld
    have hinit := initial_decoding hs hlo hword hS
    have hend := runWalk_walking d.components hinit (by omega) hS
    rw [State.walking, Work.sampleCount_origin d rfl rfl rfl] at hend
    exact .inr (.inr ⟨stream, hc, hS, hend⟩)

end Sys2Proof.Machine
end

section
/-! SUPPORT. Family `42_sample_decoder`, continued: what `DECODE` gives, from its outcomes in closed form (O37, O38, O39, O41,
O42, O44, O45), and its walk step by step (O43). -/

namespace Sys2Proof.Machine

/-! ### Completion and underrun (R153, R155) -/

theorem State.wordsToFetch_of_fits {s : State} {start : Nat} {d : Dim}
    (h : start + 2 * d.words s.cfg.bits ≤ s.cnt.toNat) : s.wordsToFetch start d = d.words s.cfg.bits :=
  min_eq_left (by omega)

theorem State.wordsToFetch_of_short {s : State} {start : Nat} {d : Dim}
    (h : s.cnt.toNat < start + 2 * d.words s.cfg.bits) :
    s.wordsToFetch start d = (s.cnt.toNat - start) / 2 :=
  min_eq_right (by omega)

/-- With `W` words below `CNT`, all holding values, a `DECODE` completes on their stream (R155). -/
theorem sampleDecode_of_fits {src : Src} {d : Dim} {s : State} {stream : Nat} (hc : s.cnt.toNat ≤ s.cfg.fbSize)
    (hfit : startOffset src + 2 * d.words s.cfg.bits ≤ s.cnt.toNat)
    (hS : s.streamValue (startOffset src) (d.words s.cfg.bits) = some stream) :
    sampleDecode src d s = s.decoded d stream := by
  rw [← State.wordsToFetch_of_fits hfit] at hS
  rcases sampleDecode_cases src d s with ⟨h, -⟩ | ⟨-, hnone, -⟩ | ⟨stream', -, hS', hend⟩
  · omega
  · simp [hS] at hnone
  · cases hS.symm.trans hS'
    rcases hend with ⟨hshort, -⟩ | ⟨-, e⟩
    · omega
    · exact e

/-- With fewer than `W` words below `CNT`, those holding values, it ends with `BufferUnderrun` (R153). -/
theorem sampleDecode_of_short {src : Src} {d : Dim} {s : State} (hc : s.cnt.toNat ≤ s.cfg.fbSize)
    (hshort : s.cnt.toNat < startOffset src + 2 * d.words s.cfg.bits)
    (hheld : ∀ j, j < 2 * ((s.cnt.toNat - startOffset src) / 2) → (s.fb.read (startOffset src + j)).isSome = true) :
    sampleDecode src d s = s.underrun (startOffset src) := by
  have hS := (s.memRead_isSome (startOffset src) _).2 hheld
  rw [← State.wordsToFetch_of_short hshort] at hS
  rcases sampleDecode_cases src d s with ⟨h, -⟩ | ⟨-, hnone, -⟩ | ⟨_, -, -, hend⟩
  · omega
  · rw [State.streamValue] at hnone
    simp [hnone] at hS
  · rcases hend with ⟨-, e⟩ | ⟨hfit, -⟩
    · exact e
    · omega

@[simp] theorem State.underrun_err (s : State) (start : Nat) : (s.underrun start).err = 2 := rfl

/-- The offset an underrun names fits `ERRINFO` (R39). -/
theorem State.underrun_errInfo_toNat (s : State) (src : Src) :
    (s.underrun (startOffset src)).errInfo.toNat =
      startOffset src + 2 * ((s.cnt.toNat - startOffset src) / 2) := by
  have hsrc := startOffset_le src
  have hcnt := s.cnt.isLt
  exact (BitVec.toNat_ofNat _ 16).trans (Nat.mod_eq_of_lt (by omega))

/-- Settles O37: the bytes have a stream value, so the `DECODE` completes on it. -/
theorem decodeCompletesWhenTheWordsAreThere : Obligations.DecodeCompletesWhenTheWordsAreThere := by
  intro src d s hc hfit hheld
  obtain ⟨stream, hS⟩ := Option.isSome_iff_exists.1 ((s.memRead_isSome (startOffset src) _).2 hheld)
  exact ⟨storedSamples s.cfg.bits d stream d.samples, by
    rw [exec_decodeCommand, sampleDecode_of_fits hc hfit hS, State.decoded]⟩

/-- Settles O38: the matrix of a completed `DECODE` is the stream's, read entry by entry. -/
theorem decodeIsLittleEndianBitFieldExtraction : Obligations.DecodeIsLittleEndianBitFieldExtraction := by
  intro src nr nc nt s stream hc hfit hS bits field
  refine ⟨_, by rw [exec_decodeCommand, sampleDecode_of_fits hc hfit hS], rfl, fun k t r hk ht hr => ?_,
    fun key hkey => ?_⟩
  · intro n
    have hnum : Dim.sampleNumber ⟨nr, nc, nt⟩ (pairIndex nr.toNat t r) k = n := by
      simp only [Dim.sampleNumber, Dim.streams, pairIndex, n]
      ring
    have hread := read_storedSamples_entry bits stream (d := ⟨nr, nc, nt⟩) (pairIndex_lt ht hr) hk
    rwa [hnum] at hread
  · refine read_storedSamples_outside bits stream (d := ⟨nr, nc, nt⟩) ?_
    rw [Bool.eq_false_iff, Dim.holds, Ne, Bool.and_eq_true, decide_eq_true_eq, decide_eq_true_eq]
    exact hkey

/-- Settles O39. -/
theorem decodeUnderrunLeavesNoData : Obligations.DecodeUnderrunLeavesNoData := by
  intro src d s hc hshort hheld
  refine ⟨(s.underrun (startOffset src)).errInfo, ?_, by
    rw [exec_decodeCommand, sampleDecode_of_short hc hshort hheld]; rfl⟩
  rw [s.underrun_errInfo_toNat src]
  split <;> omega

/-- Settles O45: a zero count leaves one word to fetch and no sample to store. -/
theorem decodeOfZeroCountsHasNoEntry : Obligations.DecodeOfZeroCountsHasNoEntry := by
  intro src d s hzero hc
  have hs : d.samples = 0 := by
    rcases hzero with h | h | h <;> simp [Dim.samples, Dim.streams, Dim.tones, h]
  have hwords : d.words s.cfg.bits = 1 := by simp [Dim.words, Dim.components, hs, Config.word]
  split
  · next hfit =>
    intro hb hb'
    obtain ⟨b, hb⟩ := Option.isSome_iff_exists.1 hb
    obtain ⟨c, hb'⟩ := Option.isSome_iff_exists.1 hb'
    have hS : s.streamValue (startOffset src) (d.words s.cfg.bits) = some (b.toNat + 256 * c.toNat) := by
      rw [hwords]
      exact State.fetchWord_of_reads hb hb'
    rw [exec_decodeCommand, sampleDecode_of_fits hc (by omega) hS, State.decoded, hs, storedSamples]
  · next hshort =>
    have hnone : (s.cnt.toNat - startOffset src) / 2 = 0 := by omega
    refine ⟨_, by rw [exec_decodeCommand, sampleDecode_of_short hc (by omega) (by simp [hnone])], rfl, ?_⟩
    rw [s.underrun_errInfo_toNat src, hnone, Nat.mul_zero, Nat.add_zero]

/-! ### What a `DECODE` depends on (R158, R160) -/

/-- Two `DECODE` commands of one shape and width, in any mode, to which the same number of words is left, holding the same
stream, end alike. -/
theorem sampleDecode_sameStream {src src' : Src} {d : Dim} {s s' : State} (hbits : s'.cfg.bits = s.cfg.bits)
    (hc : s.cnt.toNat ≤ s.cfg.fbSize) (hc' : s'.cnt.toNat ≤ s'.cfg.fbSize)
    (hleft : (s'.cnt.toNat - startOffset src') / 2 = (s.cnt.toNat - startOffset src) / 2)
    (hread : ∀ j, startOffset src + j < s.cnt.toNat →
      s'.fb.read (startOffset src' + j) = s.fb.read (startOffset src + j)) :
    (sampleDecode src d s = { s with err := 7, errInfo := 0, run := .idle } ∧
      sampleDecode src' d s' = { s' with err := 7, errInfo := 0, run := .idle }) ∨
    (sampleDecode src d s = s.underrun (startOffset src) ∧
      sampleDecode src' d s' = s'.underrun (startOffset src')) ∨
    ∃ stream, sampleDecode src d s = s.decoded d stream ∧ sampleDecode src' d s' = s'.decoded d stream := by
  have hone := d.one_le_words s.cfg.bits
  have hfetch : s'.wordsToFetch (startOffset src') d = s.wordsToFetch (startOffset src) d := by
    rw [State.wordsToFetch, State.wordsToFetch, hbits, hleft]
  have hstream : s'.streamValue (startOffset src') (s'.wordsToFetch (startOffset src') d) =
      s.streamValue (startOffset src) (s.wordsToFetch (startOffset src) d) := by
    have hle := (s.wordsToFetch_le (startOffset src) d).2
    rw [hfetch]
    exact State.memRead_congr _ _ _ fun j hj => hread j (by omega)
  rcases sampleDecode_cases src d s with ⟨h, -⟩ | ⟨-, hnone, e⟩ | ⟨stream, -, hS, hend⟩
  · omega
  all_goals rcases sampleDecode_cases src' d s' with ⟨h', -⟩ | ⟨-, hnone', e'⟩ | ⟨stream', -, hS', hend'⟩
  · omega
  · exact .inl ⟨e, e'⟩
  · simp [hstream, hnone] at hS'
  · omega
  · simp [hstream, hS] at hnone'
  · rw [hstream, hS] at hS'
    cases hS'
    rw [State.DecodeEnds, hbits] at hend'
    rcases hend with ⟨hshort, e⟩ | ⟨hfit, e⟩
    · have hshort' : s'.cnt.toNat < startOffset src' + 2 * d.words s.cfg.bits := by omega
      exact .inr (.inl ⟨e, (hend'.resolve_right fun h => by omega).2⟩)
    · have hfit' : startOffset src' + 2 * d.words s.cfg.bits ≤ s'.cnt.toNat := by omega
      exact .inr (.inr ⟨stream, e, (hend'.resolve_left fun h => by omega).2⟩)

/-- Settles O41: the same mode, `CNT` and bytes below it give the same stream. -/
theorem decodeIsAFunctionOfItsInputs : Obligations.DecodeIsAFunctionOfItsInputs := by
  intro src d s s' t t' hbits hcnt hc hc' hread ht ht'
  rw [exec_decodeCommand] at ht ht'
  cases ht
  cases ht'
  rcases sampleDecode_sameStream (src := src) (src' := src) (d := d) hbits hc hc' (by rw [hcnt])
    (fun j hj => hread _ hj) with ⟨e, e'⟩ | ⟨e, e'⟩ | ⟨stream, e, e'⟩ <;> rw [e, e']
  · exact ⟨rfl, rfl, fun h => absurd rfl h⟩
  · refine ⟨rfl, ?_, fun _ => ⟨rfl, rfl, rfl, rfl, rfl, rfl, rfl, rfl⟩⟩
    rw [State.underrun, State.underrun, hcnt]
    rfl
  · refine ⟨rfl, rfl, fun _ => ⟨?_, rfl, rfl, rfl, rfl, rfl, rfl, rfl⟩⟩
    rw [State.decoded, State.decoded, hbits]

/-- Settles O42: the buffer 25 bytes on holds the same stream; with fewer than 25 bytes there is no word to fetch. -/
theorem liveDecodeIsReplayDecodeTwentyFiveBytesOn : Obligations.LiveDecodeIsReplayDecodeTwentyFiveBytesOn := by
  have hlive : startOffset .live = 25 := rfl
  have hreplay : startOffset .replay = 0 := rfl
  refine ⟨fun nr nc nt s s' t t' hbits h25 hcnt hc hc' hread ht ht' => ?_, fun nr nc nt s hcnt => ?_⟩
  · cases ht
    cases ht'
    have hcases := sampleDecode_sameStream (src := .live) (src' := .replay) (d := ⟨nr, nc, nt⟩) hbits hc hc'
      (by rw [hcnt, hlive, hreplay, Nat.sub_zero]) fun j hj => by
        rw [hlive, hreplay, Nat.zero_add, Nat.add_comm 25]
        exact hread j (by omega)
    rcases hcases with ⟨e, e'⟩ | ⟨e, e'⟩ | ⟨stream, e, e'⟩ <;> rw [e, e']
    · exact ⟨rfl, fun h => absurd rfl h, fun h => absurd (show (7 : BitVec 4) = 2 from h) (by decide), fun _ => rfl⟩
    · refine ⟨rfl, fun _ => ⟨rfl, rfl, rfl⟩, fun _ => ?_, fun h => absurd rfl h⟩
      rw [State.underrun_errInfo_toNat, State.underrun_errInfo_toNat, hlive, hreplay, hcnt]
      omega
    · refine ⟨rfl, fun _ => ⟨?_, rfl, rfl⟩, fun h => absurd (show (0 : BitVec 4) = 2 from h) (by decide), fun _ => rfl⟩
      rw [State.decoded, State.decoded, hbits]
  · have hone := Dim.one_le_words ⟨nr, nc, nt⟩ s.cfg.bits
    have hsize := s.cfg.fbSize_legal
    have hnone : (s.cnt.toNat - startOffset .live) / 2 = 0 := by omega
    have hrun : sampleDecode .live ⟨nr, nc, nt⟩ s = s.underrun 25 :=
      sampleDecode_of_short (by omega) (by omega) (by simp [hnone])
    refine ⟨_, congrArg Host.Outcome.next hrun, rfl, BitVec.eq_of_toNat_eq ?_⟩
    exact (s.underrun_errInfo_toNat .live).trans (by rw [hnone]; rfl)

/-! ### The walk step by step (R158, R5) -/

/-- A machine that answers a next state runs on from there. -/
theorem coreRun_succ_of_step {M : Host.Core} {s t : M.State} (k : Nat) (h : M.step s = .next t) :
    M.run (k + 1) s = M.run k t := by
  rw [Host.Core.run, h]

/-- With nothing at the ports, the machine's steps are those of the walk, which it leaves only in `IDLE`. -/
theorem coreRun_eq_runWalk {d : Dim} (k : Nat) {n : Nat} {s : State} (hi : s.inputs = [])
    (h : s.run = .idle ∨ s.WalkAt d n) : Host.Core.run Sys2Proof.core k s = .next (runWalk k s) := by
  induction k generalizing n s with
  | zero => rfl
  | succ k ih =>
    rcases h with hidle | hwalk
    · have hstep : step s = .next s := idleBlockWithNoInputStaysAsItIs s hidle hi
      rw [coreRun_succ_of_step (M := Sys2Proof.core) k hstep, ih (n := n) hi (.inl hidle), runWalk_idle _ hidle,
        runWalk_idle _ hidle]
    · obtain ⟨w, hw, -⟩ := hwalk.work
      have hstep : step s = .next (walkStep s) := by
        rw [step_nil hi]
        simp only [undisturbed, hwalk.run, hwalk.dim, hw]
      rw [coreRun_succ_of_step (M := Sys2Proof.core) k hstep, runWalk_busy k hwalk.run]
      exact ih ((walkStep_keepsHostSide s).inputs.trans hi) ((walkStep_walkAt hwalk).imp_left State.Ended.run)

/-- Settles O43. -/
theorem stepwiseDecodeIsTheAtomicDecode : Obligations.StepwiseDecodeIsTheAtomicDecode := by
  intro src d s hi
  rw [exec_decodeCommand, sampleDecode]
  exact coreRun_eq_runWalk d.components ((beginDecode_keepsHostSide src d s).inputs.trans hi)
    ((beginDecode_walkAt src d s).imp_left And.left)

/-! ### The round trip of the packer (R161) -/

/-- A component that lies in the low `k` bits of a value does not depend on the bits above (R99). -/
theorem componentAt_mod_two_pow {bits n k : Nat} (h : (n + 1) * bits ≤ k) (v : Nat) :
    componentAt bits (v % 2 ^ k) n = componentAt bits v n := by
  have hk : k = n * bits + (k - n * bits) := by rw [Nat.succ_mul] at h; omega
  have hle : bits ≤ k - n * bits := by rw [Nat.succ_mul] at h; omega
  rw [componentAt, componentAt, hk, pow_add, Nat.mod_mul_right_div_self, Nat.mod_mod_of_dvd _ (pow_dvd_pow 2 hle)]

/-- Sign extension undoes the cut of a component to its width (R148, R161). -/
theorem signExtend_emod {bits : Nat} {v : Int} (hb : 1 ≤ bits) (hv : componentFits bits v = true) :
    signExtend bits (v % 2 ^ bits).toNat = v := by
  obtain ⟨b, rfl⟩ : ∃ b, bits = b + 1 := ⟨bits - 1, by omega⟩
  obtain ⟨hlo, hhi⟩ := (componentFits_iff _ v).1 hv
  have hpow : (2 : Int) ^ (b + 1) = 2 * 2 ^ b := by rw [pow_succ]; ring
  have hcast : ((2 ^ b : Nat) : Int) = 2 ^ b := by push_cast; rfl
  have hcast' : ((2 ^ (b + 1) : Nat) : Int) = 2 ^ (b + 1) := by push_cast; rfl
  rw [Nat.add_sub_cancel] at hlo hhi
  rcases lt_or_ge v 0 with hneg | hpos
  · have hmod : v % 2 ^ (b + 1) = v + 2 ^ (b + 1) := by
      rw [← Int.add_emod_right, Int.emod_eq_of_lt (by omega) (by omega)]
    rw [hmod, signExtend_of_le (by omega) (by rw [Nat.add_sub_cancel]; omega)]
    omega
  · have hmod : v % 2 ^ (b + 1) = v := Int.emod_eq_of_lt hpos (by omega)
    rw [hmod, signExtend_of_lt (by rw [Nat.add_sub_cancel]; omega)]
    omega

/-- A component cut to its width is below `2^B`. -/
theorem toNat_emod_lt (bits : Nat) (v : Int) : (v % 2 ^ bits).toNat < 2 ^ bits := by
  have hpos : (0 : Int) < 2 ^ bits := by positivity
  have hcast : ((2 ^ bits : Nat) : Int) = 2 ^ bits := by push_cast; rfl
  have hlt := Int.emod_lt_of_pos v hpos
  have hnonneg := Int.emod_nonneg v hpos.ne'
  omega

/-- The lowest component of a value. -/
theorem componentAt_zero_add {bits lo : Nat} (h : lo < 2 ^ bits) (hi : Nat) :
    componentAt bits (lo + 2 ^ bits * hi) 0 = signExtend bits lo := by
  rw [componentAt, Nat.zero_mul, pow_zero, Nat.div_one, Nat.add_mul_mod_self_left, Nat.mod_eq_of_lt h]

/-- The components above the lowest are those of the value above it. -/
theorem componentAt_succ_add {bits lo : Nat} (h : lo < 2 ^ bits) (hi n : Nat) :
    componentAt bits (lo + 2 ^ bits * hi) (n + 1) = componentAt bits hi n := by
  rw [componentAt, componentAt, Nat.succ_mul, Nat.add_comm (n * bits), pow_add, ← Nat.div_div_eq_div_mul,
    Nat.add_mul_div_left _ _ (by positivity), Nat.div_eq_of_lt h, Nat.zero_add]

/-- Packing in steps: the first sample's imaginary part, its real part, and the samples after it (R100, R161). -/
theorem packValue_cons_add (bits : Nat) (x : Sample) (xs : List Sample) (filler : Nat) :
    packValue bits (x :: xs) + filler * 2 ^ (2 * (x :: xs).length * bits) =
      (x.im % 2 ^ bits).toNat + 2 ^ bits * ((x.re % 2 ^ bits).toNat +
        2 ^ bits * (packValue bits xs + filler * 2 ^ (2 * xs.length * bits))) := by
  have hpow : 2 ^ (2 * (x :: xs).length * bits) = 2 ^ bits * (2 ^ bits * 2 ^ (2 * xs.length * bits)) := by
    rw [← pow_add, ← pow_add, List.length_cons]
    congr 1
    ring
  rw [packValue, hpow, show 2 * bits = bits + bits by ring, pow_add]
  ring

/-- Sample `i` of packed samples, under any filler above them, is sample `i`, by induction on the samples. -/
theorem sampleAt_packValue {bits : Nat} (hb : 1 ≤ bits) {xs : List Sample}
    (hfits : ∀ x ∈ xs, x.fits bits = true) (filler : Nat) {i : Nat} (hi : i < xs.length) :
    xs[i]? = some (sampleAt bits (packValue bits xs + filler * 2 ^ (2 * xs.length * bits)) i) := by
  induction xs generalizing i with
  | nil => simp at hi
  | cons x xs ih =>
    rw [packValue_cons_add, sampleAt]
    cases i with
    | zero =>
      have hx := hfits x List.mem_cons_self
      simp only [Sample.fits, Bool.and_eq_true] at hx
      rw [Nat.mul_zero, Nat.zero_add, componentAt_succ_add (toNat_emod_lt bits x.im),
        componentAt_zero_add (toNat_emod_lt bits x.im), componentAt_zero_add (toNat_emod_lt bits x.re),
        signExtend_emod hb hx.1, signExtend_emod hb hx.2, List.getElem?_cons_zero]
    | succ i =>
      have hrest := ih (fun y hy => hfits y (List.mem_cons_of_mem _ hy)) (by simpa using hi)
      rw [Nat.mul_succ, componentAt_succ_add (toNat_emod_lt bits x.im), componentAt_succ_add (toNat_emod_lt bits x.re),
        componentAt_succ_add (toNat_emod_lt bits x.im), componentAt_succ_add (toNat_emod_lt bits x.re),
        List.getElem?_cons_succ]
      exact hrest

/-- The bytes of a value, read back, are the value cut to their number (R63, R161). -/
theorem State.memRead_of_packByte {s : State} {a n v : Nat}
    (h : ∀ j, j < n → s.fb.read (a + j) = some (packByte v j)) : s.memRead a n = some (v % 2 ^ (8 * n)) := by
  induction n with
  | zero => simp [Nat.mod_one]
  | succ n ih =>
    rw [State.memRead_add, ih fun j hj => h j (by omega), Option.bind_some, State.memRead_one (h n (by omega)),
      Option.map_some, pow_256, packByte, BitVec.toNat_ofNat, Nat.mul_succ, pow_add, Nat.mod_mul]

/-- Settles O44: the `DECODE` completes on the packed stream, and each entry is the sample of its number. -/
theorem decodeOfPackedSamplesReturnsThem : Obligations.DecodeOfPackedSamplesReturnsThem := by
  intro src d s xs filler hlen hfits hc hfit hbytes
  have hS := State.memRead_of_packByte hbytes
  refine ⟨_, by rw [exec_decodeCommand, sampleDecode_of_fits hc hfit hS], rfl, fun p k hp hk => ?_⟩
  have hnum := Dim.sampleNumber_lt hp hk
  have hroom : ∀ n, n < d.components → (n + 1) * s.cfg.bits ≤ 8 * (2 * d.words s.cfg.bits) := fun n hn => by
    calc (n + 1) * s.cfg.bits ≤ d.components * s.cfg.bits := Nat.mul_le_mul_right _ hn
      _ ≤ 8 * (2 * d.words s.cfg.bits) := by
        have := d.components_mul_le s.cfg.bits
        omega
  have hsample := sampleAt_packValue s.cfg.bits_legal.1 hfits filler (hlen ▸ hnum)
  rw [hlen, ← Dim.components] at hsample
  refine (read_storedSamples_entry s.cfg.bits _ hp hk).trans ?_
  refine Eq.trans ?_ hsample.symm
  rw [sampleAt, sampleAt,
    componentAt_mod_two_pow (hroom _ (by rw [Dim.components]; omega)),
    componentAt_mod_two_pow (hroom _ (by rw [Dim.components]; omega))]

end Sys2Proof.Machine
end

section
/-! SUPPORT. Family `43_amplitude_analyzer`: the power of a sample (O47) and the decibels it stands for (O48); stability as
one inequality between powers (O54, O55) and as a range of decibels (O52); what `MAGDB` and `STAB` compute (O49, O50, O53),
and from which stores (O56). -/

namespace Sys2Proof.Machine

/-! ### The power of a sample (R181) -/

/-- The power is the exact sum of squares: no sum of squares is cut off at 0 (R181). -/
theorem Sample.power_eq (x : Sample) : (x.power : Int) = x.re * x.re + x.im * x.im :=
  Int.toNat_of_nonneg (add_nonneg (mul_self_nonneg x.re) (mul_self_nonneg x.im))

theorem Sample.power_eq_real (x : Sample) : (x.power : ℝ) = (x.re : ℝ) ^ 2 + (x.im : ℝ) ^ 2 := by
  have h := congrArg (Int.cast : Int → ℝ) x.power_eq
  push_cast at h
  rw [h, sq, sq]

theorem Sample.power_eq_zero (x : Sample) : x.power = 0 ↔ x.re = 0 ∧ x.im = 0 := by
  rw [← Int.natCast_eq_zero, x.power_eq, mul_self_add_mul_self_eq_zero]

/-- The square of a component is at most that of the least one, `-2^(B-1)` (R34). -/
theorem mul_self_le_of_componentFits {bits : Nat} {v : Int} (h : componentFits bits v = true) :
    v * v ≤ 2 ^ (bits - 1) * 2 ^ (bits - 1) := by
  obtain ⟨hlo, hhi⟩ := (componentFits_iff bits v).1 h
  exact abs_le_iff_mul_self_le.1 ((abs_le.2 ⟨hlo, hhi.le⟩).trans (le_abs_self _))

/-- Two such squares make at most `2^(2B-1)` (R181, R291). -/
theorem Sample.power_le {bits : Nat} {x : Sample} (hb : 1 ≤ bits) (h : x.fits bits = true) :
    x.power ≤ 2 ^ (2 * bits - 1) := by
  obtain ⟨b, rfl⟩ := Nat.exists_eq_add_of_le' hb
  simp only [Sample.fits, Bool.and_eq_true] at h
  obtain ⟨hre, him⟩ := h
  have hpow : (2 : Int) ^ (2 * (b + 1) - 1) = 2 ^ b * 2 ^ b + 2 ^ b * 2 ^ b := by
    rw [show 2 * (b + 1) - 1 = b + b + 1 by omega, pow_succ, pow_add, mul_two]
  zify
  rw [x.power_eq, hpow]
  exact add_le_add (mul_self_le_of_componentFits hre) (mul_self_le_of_componentFits him)

/-- Settles O47. -/
theorem powerIsExactAndBounded : Obligations.PowerIsExactAndBounded :=
  fun _ x hb h => ⟨x.power_eq, Sample.power_le hb h, x.power_eq_zero⟩

/-! ### Decibels (R183, R184) -/

theorem isDecibel_zero_iff (dbMin d : ℝ) : IsDecibel dbMin 0 d ↔ d = dbMin := by simp [IsDecibel]

theorem isDecibel_iff_of_pos {p : Nat} (hp : 0 < p) (dbMin d : ℝ) :
    IsDecibel dbMin p d ↔ d = 10 * Real.logb 10 p := by simp [IsDecibel, hp, hp.ne']

/-- A power of at least 1 has at least 0 dB. -/
theorem IsDecibel.nonneg {dbMin d : ℝ} {p : Nat} (hp : 0 < p) (h : IsDecibel dbMin p d) : 0 ≤ d := by
  rw [(isDecibel_iff_of_pos hp dbMin d).1 h]
  have hone : (1 : ℝ) ≤ p := by exact_mod_cast hp
  have := Real.logb_nonneg (b := 10) (by norm_num) hone
  positivity

/-- Decibels rise with the power; `DB_MIN` is below them all (R184). -/
theorem IsDecibel.lt_of_lt {dbMin d e : ℝ} {p q : Nat} (hmin : LegalDbMin dbMin) (hd : IsDecibel dbMin p d)
    (he : IsDecibel dbMin q e) (hpq : p < q) : d < e := by
  have hq : 0 < q := Nat.zero_lt_of_lt hpq
  rcases Nat.eq_zero_or_pos p with rfl | hp
  · have hneg : dbMin < -255 := hmin
    have := he.nonneg hq
    rw [(isDecibel_zero_iff dbMin d).1 hd]
    linarith
  · rw [(isDecibel_iff_of_pos hp dbMin d).1 hd, (isDecibel_iff_of_pos hq dbMin e).1 he]
    have := Real.logb_lt_logb (b := 10) (by norm_num) (Nat.cast_pos.2 hp) (Nat.cast_lt.2 hpq)
    linarith

/-- A power has one dB value. -/
theorem IsDecibel.unique {dbMin d e : ℝ} {p : Nat} (hd : IsDecibel dbMin p d) (he : IsDecibel dbMin p e) : d = e := by
  rcases Nat.eq_zero_or_pos p with rfl | hp
  · exact ((isDecibel_zero_iff dbMin d).1 hd).trans ((isDecibel_zero_iff dbMin e).1 he).symm
  · exact ((isDecibel_iff_of_pos hp dbMin d).1 hd).trans ((isDecibel_iff_of_pos hp dbMin e).1 he).symm

theorem IsDecibel.le_of_le {dbMin d e : ℝ} {p q : Nat} (hmin : LegalDbMin dbMin) (hd : IsDecibel dbMin p d)
    (he : IsDecibel dbMin q e) (hpq : p ≤ q) : d ≤ e := by
  rcases hpq.eq_or_lt with rfl | hlt
  · exact (hd.unique he).le
  · exact (hd.lt_of_lt hmin he hlt).le

/-- Of the non-zero powers only 1 has 0 dB: it has, and decibels rise. -/
theorem IsDecibel.eq_zero_iff {dbMin d : ℝ} {p : Nat} (hmin : LegalDbMin dbMin) (hp : 0 < p) (h : IsDecibel dbMin p d) :
    d = 0 ↔ p = 1 := by
  have hone : IsDecibel dbMin 1 0 := (isDecibel_iff_of_pos one_pos dbMin 0).2 (by simp)
  constructor
  · rintro rfl
    refine (Nat.succ_le_of_lt hp).eq_or_lt.elim Eq.symm fun hlt => ?_
    exact absurd (hone.lt_of_lt hmin h hlt) (lt_irrefl 0)
  · rintro rfl
    exact h.unique hone

/-- `20 * log10(|x|)` is `10 * log10` of the power (R182, R183). -/
theorem Sample.isDecibel_power {x : Sample} (hx : 0 < x.power) (dbMin : ℝ) :
    IsDecibel dbMin x.power (20 * Real.logb 10 (Real.sqrt ((x.re : ℝ) ^ 2 + (x.im : ℝ) ^ 2))) := by
  rw [isDecibel_iff_of_pos hx, ← x.power_eq_real, Real.logb, Real.logb, Real.log_sqrt (Nat.cast_nonneg _)]
  ring

/-- Settles O48. -/
theorem powerStandsForTheDecibelValue : Obligations.PowerStandsForTheDecibelValue :=
  fun dbMin hmin => ⟨fun _ hx => Sample.isDecibel_power hx dbMin, (isDecibel_zero_iff dbMin dbMin).2 rfl,
    fun _ _ hp h => ⟨h.nonneg hp, h.eq_zero_iff hmin hp⟩, fun _ _ _ _ hd he hpq => hd.lt_of_lt hmin he hpq⟩

/-! ### Stability as one inequality (R191) -/

/-- The largest power is a member of the stream that none exceeds. -/
theorem maxPower_eq_iff {ps : List Nat} (hps : ps ≠ []) (hi : Nat) :
    maxPower ps = hi ↔ hi ∈ ps ∧ ∀ p ∈ ps, p ≤ hi := by
  have hmax : ps.max? = some (maxPower ps) := by
    cases ps with
    | nil => exact absurd rfl hps
    | cons p ps => rw [List.max?_cons', maxPower, List.foldl_cons, Nat.zero_max]
  rw [← List.max?_eq_some_iff, hmax, Option.some.injEq]

/-- The least power is a member of the stream that none is below. -/
theorem minPower_eq_iff {ps : List Nat} (hps : ps ≠ []) (lo : Nat) :
    minPower ps = lo ↔ lo ∈ ps ∧ ∀ p ∈ ps, lo ≤ p := by
  have hmin : ps.min? = some (minPower ps) := by
    cases ps with
    | nil => exact absurd rfl hps
    | cons p ps => rw [List.min?_cons', minPower]
  rw [← List.min?_eq_some_iff, hmin, Option.some.injEq]

/-- The three cases of R191 are one: the inequality between the largest power and the least holds when both are zero, and
fails when only the least is. -/
theorem stableStream_of_extremes {ps : List Nat} {hi lo : Nat} (thr : Nat) (hhi : hi ∈ ps) (hlo : lo ∈ ps)
    (hall : ∀ p ∈ ps, lo ≤ p ∧ p ≤ hi) :
    stableStream thr ps = some (decide (hi ^ 10 ≤ 10 ^ thr * lo ^ 10)) := by
  have hps : ps ≠ [] := List.ne_nil_of_mem hhi
  have hmax : maxPower ps = hi := (maxPower_eq_iff hps hi).2 ⟨hhi, fun p hp => (hall p hp).2⟩
  have hmin : minPower ps = lo := (minPower_eq_iff hps lo).2 ⟨hlo, fun p hp => (hall p hp).1⟩
  rw [stableStream, if_neg (by simpa using hps), hmax, hmin]
  split_ifs with hzero hmixed
  · simp only [List.all_eq_true, beq_iff_eq] at hzero
    simp [hzero hi hhi]
  · simp only [List.any_eq_true, beq_iff_eq] at hmixed
    obtain ⟨p, hp, rfl⟩ := hmixed
    have hlo0 : lo = 0 := Nat.le_zero.1 (hall 0 hp).1
    have hhi0 : hi ≠ 0 := by
      rintro rfl
      exact hzero (List.all_eq_true.2 fun p hp => beq_iff_eq.2 (Nat.le_zero.1 (hall p hp).2))
    simp [hlo0, hhi0]
  · rfl

/-- Every non-empty stream has a largest and a least power. -/
theorem exists_extremes {ps : List Nat} (hps : ps ≠ []) :
    ∃ hi ∈ ps, ∃ lo ∈ ps, ∀ p ∈ ps, lo ≤ p ∧ p ≤ hi := by
  obtain ⟨hhi, hle⟩ := (maxPower_eq_iff hps _).1 rfl
  obtain ⟨hlo, hge⟩ := (minPower_eq_iff hps _).1 rfl
  exact ⟨_, hhi, _, hlo, fun p hp => ⟨hge p hp, hle p hp⟩⟩

/-- Settles O54: all zero, both extremes are zero; mixed, only the least is; of one tone, they are the same. -/
theorem zeroSamplesInAStream : Obligations.ZeroSamplesInAStream := by
  intro thr ps hps
  refine ⟨fun hzero => ?_, fun hsome hother => ?_, fun hone => ?_⟩
  · obtain ⟨p, hp⟩ := List.exists_mem_of_ne_nil ps hps
    obtain rfl := hzero p hp
    rw [stableStream_of_extremes thr hp hp fun q hq => by simp [hzero q hq]]
    simp
  · obtain ⟨hi, hhi, lo, hlo, hall⟩ := exists_extremes hps
    obtain ⟨p, hp, rfl⟩ := hsome
    obtain ⟨q, hq, hq0⟩ := hother
    have hlo0 : lo = 0 := Nat.le_zero.1 (hall 0 hp).1
    have hhi0 : hi ≠ 0 := by have := hall q hq; omega
    rw [stableStream_of_extremes thr hhi hlo hall]
    simp [hlo0, hhi0]
  · obtain ⟨p, rfl⟩ := List.length_eq_one_iff.1 hone
    rw [stableStream_of_extremes thr (List.mem_singleton_self p) (List.mem_singleton_self p) (by simp),
      decide_eq_true (Nat.le_mul_of_pos_left _ (by positivity))]

/-- Settles O55: at 20 both sides are tenth powers. -/
theorem thresholdTwentyIsAHundredfoldPower : Obligations.ThresholdTwentyIsAHundredfoldPower := by
  intro ps hi lo hhi hlo hall _
  have hpow : 10 ^ 20 * lo ^ 10 = (100 * lo) ^ 10 := by rw [mul_pow]; norm_num
  rw [stableStream_of_extremes 20 hhi hlo hall, hpow]
  simp only [Nat.pow_le_pow_iff_left (n := 10) (by decide)]

/-! ### Stability as a range of decibels (R187) -/

/-- The range is the distance of the extremes. -/
theorem rangeAtMost_iff {ds : List ℝ} {h l : ℝ} (hh : h ∈ ds) (hl : l ∈ ds) (hall : ∀ d ∈ ds, l ≤ d ∧ d ≤ h) (thr : ℝ) :
    RangeAtMost ds thr ↔ h - l ≤ thr := by
  constructor
  · rintro ⟨h', hh', l', hl', hall', hle⟩
    have := (hall' h hh).2
    have := (hall' l hl).1
    linarith
  · exact fun hle => ⟨h, hh, l, hl, hall, hle⟩

/-- Ten times the difference of two logarithms is at most `thr` when the tenth powers are within the factor `10^thr`. -/
theorem decibel_range_le_iff_of_pos {hi lo : Nat} (hhi : 0 < hi) (hlo : 0 < lo) (thr : Nat) :
    10 * Real.logb 10 hi - 10 * Real.logb 10 lo ≤ thr ↔ hi ^ 10 ≤ 10 ^ thr * lo ^ 10 := by
  have hleft : Real.logb 10 ((hi ^ 10 : Nat) : ℝ) = 10 * Real.logb 10 hi := by
    rw [Nat.cast_pow, Real.logb_pow, Nat.cast_ofNat]
  have hright : Real.logb 10 ((10 ^ thr * lo ^ 10 : Nat) : ℝ) = thr + 10 * Real.logb 10 lo := by
    rw [Nat.cast_mul, Nat.cast_pow, Nat.cast_pow, Real.logb_mul (by positivity) (by positivity), Real.logb_pow,
      Real.logb_pow, Nat.cast_ofNat, Real.logb_self_eq_one (by norm_num), mul_one]
  have hmono : Real.logb 10 ((hi ^ 10 : Nat) : ℝ) ≤ Real.logb 10 ((10 ^ thr * lo ^ 10 : Nat) : ℝ) ↔
      hi ^ 10 ≤ 10 ^ thr * lo ^ 10 :=
    (Real.logb_le_logb (by norm_num) (Nat.cast_pos.2 (by positivity)) (Nat.cast_pos.2 (by positivity))).trans
      Nat.cast_le
  rw [← hmono, hleft, hright, sub_le_iff_le_add]

/-- With `DB_MIN` further below 0 than any threshold, the same holds of zero powers (R184, R191). -/
theorem IsDecibel.range_le_iff {dbMin h l : ℝ} {thr hi lo : Nat} (hmin : LegalDbMin dbMin) (hthr : thr ≤ 255)
    (hle : lo ≤ hi) (hh : IsDecibel dbMin hi h) (hl : IsDecibel dbMin lo l) :
    h - l ≤ thr ↔ hi ^ 10 ≤ 10 ^ thr * lo ^ 10 := by
  rcases Nat.eq_zero_or_pos hi with rfl | hhi
  · obtain rfl := Nat.le_zero.1 hle
    simp [hh.unique hl]
  · rcases Nat.eq_zero_or_pos lo with rfl | hlo
    · have hfar : (thr : ℝ) < h - l := by
        have hbelow : dbMin < -255 := hmin
        have hthr' : (thr : ℝ) ≤ 255 := by exact_mod_cast hthr
        rw [(isDecibel_zero_iff dbMin l).1 hl]
        linarith [hh.nonneg hhi]
      simp [hfar.not_ge, hhi.ne']
    · rw [(isDecibel_iff_of_pos hhi dbMin h).1 hh, (isDecibel_iff_of_pos hlo dbMin l).1 hl,
        decibel_range_le_iff_of_pos hhi hlo]

/-- Each member of the first of two lists related member by member has its partner. -/
theorem exists_related_of_mem {α β : Type} {R : α → β → Prop} {as : List α} {bs : List β} (h : List.Forall₂ R as bs)
    {a : α} (ha : a ∈ as) : ∃ b ∈ bs, R a b := by
  induction h with
  | nil => simp at ha
  | cons hr _ ih =>
    rcases List.mem_cons.1 ha with rfl | ha
    · exact ⟨_, List.mem_cons_self, hr⟩
    · obtain ⟨b, hb, hab⟩ := ih ha
      exact ⟨b, List.mem_cons_of_mem _ hb, hab⟩

/-- Settles O52: the dB values of the extreme powers are the extreme dB values. -/
theorem integerStabilityIsRealStability : Obligations.IntegerStabilityIsRealStability := by
  intro dbMin thr ps ds hmin hthr hps hdb
  obtain ⟨hi, hhi, lo, hlo, hall⟩ := exists_extremes hps
  obtain ⟨h, hh, hih⟩ := exists_related_of_mem hdb hhi
  obtain ⟨l, hl, hlol⟩ := exists_related_of_mem hdb hlo
  have hbounds : ∀ d ∈ ds, l ≤ d ∧ d ≤ h := by
    intro d hd
    obtain ⟨p, hp, hpd⟩ := exists_related_of_mem hdb.flip hd
    obtain ⟨hlop, hphi⟩ := hall p hp
    exact ⟨hlol.le_of_le hmin hpd hlop, IsDecibel.le_of_le hmin hpd hih hphi⟩
  refine ⟨_, stableStream_of_extremes thr hhi hlo hall, ?_⟩
  rw [decide_eq_true_iff, rangeAtMost_iff hh hl hbounds, hih.range_le_iff hmin hthr (hall lo hlo).2 hlol]

/-! ### `MAGDB` (R180, R185) -/

theorem Dim.holds_eq_true_iff (d : Dim) (key : Nat) :
    d.holds key = true ↔ key / 256 < d.streams ∧ key % 256 < d.tones := by simp [Dim.holds]

theorem Dim.holds_entryKey {d : Dim} {p k : Nat} (hp : p < d.streams) (hk : k < d.tones) :
    d.holds (entryKey p k) = true := by
  have hk' := hk.trans d.tones_lt
  rw [d.holds_eq_true_iff, entryKey_div p hk', entryKey_mod p hk']
  exact ⟨hp, hk⟩

/-- All samples of the stream order have an entry exactly when all entries of the shape do (R34, R101). -/
theorem Memory.covers_samples_iff {α : Type} (d : Dim) (m : Memory α) :
    m.covers d d.samples = true ↔ ∀ p k, p < d.streams → k < d.tones → (m.read (entryKey p k)).isSome = true := by
  rw [Memory.covers_iff]
  constructor
  · intro h p k hp hk
    rw [← Dim.sampleKey_sampleNumber hp k]
    exact h _ (Dim.sampleNumber_lt hp hk)
  · intro h n hn
    have hpos : 0 < d.streams := Nat.pos_of_mul_pos_right (Nat.zero_lt_of_lt hn)
    exact h _ _ (Nat.mod_lt _ hpos) (Nat.div_lt_of_lt_mul hn)

theorem Memory.read_mapShape_entry {α β : Type} {d : Dim} {p k : Nat} (f : α → β) (m : Memory α) (hp : p < d.streams)
    (hk : k < d.tones) : (m.mapShape d f).read (entryKey p k) = (m.read (entryKey p k)).map f := by
  rw [Memory.read_mapShape, if_pos (Dim.holds_entryKey hp hk)]

/-- Settles O49: of the outcomes of `MAGDB` only completion is left, with the image of the matrix under the power. -/
theorem magdbComputesEveryPower : Obligations.MagdbComputesEveryPower := by
  intro s d hsmv hd hheld
  have hcov : s.sm.covers d d.samples = true := (Memory.covers_samples_iff d s.sm).2 hheld
  refine ⟨s.sm.mapShape d Sample.power, ?_, fun p k hp hk => Memory.read_mapShape_entry Sample.power s.sm hp hk,
    fun key hkey => ?_⟩
  · rcases magnitudes_cases s with ⟨hwhy, -⟩ | ⟨d', -, hd', -, e⟩
    · simp [hsmv, hd, hcov] at hwhy
    · cases hd.symm.trans hd'
      exact congrArg Host.Outcome.next e
  · rw [Memory.read_mapShape, if_neg (mt (d.holds_eq_true_iff key).1 hkey)]

/-! ### `STAB` (R186, R190) -/

/-- The values of a stream are the entries of its tones, in order (R185). -/
theorem streamPowers_eq_some_iff {d : Dim} {m : Memory Nat} {p : Nat} {ps : List Nat} :
    streamPowers d m p = some ps ↔
      ps.length = d.tones ∧ ∀ k, k < d.tones → m.read (entryKey p k) = ps[k]? := by
  rw [streamPowers, collect_eq_some]
  constructor
  · intro h
    have hlen : ps.length = d.tones := by simpa using (congrArg List.length h).symm
    refine ⟨hlen, fun k hk => ?_⟩
    have hk' := congrArg (·[k]?) h
    simpa [hk, hlen] using hk'
  · rintro ⟨hlen, hread⟩
    refine List.ext_getElem (by simp [hlen]) fun k hk _ => ?_
    have hk' : k < d.tones := by simpa using hk
    simp [hread k hk', hlen, hk']

/-- A stream of at least one tone with all its entries has values, and so a flag (R187). -/
theorem streamFlag_of_held {d : Dim} {m : Memory Nat} {p : Nat} (thr : Nat) (ht : 0 < d.tones)
    (hheld : ∀ k, k < d.tones → (m.read (entryKey p k)).isSome = true) :
    ∃ ps flag, streamPowers d m p = some ps ∧ stableStream thr ps = some flag ∧ streamFlag thr d m p = some flag := by
  cases hps : streamPowers d m p with
  | none =>
    obtain ⟨k, hk, hnone⟩ := (collect_eq_none _ _).1 hps
    have := hheld k (List.mem_range.1 hk)
    simp [hnone] at this
  | some ps =>
    have hlen := (streamPowers_eq_some_iff.1 hps).1
    have hne : ps ≠ [] := List.ne_nil_of_length_pos (by omega)
    obtain ⟨flag, hflag⟩ := Option.isSome_iff_exists.1 ((stableStream_isSome thr ps).2 hne)
    exact ⟨ps, flag, rfl, hflag, by simp only [streamFlag, hps, hflag]⟩

/-- With every entry held and no empty stream there is a stability vector (R190). -/
theorem stabilityVector_of_held {d : Dim} {m : Memory Nat} (thr : Nat) (hne : d.streams = 0 ∨ 0 < d.tones)
    (hheld : ∀ p k, p < d.streams → k < d.tones → (m.read (entryKey p k)).isSome = true) :
    ∃ flags, stabilityVector thr d m = some flags := by
  cases hv : stabilityVector thr d m with
  | some flags => exact ⟨flags, rfl⟩
  | none =>
    obtain ⟨p, hp, hnone⟩ := (collect_eq_none _ _).1 hv
    have hp' := List.mem_range.1 hp
    obtain ⟨_, flag, -, -, hflag⟩ := streamFlag_of_held thr (by omega) fun k => hheld p k hp'
    simp [hflag] at hnone

/-- Settles O50: of the outcomes of `STAB` only completion is left, with the flag of each stream at its index. -/
theorem stabComputesOneFlagPerStream : Obligations.StabComputesOneFlagPerStream := by
  intro s d thr hdbv hd hne hheld
  obtain ⟨flags, hflags⟩ := stabilityVector_of_held thr.toNat hne hheld
  refine ⟨flags, ?_, fun p hp => ?_, fun p hp => ?_⟩
  · rcases stability_cases thr.toNat s with ⟨hwhy, -⟩ | ⟨d', -, hd', hempty, -⟩ | ⟨d', flags', -, hd', -, hflags', e⟩
    · simp [hdbv, hd, hflags] at hwhy
    · cases hd.symm.trans hd'
      omega
    · cases hd.symm.trans hd'
      cases hflags.symm.trans hflags'
      exact congrArg Host.Outcome.next e
  · obtain ⟨ps, flag, hps, hstable, hflag⟩ := streamFlag_of_held thr.toNat (by omega) fun k => hheld p k hp
    obtain ⟨hlen, hread⟩ := streamPowers_eq_some_iff.1 hps
    exact ⟨ps, flag, hlen, hread, hstable, by rw [read_stabilityVector hflags, if_pos hp, hflag]⟩
  · rw [read_stabilityVector hflags, if_neg (by omega)]

/-! ### `STAB` on the samples (R186, R187) -/

/-- In a run, with `DBV = 1`, the matrix holds every sample of the shape and `DBM` their powers (R35, R37, R272). -/
theorem State.Inv.decibels {s : State} {d : Dim} (h : s.Inv) (hdbv : s.dbv = true) (hd : s.dim = some d) :
    s.sm.covers d d.samples = true ∧ s.dbm = s.sm.mapShape d Sample.power := by
  simp only [State.Inv, State.inv, Bool.and_eq_true] at h
  obtain ⟨⟨⟨⟨-, hmatrix⟩, hdecibels⟩, -⟩, -⟩ := h
  obtain ⟨hsmv, hdbm⟩ : s.smv = true ∧ s.dbm = s.sm.mapShape d Sample.power := by
    simpa [State.decibelsOk, hdbv, hd] using hdecibels
  have hfull : matrixUpTo s.cfg.bits d d.samples s.sm = true := by
    simpa [State.matrixOk, hsmv, hd] using hmatrix
  exact ⟨((matrixUpTo_iff _ _ _ _).1 hfull).1, hdbm⟩

/-- Settles O53: the values of the stream in `DBM` are the powers of its samples, so the flag of `STAB` (O50) is the range
of their decibels (O52). -/
theorem stabFlagIsTheDecibelRangeOfTheSamples : Obligations.StabFlagIsTheDecibelRangeOfTheSamples := by
  intro s d thr dbMin p xs ds hinv hdbv hd ht hp hmin hlen hxs hds
  obtain ⟨hcov, hdbm⟩ := hinv.decibels hdbv hd
  have hpower : ∀ q k, q < d.streams → k < d.tones →
      s.dbm.read (entryKey q k) = (s.sm.read (entryKey q k)).map Sample.power :=
    fun q k hq hk => by rw [hdbm, Memory.read_mapShape_entry _ _ hq hk]
  have hheld : ∀ q k, q < d.streams → k < d.tones → (s.dbm.read (entryKey q k)).isSome = true :=
    fun q k hq hk => by rw [hpower q k hq hk, Option.isSome_map, (Memory.covers_samples_iff d s.sm).1 hcov q k hq hk]
  obtain ⟨m, hexec, hstreams, -⟩ := stabComputesOneFlagPerStream s d thr hdbv hd (.inr ht) hheld
  obtain ⟨ps, flag, hpslen, hps, hstable, hread⟩ := hstreams p hp
  have hpowers : ps = xs.map Sample.power := by
    refine List.ext_getElem? fun k => ?_
    by_cases hk : k < d.tones
    · calc ps[k]? = s.dbm.read (entryKey p k) := (hps k hk).symm
        _ = xs[k]?.map Sample.power := by rw [hpower p k hp hk]; exact congrArg _ (hxs k hk)
        _ = (xs.map Sample.power)[k]? := List.getElem?_map.symm
    · rw [List.getElem?_eq_none (by omega), List.getElem?_eq_none (by rw [List.length_map]; omega)]
  have hdecibels : List.Forall₂ (IsDecibel dbMin) ps ds := by
    rw [hpowers, List.forall₂_map_left_iff]
    exact hds
  obtain ⟨flag', hstable', hrange⟩ := integerStabilityIsRealStability dbMin thr.toNat ps ds hmin
    (Nat.le_of_lt_succ thr.isLt) (List.ne_nil_of_length_pos (by omega)) hdecibels
  cases hstable.symm.trans hstable'
  exact ⟨_, hexec, flag, hread, hrange⟩

/-! ### What `MAGDB` and `STAB` read (R193) -/

/-- The state with other host inputs (`FB`, `CNT`, `TS_IN`) and another header (`HDR.*`, `HV`), all else as it is. -/
def State.withFrame (s : State) (m : Memory Byte) (c : Word16) (ts : Option Stamp) (h : Header) (v : Bool) : State :=
  { s with fb := m, cnt := c, tsIn := ts, hdr := h, hv := v }

section
variable (s : State) (m : Memory Byte) (c : Word16) (ts : Option Stamp) (h : Header) (v : Bool)

theorem State.withFrame_smv : (s.withFrame m c ts h v).smv = s.smv := rfl
theorem State.withFrame_dbv : (s.withFrame m c ts h v).dbv = s.dbv := rfl
theorem State.withFrame_dim : (s.withFrame m c ts h v).dim = s.dim := rfl
theorem State.withFrame_sm : (s.withFrame m c ts h v).sm = s.sm := rfl
theorem State.withFrame_dbm : (s.withFrame m c ts h v).dbm = s.dbm := rfl

/-- `MAGDB` decides by `SMV`, `DIM` and `SM` alone, and each outcome keeps the rest. -/
theorem magnitudes_withFrame : magnitudes (s.withFrame m c ts h v) = (magnitudes s).withFrame m c ts h v := by
  simp only [magnitudes, State.withFrame_smv, State.withFrame_dim, State.withFrame_sm]
  split
  · next d _ _ =>
    by_cases hcov : s.sm.covers d d.samples
    · simp only [hcov, if_true]
      rfl
    · simp only [hcov]
      rfl
  · rfl

/-- `STAB` decides by `DBV`, `DIM` and `DBM` alone, and each outcome keeps the rest. -/
theorem stability_withFrame (thr : Nat) :
    stability thr (s.withFrame m c ts h v) = (stability thr s).withFrame m c ts h v := by
  simp only [stability, State.withFrame_dbv, State.withFrame_dim, State.withFrame_dbm]
  split
  · split
    · rfl
    · split <;> rfl
  · rfl

end

/-- Settles O56: each command commutes with changing them. -/
theorem analyzerReadsOnlyTheResultStores : Obligations.AnalyzerReadsOnlyTheResultStores :=
  fun s thr m c ts h v =>
    ⟨⟨_, rfl, congrArg Host.Outcome.next (magnitudes_withFrame s m c ts h v)⟩,
      ⟨_, rfl, congrArg Host.Outcome.next (stability_withFrame s m c ts h v thr.toNat)⟩⟩

end Sys2Proof.Machine
end

section
/-! SUPPORT. Family `44_externals`: the bounds check (O46), the Decision Trigger (O57), what stands behind a
reported decision (O59), and that a logged frame replays to what its live decoding gave (O60). -/

namespace Sys2Proof.Machine

/-! ### The bounds check (R222) -/

theorem boundsCheck_eq_true_iff (src : Src) (d : Dim) (s : State) :
    boundsCheck src d s = true ↔ startOffset src + 2 * d.words s.cfg.bits ≤ s.cnt.toNat := decide_eq_true_iff

theorem boundsCheck_eq_false_iff (src : Src) (d : Dim) (s : State) :
    boundsCheck src d s = false ↔ s.cnt.toNat < startOffset src + 2 * d.words s.cfg.bits := by
  rw [boundsCheck, decide_eq_false_iff_not, Nat.not_le]

/-- Settles O46: the check is the bound that tells completion (O37) from underrun (O39). -/
theorem boundsCheckFailsExactlyOnUnderrun : Obligations.BoundsCheckFailsExactlyOnUnderrun := by
  intro src d s hc hheld
  cases hb : boundsCheck src d s with
  | true =>
    have hfit := (boundsCheck_eq_true_iff src d s).1 hb
    obtain ⟨_, hexec⟩ := decodeCompletesWhenTheWordsAreThere src d s hc hfit fun j _ => hheld _ (by omega) (by omega)
    exact ⟨_, hexec, fun _ => rfl, nofun⟩
  | false =>
    have hshort := (boundsCheck_eq_false_iff src d s).1 hb
    obtain ⟨_, -, hexec⟩ := decodeUnderrunLeavesNoData src d s hc hshort fun j _ => hheld _ (by omega) (by omega)
    exact ⟨_, hexec, nofun, fun _ => rfl⟩

/-! ### The Decision Trigger (R210, R211) -/

/-- There is a decision exactly for a valid vector of at least `K_TRIG >= 1` flags. -/
theorem decision_of_dim {s : State} {d : Dim} {n : Nat} (hd : s.dim = some d) (hn : 1 ≤ n) :
    decision n s = if s.svv = true ∧ n ≤ d.streams then
      some ((List.range n).all fun p => s.sv.read p == some true) else none := by
  simp only [decision, hd, hn, Option.any_some, decide_true, Bool.and_true, Bool.and_eq_true, decide_eq_true_eq]

/-- Settles O57. -/
theorem decisionIsTheConjunctionOfTheFirstFlags : Obligations.DecisionIsTheConjunctionOfTheFirstFlags := by
  intro s d n hd hn
  rw [decision_of_dim hd hn]
  refine ⟨fun hsvv hle => ⟨_, if_pos ⟨hsvv, hle⟩, ?_⟩, fun h => if_neg ?_⟩
  · simp only [List.all_eq_true, List.mem_range, beq_iff_eq]
  · rintro ⟨hsvv, hle⟩
    rcases h with h | h
    · simp [hsvv] at h
    · omega

/-! ### What a served command was -/

/-- A command that was served found the block in `IDLE` and was run (R21, R42). -/
theorem runCommand_next {i : Instr} {s t : State} (h : runCommand i s = .next t) :
    exec i { s with inputs := [] } = .next t := by
  cases hr : s.run with
  | idle => rwa [runCommand_idle hr (decode_of_fields (ofWord_encode i)), hr] at h
  | busy =>
    rw [runCommand, serve_singleton, accept, whenIdle_busy (by exact hr)] at h
    cases h

/-- A `DECODE` that ended with `ERR = 0` left the shape it was given (R33, R152). -/
theorem runCommand_decode_dim {src : Src} {d : Dim} {s t : State} (h : runCommand (decodeCommand src d) s = .next t)
    (herr : t.err = 0) : t.dim = some d := by
  have hexec := runCommand_next h
  rw [exec_decodeCommand] at hexec
  cases hexec
  rcases sampleDecode_cases src d { s with inputs := [] } with ⟨-, e⟩ | ⟨-, -, e⟩ | ⟨_, -, -, ⟨-, e⟩ | ⟨-, e⟩⟩ <;>
    rw [e] at herr ⊢
  · cases herr
  · cases herr
  · cases herr
  · rfl

/-- `MAGDB` leaves `DIM` as it was (R180). -/
theorem runCommand_magdb_dim {s t : State} (h : runCommand .magdb s = .next t) : t.dim = s.dim := by
  cases runCommand_next h
  rcases magnitudes_cases { s with inputs := [] } with ⟨-, e⟩ | ⟨_, -, -, -, e⟩ <;> rw [e]

/-- `STAB` leaves `DIM` as it was (R186). -/
theorem runCommand_stab_dim {thr : BitVec 8} {s t : State} (h : runCommand (.stab thr) s = .next t) :
    t.dim = s.dim := by
  cases runCommand_next h
  rcases stability_cases thr.toNat { s with inputs := [] } with ⟨-, e⟩ | ⟨_, -, -, -, e⟩ | ⟨_, _, -, -, -, -, e⟩ <;>
    rw [e]

/-! ### What stands behind a reported decision (R210, R214, R215) -/

/-- When a list of commands ended with `ERR = 0`, so did its first one, and the rest was run (R107). -/
theorem serveCommands_cons_next {i : Instr} {is : List Instr} {s t : State}
    (h : serveCommands (i :: is) s = .next t) (herr : t.err = 0) :
    ∃ u, runCommand i s = .next u ∧ u.err = 0 ∧ serveCommands is u = .next t := by
  obtain ⟨u, hrun, hrest⟩ := andThen_eq_next.1 h
  by_cases hu : u.err = 0
  · rw [if_pos hu] at hrest
    exact ⟨u, hrun, hu, hrest⟩
  · rw [if_neg hu] at hrest
    cases hrest
    exact absurd herr hu

/-- An analysis that asked the trigger has run `MAGDB` and `STAB`, each with `ERR = 0` (R210). -/
theorem analyzeAndDecide_analyzed {thr : BitVec 8} {kTrig : Nat} {s t : State} {o : Option Bool}
    (h : analyzeAndDecide thr kTrig s = .next (t, .analyzed o)) :
    ∃ measured, runCommand .magdb s = .next measured ∧ measured.err = 0 ∧ runCommand (.stab thr) measured = .next t ∧
      t.err = 0 ∧ decision kTrig t = o := by
  obtain ⟨hrun, ⟨herr, hreport⟩ | ⟨-, hreport⟩⟩ := analyzeAndDecide_next h
  · obtain ⟨measured, hmagdb, hmeasured, hrest⟩ := serveCommands_cons_next hrun herr
    obtain ⟨_, hstab, -, hend⟩ := serveCommands_cons_next hrest herr
    cases hend
    cases hreport
    exact ⟨measured, hmagdb, hmeasured, hstab, herr, rfl⟩
  · cases hreport

/-- A processed frame that reached the trigger has passed every check before it (R214, R215, R222). -/
theorem processFrame_analyzed {src : Src} {raw : List Byte} {thr : BitVec 8} {kTrig : Nat} {s t : State}
    {o : Option Bool} (h : processFrame src raw thr kTrig s = .next (t, .analyzed o)) :
    ∃ parsed ready decoded d, runCommand (parseCommand src) s = .next parsed ∧ parsed.err = 0 ∧
      headerShape parsed = some d ∧ boundsCheck .live d parsed = true ∧ serve (reload src raw) parsed = .next ready ∧
      runCommand (decodeCommand src d) ready = .next decoded ∧ decoded.err = 0 ∧
      analyzeAndDecide thr kTrig decoded = .next (t, .analyzed o) := by
  obtain ⟨parsed, hparse, h⟩ := andThen_eq_next.1 h
  split at h
  · next d herr hshape =>
    split_ifs at h with hbounds
    · obtain ⟨ready, hready, h⟩ := andThen_eq_next.1 h
      obtain ⟨decoded, hdecode, h⟩ := andThen_eq_next.1 h
      split_ifs at h with hdecoded
      · exact ⟨parsed, ready, decoded, d, hparse, herr, hshape, hbounds, hready, hdecode, hdecoded, h⟩
      · cases h
    · cases h
  · cases h

/-- The sequence of a frame for a source mode (R214, R215). -/
def frameSequence (src : Src) (x : LogRecord) (thr : BitVec 8) (kTrig : Nat) (s : State) :
    Host.Outcome (State × FrameReport) Fault Refusal :=
  match src with
  | .live => liveSequence x.raw x.stamp thr kTrig s
  | .replay => replaySequence x thr kTrig s

/-- A sequence that reached the trigger has loaded its frame and processed it: a zero-byte read reports none (R212). -/
theorem frameSequence_analyzed {src : Src} {x : LogRecord} {thr : BitVec 8} {kTrig : Nat} {s t : State}
    {o : Option Bool} (h : frameSequence src x thr kTrig s = .next (t, .analyzed o)) :
    ∃ filled, serve (loadBytes x.raw ++ loadStamp x.stamp) s = .next filled ∧
      processFrame src x.raw thr kTrig filled = .next (t, .analyzed o) := by
  cases src with
  | live =>
    rw [frameSequence, liveSequence] at h
    split_ifs at h
    · cases h
    · exact andThen_eq_next.1 h
  | replay => exact andThen_eq_next.1 h

/-- Settles O59: the sequence is taken apart into its steps; the shape that `DECODE` left is still there at the
trigger, so the decision is the AND of the first flags (O57). -/
theorem decisionsComeFromTheFrameItself : Obligations.DecisionsComeFromTheFrameItself := by
  intro src x thr kTrig s t b h
  have hseq : frameSequence src x thr kTrig s = .next (t, .analyzed (some b)) := h
  obtain ⟨filled, hload, hprocess⟩ := frameSequence_analyzed hseq
  obtain ⟨parsed, ready, decoded, d, hparse, hparsed, hshape, hbounds, hready, hdecode, hdecoded, hanalyze⟩ :=
    processFrame_analyzed hprocess
  obtain ⟨measured, hmagdb, hmeasured, hstab, herr, hdecision⟩ := analyzeAndDecide_analyzed hanalyze
  have hdim : t.dim = some d := by
    rw [runCommand_stab_dim hstab, runCommand_magdb_dim hmagdb, runCommand_decode_dim hdecode hdecoded]
  obtain ⟨hsvv, hk, hlong, -⟩ := decision_eq_some hdecision
  have hle : kTrig ≤ d.streams := by simpa [hdim] using hlong
  obtain ⟨b', hdecision', hflags⟩ := (decisionIsTheConjunctionOfTheFirstFlags t d kTrig hdim hk).1 hsvv hle
  cases hdecision.symm.trans hdecision'
  exact ⟨filled, parsed, ready, decoded, measured, d, hload, hparse, hparsed, hshape, hbounds, hready, hdecode,
    hdecoded, hmagdb, hmeasured, hstab, herr, hsvv, hdim, hk, hle, hflags⟩

/-! ### Loading a frame (R214, R215, R262) -/

/-- A store after writing values one after another from an index on. -/
def Memory.writeRun {α : Type} (m : Memory α) (a : Nat) : List α → Memory α
  | [] => m
  | x :: xs => (m.write a x).writeRun (a + 1) xs

theorem Memory.read_writeRun_below {α : Type} {m : Memory α} {a b : Nat} {xs : List α} (h : b < a) :
    (m.writeRun a xs).read b = m.read b := by
  induction xs generalizing m a with
  | nil => rfl
  | cons x xs ih => rw [Memory.writeRun, ih (by omega), m.read_write_other x (by omega)]

/-- Each value stands at its index. -/
theorem Memory.read_writeRun {α : Type} {m : Memory α} {a j : Nat} {xs : List α} (h : j < xs.length) :
    (m.writeRun a xs).read (a + j) = xs[j]? := by
  induction xs generalizing m a j with
  | nil => cases h
  | cons x xs ih =>
    rw [Memory.writeRun]
    cases j with
    | zero => exact (Memory.read_writeRun_below (Nat.lt_succ_self a)).trans (m.read_write_same a x)
    | succ j =>
      rw [show a + (j + 1) = a + 1 + j by omega, ih (Nat.lt_of_succ_lt_succ h), List.getElem?_cons_succ]

/-- The frame-buffer writes of bytes that fit, and whatever the host does after them. -/
theorem serve_fbWrites {s : State} {a : Nat} {bytes : List Byte} (x : HostInput) (hr : s.run = .idle)
    (hfit : a + bytes.length ≤ s.cfg.fbSize) :
    serve ((bytes.zipIdx a).map (fun e => HostInput.fbWrite e.2 e.1) ++ [x]) s =
      serve [x] { s with fb := s.fb.writeRun a bytes } := by
  induction bytes generalizing s a with
  | nil => rfl
  | cons b bytes ih =>
    rw [List.length_cons] at hfit
    have hstep : step { s with inputs := [.fbWrite a b] } = .next { s with inputs := [], fb := s.fb.write a b } :=
      step_fbWrite (s := { s with inputs := [.fbWrite a b] }) hr rfl (show a < s.cfg.fbSize by omega)
    have hrest := ih (s := { s with inputs := [], fb := s.fb.write a b }) (a := a + 1) hr
      (show a + 1 + bytes.length ≤ s.cfg.fbSize by omega)
    rw [List.zipIdx_cons, List.map_cons, List.cons_append, serve, hstep, andThen_next, hrest]
    rfl

/-- The state with bytes loaded at the start of `FB` and counted in `CNT`. -/
def State.withBytes (s : State) (bytes : List Byte) : State :=
  { s with fb := s.fb.writeRun 0 bytes, cnt := BitVec.ofNat 16 bytes.length, inputs := [] }

theorem serve_loadBytes {s : State} {bytes : List Byte} (hr : s.run = .idle) (hfit : bytes.length ≤ s.cfg.fbSize) :
    serve (loadBytes bytes) s = .next (s.withBytes bytes) := by
  rw [loadBytes, serve_fbWrites _ hr (by omega), serve_singleton, accept]
  exact whenIdle_idle hr

/-- An idle block, with nothing at its ports, whose valid region holds these bytes. -/
structure State.HoldsFrame (s : State) (bytes : List Byte) : Prop where
  run : s.run = .idle
  inputs : s.inputs = []
  fits : bytes.length ≤ s.cfg.fbSize
  cnt : s.cnt.toNat = bytes.length
  fb : ∀ a, a < bytes.length → s.fb.read a = bytes[a]?

theorem State.withBytes_holdsFrame {s : State} {bytes : List Byte} (hr : s.run = .idle)
    (hfit : bytes.length ≤ s.cfg.fbSize) : (s.withBytes bytes).HoldsFrame bytes := by
  have hsize := s.cfg.fbSize_legal
  refine ⟨hr, rfl, hfit, ?_, fun a ha => ?_⟩
  · exact (BitVec.toNat_ofNat _ 16).trans (Nat.mod_eq_of_lt (by omega))
  · rw [← Memory.read_writeRun (m := s.fb) (a := 0) ha, Nat.zero_add]
    rfl

/-- Loading a frame that fits, with its time, into an idle block. -/
theorem serve_load {x : LogRecord} {s : State} (hr : s.run = .idle) (hfit : x.raw.length ≤ s.cfg.fbSize) :
    ∃ filled, serve (loadBytes x.raw ++ loadStamp x.stamp) s = .next filled ∧ filled.HoldsFrame x.raw := by
  obtain ⟨hrun, hinputs, hfits, hcnt, hfb⟩ := State.withBytes_holdsFrame hr hfit
  refine ⟨{ s.withBytes x.raw with tsIn := some (BitVec.ofNat 208 (littleEndian x.stamp)) }, ?_, hrun, hinputs, hfits,
    hcnt, hfb⟩
  rw [serve_append, serve_loadBytes hr hfit, andThen_next, loadStamp, serve_singleton, accept]
  exact whenIdle_idle hrun

theorem State.HoldsFrame.of_keepsHostSide {s t : State} {bytes : List Byte} (h : s.HoldsFrame bytes)
    (hkeep : s.KeepsHostSide t) (hr : t.run = .idle) : t.HoldsFrame bytes :=
  ⟨hr, hkeep.inputs.trans h.inputs, hkeep.cfg ▸ h.fits, hkeep.cnt ▸ h.cnt, hkeep.fb ▸ h.fb⟩

/-! ### Each part of a sequence, from what it needs -/

/-- With nothing else at the ports of an idle block, a command is run as it stands (R21). -/
theorem runCommand_of_idle {i : Instr} {s : State} (hr : s.run = .idle) (hi : s.inputs = []) :
    runCommand i s = exec i s := by
  rw [runCommand_idle hr (decode_of_fields (ofWord_encode i)), ← hi]

section
variable {src : Src} {raw : List Byte} {thr : BitVec 8} {kTrig : Nat} {s t : State}
  (hparse : runCommand (parseCommand src) s = .next t)
include hparse

/-- A frame with no header is skipped (R214). -/
theorem processFrame_of_unparsed (h : t.err ≠ 0 ∨ headerShape t = none) :
    processFrame src raw thr kTrig s = .next (t, .headerError t.err) := by
  rw [processFrame, hparse, andThen_next]
  split
  · next herr hshape => simp [herr, hshape] at h
  · rfl

/-- A frame that fails the bounds check is skipped (R214, R222). -/
theorem processFrame_of_outOfBounds {d : Dim} (herr : t.err = 0) (hshape : headerShape t = some d)
    (hbounds : boundsCheck .live d t = false) : processFrame src raw thr kTrig s = .next (t, .outOfBounds) := by
  rw [processFrame, hparse, andThen_next]
  simp [herr, hshape, hbounds]

/-- A frame that passes the bounds check and decodes is analyzed (R214, R215). -/
theorem processFrame_of_decoded {d : Dim} {u v : State} (herr : t.err = 0) (hshape : headerShape t = some d)
    (hbounds : boundsCheck .live d t = true) (hload : serve (reload src raw) t = .next u)
    (hdecode : runCommand (decodeCommand src d) u = .next v) (hv : v.err = 0) :
    processFrame src raw thr kTrig s = analyzeAndDecide thr kTrig v := by
  rw [processFrame, hparse, andThen_next]
  simp [herr, hshape, hbounds, hload, hdecode, hv]

end

/-- What `ANALYZE` leaves: `STAB` is not run after a `MAGDB` that failed (R107). -/
def State.afterAnalyze (thr : BitVec 8) (s : State) : State :=
  if (magnitudes s).err = 0 then stability thr.toNat (magnitudes s) else magnitudes s

theorem analyze_of_idle {thr : BitVec 8} {s : State} (hr : s.run = .idle) (hi : s.inputs = []) :
    analyze thr s = .next (s.afterAnalyze thr) := by
  have hinputs : (magnitudes s).inputs = [] := (magnitudes_keepsHostSide s).inputs.trans hi
  have hmagdb : runCommand .magdb s = .next (magnitudes s) := runCommand_of_idle hr hi
  have hstab : runCommand (.stab thr) (magnitudes s) = .next (stability thr.toNat (magnitudes s)) :=
    runCommand_of_idle (magnitudes_ends s).1 hinputs
  rw [analyze, serveCommands, hmagdb, andThen_next, State.afterAnalyze]
  split
  · rw [serveCommands, hstab, andThen_next, serveCommands, ite_self]
  · rfl

/-! ### The live and the replay sequence side by side (R160, R215) -/

/-- The two source modes parse the same header but for `HDR.src` (R124). -/
theorem parseHeader_replay (s : State) :
    parseHeader .replay s = (parseHeader .live s).map fun h => { h with src := some (sourceBit .replay) } := by
  rw [parseHeader, parseHeader]
  cases extractFields s hdrTable Header.empty <;> cases s.tsIn <;> rfl

/-- On a frame that fits, `HPARSE.R` does what `HPARSE.L` does, but for `HDR.src`; the host reads the same counts. -/
theorem headerParse_replay {s : State} (hc : s.cnt.toNat ≤ s.cfg.fbSize) :
    ∃ h, headerParse .replay s = { headerParse .live s with hdr := h } ∧
      headerShape (headerParse .replay s) = headerShape (headerParse .live s) := by
  by_cases hshort : s.cnt.toNat < 25
  · rw [headerParse_truncated .replay hshort, headerParse_truncated .live hshort]
    exact ⟨_, rfl, rfl⟩
  · have h25 := Nat.le_of_not_lt hshort
    have hreplay := parseHeader_replay s
    cases hp : parseHeader .live s with
    | none =>
      rw [hp] at hreplay
      rw [headerParse_notReady h25 hc hreplay, headerParse_notReady h25 hc hp]
      exact ⟨_, rfl, rfl⟩
    | some hdr =>
      rw [hp] at hreplay
      rw [headerParse_parsed h25 hc hreplay, headerParse_parsed h25 hc hp]
      exact ⟨_, rfl, rfl⟩

/-- Where the bounds check holds, `DECODE.L` on a frame and `DECODE.R` on its data section complete on one stream. -/
theorem sampleDecode_dataSection {s s' : State} {raw : List Byte} {d : Dim} (h : s.HoldsFrame raw)
    (h' : s'.HoldsFrame (dataSection raw)) (hcfg : s'.cfg = s.cfg) (hbounds : boundsCheck .live d s = true) :
    ∃ stream, sampleDecode .live d s = s.decoded d stream ∧ sampleDecode .replay d s' = s'.decoded d stream := by
  have hfit := (boundsCheck_eq_true_iff .live d s).1 hbounds
  have hlive : startOffset .live = 25 := rfl
  have hreplay : startOffset .replay = 0 := rfl
  have hlen : (dataSection raw).length = raw.length - 25 := List.length_drop
  have hcnt := h.cnt
  have hcnt' := h'.cnt
  have hfits := h.fits
  have hfits' := h'.fits
  have hheld : ∀ j, j < 2 * d.words s.cfg.bits → (s.fb.read (startOffset .live + j)).isSome = true := fun j hj => by
    rw [h.fb _ (by omega), List.getElem?_eq_getElem (by omega), Option.isSome_some]
  have hshift : ∀ j, j < 2 * d.words s.cfg.bits →
      s'.fb.read (startOffset .replay + j) = s.fb.read (startOffset .live + j) := fun j hj => by
    rw [h.fb _ (by omega), h'.fb _ (by omega), hreplay, Nat.zero_add]
    exact List.getElem?_drop
  obtain ⟨stream, hS⟩ := Option.isSome_iff_exists.1 ((s.memRead_isSome (startOffset .live) _).2 hheld)
  have hS' : s'.streamValue (startOffset .replay) (d.words s'.cfg.bits) = some stream := by
    rw [hcfg]
    exact (State.memRead_congr _ _ _ hshift).trans hS
  exact ⟨stream, sampleDecode_of_fits (by omega) hfit hS, sampleDecode_of_fits (by omega) (by rw [hcfg]; omega) hS'⟩

/-- The second state is the first but for the frame and its header: it holds the same result stores, flags and error. -/
def State.SameResults (t u : State) : Prop := ∃ m c ts h v, u = t.withFrame m c ts h v

/-- The analysis of two blocks with the same results reports the same and leaves the same results (R193). -/
theorem analyzeAndDecide_sameResults {s s' : State} (thr : BitVec 8) (kTrig : Nat) (hr : s.run = .idle)
    (hi : s.inputs = []) (h : s.SameResults s') :
    ∃ t u report, analyzeAndDecide thr kTrig s = .next (t, report) ∧
      analyzeAndDecide thr kTrig s' = .next (u, report) ∧ t.SameResults u := by
  obtain ⟨m, c, ts, hdr, hv, rfl⟩ := h
  have hsame : (s.withFrame m c ts hdr hv).afterAnalyze thr = (s.afterAnalyze thr).withFrame m c ts hdr hv := by
    simp only [State.afterAnalyze, magnitudes_withFrame, stability_withFrame]
    exact (apply_ite (State.withFrame · m c ts hdr hv) _ _ _).symm
  have hlive : analyze thr s = .next (s.afterAnalyze thr) := analyze_of_idle hr hi
  have hreplay : analyze thr (s.withFrame m c ts hdr hv) = .next ((s.afterAnalyze thr).withFrame m c ts hdr hv) :=
    hsame ▸ analyze_of_idle hr hi
  exact ⟨_, _, _, by rw [analyzeAndDecide, hlive, andThen_next], by rw [analyzeAndDecide, hreplay, andThen_next]; rfl,
    m, c, ts, hdr, hv, rfl⟩

/-- From the header on, which both sequences take the same counts from: a frame is skipped by both, or its data
section is decoded to the same stream by both, wherever it stands. -/
theorem processFrame_sameResults_of_parsed {s t : State} {hdr : Header} {raw : List Byte} (thr : BitVec 8) (kTrig : Nat)
    (hlive : runCommand (parseCommand .live) s = .next t)
    (hreplay : runCommand (parseCommand .replay) s = .next { t with hdr := hdr })
    (hshape : headerShape { t with hdr := hdr } = headerShape t) (hframe : t.HoldsFrame raw) :
    ∃ v v' report, processFrame .live raw thr kTrig s = .next (v, report) ∧
      processFrame .replay raw thr kTrig s = .next (v', report) ∧ v.SameResults v' := by
  by_cases hun : t.err ≠ 0 ∨ headerShape t = none
  · exact ⟨t, { t with hdr := hdr }, _, processFrame_of_unparsed hlive hun,
      processFrame_of_unparsed hreplay (hshape ▸ hun), t.fb, t.cnt, t.tsIn, hdr, t.hv, rfl⟩
  obtain ⟨herr, hsome⟩ := not_or.1 hun
  have herr := not_not.1 herr
  obtain ⟨d, hd⟩ := Option.ne_none_iff_exists'.1 hsome
  cases hbounds : boundsCheck .live d t with
  | false =>
    exact ⟨t, { t with hdr := hdr }, _, processFrame_of_outOfBounds hlive herr hd hbounds,
      processFrame_of_outOfBounds hreplay herr (hshape.trans hd) hbounds, t.fb, t.cnt, t.tsIn, hdr, t.hv, rfl⟩
  | true =>
    have hfit : (dataSection raw).length ≤ t.cfg.fbSize :=
      List.length_drop.trans_le ((Nat.sub_le ..).trans hframe.fits)
    let u := State.withBytes { t with hdr := hdr } (dataSection raw)
    have hload : serve (reload .replay raw) { t with hdr := hdr } = .next u := serve_loadBytes hframe.run hfit
    have hsection : u.HoldsFrame (dataSection raw) := State.withBytes_holdsFrame hframe.run hfit
    obtain ⟨stream, hdecode, hdecode'⟩ := sampleDecode_dataSection hframe hsection rfl hbounds
    have hrun : runCommand (decodeCommand .live d) t = .next (t.decoded d stream) := by
      rw [runCommand_of_idle hframe.run hframe.inputs, exec_decodeCommand, hdecode]
    have hrun' : runCommand (decodeCommand .replay d) u = .next (u.decoded d stream) := by
      rw [runCommand_of_idle hsection.run hsection.inputs, exec_decodeCommand, hdecode']
    rw [processFrame_of_decoded hlive herr hd hbounds rfl hrun rfl,
      processFrame_of_decoded hreplay herr (hshape.trans hd) hbounds hload hrun' rfl]
    have hsame : (t.decoded d stream).SameResults (u.decoded d stream) :=
      ⟨u.fb, u.cnt, u.tsIn, u.hdr, u.hv, by
        simp only [State.decoded, State.withFrame, u, State.withBytes, hframe.inputs]⟩
    exact analyzeAndDecide_sameResults thr kTrig rfl hframe.inputs hsame

/-- From the frame on, both sequences come to the same report and the same results. -/
theorem processFrame_sameResults {s : State} {raw : List Byte} (thr : BitVec 8) (kTrig : Nat) (h : s.HoldsFrame raw) :
    ∃ t u report, processFrame .live raw thr kTrig s = .next (t, report) ∧
      processFrame .replay raw thr kTrig s = .next (u, report) ∧ t.SameResults u := by
  have hparse : ∀ src, runCommand (parseCommand src) s = .next (headerParse src s) := fun src =>
    (runCommand_of_idle h.run h.inputs).trans (exec_parseCommand src s)
  obtain ⟨hdr, hreplay, hshape⟩ := headerParse_replay (h.cnt.trans_le h.fits)
  rw [hreplay] at hshape
  exact processFrame_sameResults_of_parsed thr kTrig (hparse .live) (hreplay ▸ hparse .replay) hshape
    (h.of_keepsHostSide (headerParse_keepsHostSide .live s) (headerParse_ends .live s).1)

/-- Settles O60. -/
theorem replayedFramesGiveTheLiveResult : Obligations.ReplayedFramesGiveTheLiveResult := by
  intro x thr kTrig s hr hne hfit
  obtain ⟨filled, hload, hframe⟩ := serve_load hr hfit
  obtain ⟨t, u, report, hlive, hreplay, m, c, ts, h, v, rfl⟩ := processFrame_sameResults thr kTrig hframe
  refine ⟨t, t.withFrame m c ts h v, report, ?_, ?_, rfl, rfl, rfl, rfl, rfl, rfl, rfl, rfl⟩
  · rw [liveSequence, if_neg (by simpa using hne), hload, andThen_next, hlive]
  · rw [replaySequence, hload, andThen_next, hreplay]

end Sys2Proof.Machine
end

section
/-! SUPPORT. Family `60_exceptions`: the codes a command ends with (O22) and what one stopped before its start leaves
as it was (O23), both from the two kinds of end of every command; an illegal word (O6), `BadCount` (O24), `NotReady` (O25) and
`EmptyStream` (O51). -/

namespace Sys2Proof.Machine

/-! ### The two kinds of end of a command (R239, R240) -/

/-- The state of a command stopped before its start: nothing but `ERR` and `ERRINFO` changed, `STATE` in
`IDLE` (R239). -/
def State.rejected (s : State) (e : BitVec 4) (info : Word16) : State :=
  { s with err := e, errInfo := info, run := .idle }

/-- A command on `s` ends in `t`: started, and so with a code of the first list, or rejected with one of the second. -/
def State.EndsWith (s : State) (started stopped : List (BitVec 4)) (t : State) : Prop :=
  t.err ∈ started ∨ ∃ e ∈ stopped, ∃ info, t = s.rejected e info

section
variable {s t : State} {started stopped : List (BitVec 4)}

theorem State.EndsWith.of_started (e : BitVec 4) (h : t.err = e) (he : e ∈ started) : s.EndsWith started stopped t :=
  .inl (h ▸ he)

theorem State.EndsWith.of_rejected {e : BitVec 4} {info : Word16} (h : t = s.rejected e info) (he : e ∈ stopped) :
    s.EndsWith started stopped t :=
  .inr ⟨e, he, info, h⟩

theorem State.EndsWith.err_mem (h : s.EndsWith started stopped t) : t.err ∈ started ++ stopped := by
  rw [List.mem_append]
  rcases h with h | ⟨e, he, _, rfl⟩
  · exact .inl h
  · exact .inr he

/-- A code that no started command ends with tells that the command was rejected. -/
theorem State.EndsWith.eq_rejected (h : s.EndsWith started stopped t) (hnot : t.err ∉ started) :
    t = s.rejected t.err t.errInfo := by
  rcases h with h | ⟨_, -, _, rfl⟩
  · exact absurd h hnot
  · rfl

end

theorem headerParse_endsWith (src : Src) (s : State) : s.EndsWith [0, 1] [6, 7] (headerParse src s) := by
  rcases headerParse_cases src s with ⟨-, e⟩ | ⟨-, -, e⟩ | ⟨-, -, -, e⟩ | ⟨_, -, -, -, e⟩
  · exact .of_rejected e (by decide)
  · exact .of_started 1 (by rw [e]) (by decide)
  · exact .of_rejected e (by decide)
  · exact .of_started 0 (by rw [e]) (by decide)

theorem sampleDecode_endsWith (src : Src) (d : Dim) (s : State) : s.EndsWith [0, 2] [6, 7] (sampleDecode src d s) := by
  rcases sampleDecode_cases src d s with ⟨-, e⟩ | ⟨-, -, e⟩ | ⟨_, -, -, ⟨-, e⟩ | ⟨-, e⟩⟩
  · exact .of_rejected e (by decide)
  · exact .of_rejected e (by decide)
  · exact .of_started 2 (by rw [e, State.underrun_err]) (by decide)
  · exact .of_started 0 (by rw [e, State.decoded]) (by decide)

theorem magnitudes_endsWith (s : State) : s.EndsWith [0] [7] (magnitudes s) := by
  rcases magnitudes_cases s with ⟨-, e⟩ | ⟨_, -, -, -, e⟩
  · exact .of_rejected e (by decide)
  · exact .of_started 0 (by rw [e]) (by decide)

theorem stability_endsWith (thr : Nat) (s : State) : s.EndsWith [0] [7, 8] (stability thr s) := by
  rcases stability_cases thr s with ⟨-, e⟩ | ⟨_, -, -, -, e⟩ | ⟨_, _, -, -, -, -, e⟩
  · exact .of_rejected e (by decide)
  · exact .of_rejected e (by decide)
  · exact .of_started 0 (by rw [e]) (by decide)

/-- The codes a command can end with once it has started (R230). -/
def startedCodes : Instr → List (BitVec 4)
  | .hparseL | .hparseR => [0, 1]
  | .decodeL .. | .decodeR .. => [0, 2]
  | .magdb | .stab _ => [0]

/-- The codes a command can be stopped with before it starts (R22, R239; log 4, log 5). -/
def stoppedCodes : Instr → List (BitVec 4)
  | .hparseL | .hparseR | .decodeL .. | .decodeR .. => [6, 7]
  | .magdb => [7]
  | .stab _ => [7, 8]

theorem exec_endsWith {i : Instr} {s t : State} (h : exec i s = .next t) :
    s.EndsWith (startedCodes i) (stoppedCodes i) t := by
  cases i <;> cases h
  case hparseL => exact headerParse_endsWith .live s
  case hparseR => exact headerParse_endsWith .replay s
  case decodeL nr nc nt => exact sampleDecode_endsWith .live ⟨nr, nc, nt⟩ s
  case decodeR nr nc nt => exact sampleDecode_endsWith .replay ⟨nr, nc, nt⟩ s
  case magdb => exact magnitudes_endsWith s
  case stab thr => exact stability_endsWith thr.toNat s

/-- No command that has started ends with `BadCount`, `NotReady` or `EmptyStream`. -/
theorem startedCodes_subset (i : Instr) : startedCodes i ⊆ [0, 1, 2] := by
  cases i <;> simp [startedCodes]

/-- Settles O22: the codes of both kinds of end. -/
theorem commandsWriteOnlyTheirErrorCodes : Obligations.CommandsWriteOnlyTheirErrorCodes := by
  intro i s t h
  have hcode : t.err ∈ startedCodes i ++ stoppedCodes i := (exec_endsWith h).err_mem
  refine ⟨?_, fun nr nc nt => ?_, ?_, fun thr => ?_⟩
  · rintro (rfl | rfl) <;> simpa [startedCodes, stoppedCodes] using hcode
  · rintro (rfl | rfl) <;> simpa [startedCodes, stoppedCodes] using hcode
  · rintro rfl
    simpa [startedCodes, stoppedCodes] using hcode
  · rintro rfl
    simpa [startedCodes, stoppedCodes] using hcode

/-- Settles O23: the three codes are those of no command that has started. -/
theorem rejectedCommandsChangeOnlyTheError : Obligations.RejectedCommandsChangeOnlyTheError := by
  intro i s t h herr
  refine (exec_endsWith h).eq_rejected fun hmem => ?_
  have hstarted := startedCodes_subset i hmem
  rcases herr with e | e | e <;> rw [e] at hstarted <;> exact absurd hstarted (by decide)

/-! ### Each rejection from its condition -/

/-- Settles O6: in `IDLE` the command port issues the word, and `STATE` is written the value it has. -/
theorem stepRaisesIllegalCommand : Obligations.StepRaisesIllegalCommand := by
  intro s w rest hr hi hill
  rw [step_of_accept_whenIdle hr hi rfl, issue_of_not_legal _ (by simp [hill]), ← hr]

theorem headerParse_badCount (src : Src) {s : State} (hc : s.cfg.fbSize < s.cnt.toNat) :
    headerParse src s = { s with err := 6, errInfo := s.cnt, run := .idle } := by
  rcases headerParse_cases src s with ⟨-, e⟩ | ⟨h, -⟩ | ⟨h, -⟩ | ⟨_, h, -⟩
  · exact e
  all_goals omega

theorem sampleDecode_badCount (src : Src) (d : Dim) {s : State} (hc : s.cfg.fbSize < s.cnt.toNat) :
    sampleDecode src d s = { s with err := 6, errInfo := s.cnt, run := .idle } := by
  rcases sampleDecode_cases src d s with ⟨-, e⟩ | ⟨h, -⟩ | ⟨_, h, -⟩
  · exact e
  all_goals omega

/-- Settles O24. -/
theorem badCountWhenTheCountPassesTheBuffer : Obligations.BadCountWhenTheCountPassesTheBuffer := by
  intro s src d hc
  rw [exec_parseCommand, exec_decodeCommand, headerParse_badCount src hc, sampleDecode_badCount src d hc]
  exact ⟨rfl, rfl⟩

theorem magnitudes_of_noMatrix {s : State} (h : s.smv = false) :
    magnitudes s = { s with err := 7, errInfo := 0, run := .idle } := by
  rcases magnitudes_cases s with ⟨-, e⟩ | ⟨_, hsmv, -⟩
  · exact e
  · simp [h] at hsmv

theorem stability_of_noDecibels (thr : Nat) {s : State} (h : s.dbv = false) :
    stability thr s = { s with err := 7, errInfo := 0, run := .idle } := by
  rcases stability_cases thr s with ⟨-, e⟩ | ⟨_, hdbv, -⟩ | ⟨_, _, hdbv, -⟩
  · exact e
  all_goals simp [h] at hdbv

/-- Settles O25. -/
theorem notReadyWhenTheInputHoldsNoValue : Obligations.NotReadyWhenTheInputHoldsNoValue :=
  fun _ thr => ⟨fun h => congrArg Host.Outcome.next (magnitudes_of_noMatrix h),
    fun h => congrArg Host.Outcome.next (stability_of_noDecibels thr.toNat h)⟩

/-- The check for an empty stream comes before the needed entries, and rests on the shape alone (R238, R239). -/
theorem stability_emptyStream (thr : Nat) {s : State} {d : Dim} (hdbv : s.dbv = true) (hd : s.dim = some d)
    (hempty : 0 < d.streams ∧ d.tones = 0) : stability thr s = { s with err := 8, errInfo := 0, run := .idle } := by
  have h : stability thr s = s.raise .notStarted .emptyStream 0 := by simp only [stability, hdbv, hd, if_pos hempty]
  exact h

/-- Settles O51. -/
theorem stabRaisesEmptyStream : Obligations.StabRaisesEmptyStream :=
  fun _ _ thr hdbv hd hs ht => congrArg Host.Outcome.next (stability_emptyStream thr.toNat hdbv hd ⟨hs, ht⟩)

end Sys2Proof.Machine
end

section
/-! SUPPORT. Family `70_reset_and_hazards`: what the read ports answer (O11) and when, in a run, they answer at all
(O12); the faults of a host that acts outside its duties (O13); the commands right after reset (O27). -/

namespace Sys2Proof.Machine

/-! ### The read ports (R42, R272) -/

/-- Settles O11: with a shape held, the guard of each port is on its flag and on that shape. -/
theorem readsAreGuardedByTheFlags : Obligations.ReadsAreGuardedByTheFlags := by
  intro s d p k hd
  refine ⟨?_, ?_, ?_, ?_, fun r => rfl⟩
  case refine_4 => rw [State.readPort, hd, Option.map_some]
  all_goals simp only [State.readPort, hd, Option.any_some, Bool.and_eq_true, decide_eq_true_eq, entryKey]

/-- A result port has a value exactly when its guard holds, if all that the guard lets through is held. -/
theorem isSome_guarded_iff {α β : Type} {flag : Bool} {dim : Option Dim} {inside : Dim → Bool} {P : Dim → Prop}
    {x : Option α} (f : α → β) (hinside : ∀ d, inside d = true ↔ P d)
    (hheld : flag = true → ∀ d, dim = some d → P d → x.isSome = true) :
    (if flag && dim.any inside then x.map f else none).isSome = true ↔ flag = true ∧ ∃ d, dim = some d ∧ P d := by
  have hguard : (flag && dim.any inside) = true ↔ flag = true ∧ ∃ d, dim = some d ∧ P d := by
    simp only [Bool.and_eq_true, Option.any_eq_true, hinside]
  rw [← hguard]
  split
  · next hg =>
    obtain ⟨hflag, d, hd, hin⟩ := hguard.1 hg
    simp [hg, hheld hflag d hd hin]
  · next hg => simp [hg]

/-! ### What a flag says of its store, in a run -/

theorem mem_headerRegs (r : HdrReg) : r ∈ headerRegs := by
  cases r <;> decide

theorem Header.full_iff (h : Header) : h.full = true ↔ ∀ r, (h.get r).isSome = true := by
  simp [Header.full, mem_headerRegs]

/-- With `HV = 1` every header register holds a value (R25). -/
theorem State.Inv.header {s : State} (h : s.Inv) (hhv : s.hv = true) (r : HdrReg) : (s.hdr.get r).isSome = true := by
  simp only [State.Inv, State.inv, Bool.and_eq_true] at h
  obtain ⟨⟨⟨⟨⟨-, hheader⟩, -⟩, -⟩, -⟩, -⟩ := h
  simp only [State.headerOk, hhv, if_true] at hheader
  exact s.hdr.full_iff.1 hheader r

/-- With `SMV = 1` a shape is held, and every sample of it (R33, R34). -/
theorem State.Inv.matrix {s : State} (h : s.Inv) (hsmv : s.smv = true) :
    ∃ d, s.dim = some d ∧ s.sm.covers d d.samples = true := by
  simp only [State.Inv, State.inv, Bool.and_eq_true] at h
  obtain ⟨⟨⟨⟨-, hmatrix⟩, -⟩, -⟩, -⟩ := h
  simp only [State.matrixOk, hsmv, Option.any_eq_true] at hmatrix
  obtain ⟨d, hd, hfull⟩ := hmatrix
  exact ⟨d, hd, ((matrixUpTo_iff _ _ _ _).1 hfull).1⟩

/-- With `SVV = 1` the flags held are those of the streams of the shape (R36, R190). -/
theorem State.Inv.stability {s : State} {d : Dim} (h : s.Inv) (hsvv : s.svv = true) (hd : s.dim = some d) :
    s.sv.map Prod.fst = List.range d.streams := by
  simp only [State.Inv, State.inv, Bool.and_eq_true] at h
  obtain ⟨⟨-, hstability⟩, -⟩ := h
  simp only [State.stabilityOk, hsvv, if_true, hd, Option.any_some, Bool.and_eq_true, beq_iff_eq] at hstability
  exact hstability.2

/-- An index reads a value exactly when it is listed (R22). -/
theorem Memory.read_isSome_iff {α : Type} (m : Memory α) (a : Nat) :
    (m.read a).isSome = true ↔ a ∈ m.map Prod.fst := by
  induction m with
  | nil => simp
  | cons e m ih =>
    obtain ⟨b, v⟩ := e
    by_cases hb : b = a
    · simp [Memory.read, hb]
    · rw [Memory.read, if_neg hb, ih, List.map_cons, List.mem_cons, or_iff_right (Ne.symm hb)]

section
variable {s : State} {d : Dim} {p k : Nat}

theorem State.Inv.sample_isSome (h : s.Inv) (hsmv : s.smv = true) (hd : s.dim = some d) (hp : p < d.streams)
    (hk : k < d.tones) : (s.sm.read (entryKey p k)).isSome = true := by
  obtain ⟨d', hd', hcov⟩ := h.matrix hsmv
  cases hd.symm.trans hd'
  exact (Memory.covers_samples_iff d s.sm).1 hcov p k hp hk

/-- `DBM` has the entries of the matrix it was computed from (R35). -/
theorem State.Inv.decibel_isSome (h : s.Inv) (hdbv : s.dbv = true) (hd : s.dim = some d) (hp : p < d.streams)
    (hk : k < d.tones) : (s.dbm.read (entryKey p k)).isSome = true := by
  obtain ⟨hcov, hdbm⟩ := h.decibels hdbv hd
  rw [hdbm, Memory.read_mapShape_entry Sample.power s.sm hp hk, Option.isSome_map]
  exact (Memory.covers_samples_iff d s.sm).1 hcov p k hp hk

theorem State.Inv.stability_isSome (h : s.Inv) (hsvv : s.svv = true) (hd : s.dim = some d) (hp : p < d.streams) :
    (s.sv.read p).isSome = true := by
  rw [Memory.read_isSome_iff, h.stability hsvv hd, List.mem_range]
  exact hp

end

/-- Settles O12: what the guard of a port lets through, the invariant says is held. -/
theorem readsHaveAValueExactlyWhenValid : Obligations.ReadsHaveAValueExactlyWhenValid := by
  intro s h
  refine ⟨fun p k => ?sample, fun p k => ?decibel, fun p => ?stability, ?shape, fun r => ?header, rfl⟩
  case sample =>
    exact isSome_guarded_iff _ (fun d => by simp) fun hsmv _ hd ⟨hp, hk⟩ => h.sample_isSome hsmv hd hp hk
  case decibel =>
    exact isSome_guarded_iff _ (fun d => by simp) fun hdbv _ hd ⟨hp, hk⟩ => h.decibel_isSome hdbv hd hp hk
  case stability =>
    exact isSome_guarded_iff _ (fun d => by simp) fun hsvv _ hd hp => h.stability_isSome hsvv hd hp
  case shape =>
    cases hsmv : s.smv with
    | true =>
      obtain ⟨d, hd, -⟩ := h.matrix hsmv
      simp [State.readPort, hsmv, hd]
    | false => simp [State.readPort, hsmv]
  case header =>
    cases hhv : s.hv with
    | true => simp [State.readPort, hhv, h.header hhv r]
    | false => simp [State.readPort, hhv]

/-! ### A host outside its duties (R266, R270, R61) -/

/-- While `BUSY` every port but the read ports and reset refuses the host (R42, U4; log 3). -/
theorem accept_of_busy {x : HostInput} {s : State} (hr : s.run = .busy) (hread : ∀ port, x ≠ .read port)
    (hreset : x ≠ .reset) : accept x s = .fault .hostActsWhileBusy := by
  cases x with
  | fbWrite a b => exact whenIdle_busy hr
  | cntWrite v => exact whenIdle_busy hr
  | tsWrite v => exact whenIdle_busy hr
  | command w => exact whenIdle_busy hr
  | read port => exact absurd rfl (hread port)
  | reset => exact absurd rfl hreset

/-- An offset at or above `FB_SIZE` does not exist (R61). -/
theorem hostWriteByte_outside {s : State} {a : Nat} (b : Byte) (ha : s.cfg.fbSize ≤ a) :
    hostWriteByte a b s = .fault .hostWritesOutsideBuffer := if_neg (Nat.not_lt.2 ha)

/-- Settles O13: serving the host's action changes neither `STATE` nor `FB_SIZE`. -/
theorem hostActingOutsideItsDutiesFaults : Obligations.HostActingOutsideItsDutiesFaults := by
  intro s x rest hi
  refine ⟨fun hr hread hreset => ?_, ?_⟩
  · rw [step_cons hi]
    exact accept_of_busy hr hread hreset
  · rintro hr a b rfl ha
    rw [step_of_accept_whenIdle hr hi rfl]
    exact hostWriteByte_outside b ha

/-! ### Right after reset (R262, H5) -/

/-- With `CNT = 0` a `DECODE` fetches nothing, so no byte has to hold a value, and its first word, at the start offset,
does not fit (R102, R153). -/
theorem sampleDecode_of_noBytes (src : Src) (d : Dim) {s : State} (hc : s.cnt = 0) :
    sampleDecode src d s = s.raise .sampleDecoder .bufferUnderrun (BitVec.ofNat 16 (startOffset src)) := by
  have hcnt : s.cnt.toNat = 0 := by rw [hc]; rfl
  have hone := d.one_le_words s.cfg.bits
  have hunderrun : sampleDecode src d s = s.underrun (startOffset src) := by
    refine sampleDecode_of_short ?_ ?_ fun j hj => ?_ <;> omega
  simpa [State.underrun, hcnt] using hunderrun

/-- Settles O27: reset leaves `CNT = 0` and every flag 0, and what an error drops is what reset has dropped already. -/
theorem commandsRightAfterResetReadNothing : Obligations.CommandsRightAfterResetReadNothing := by
  intro c nr nc nt thr s
  have hparse : ∀ src, headerParse src s = { s with err := 1 } :=
    fun src => headerParse_truncated src (show 0 < 25 by decide)
  have hdecode : ∀ src, sampleDecode src ⟨nr, nc, nt⟩ s =
      { s with err := 2, errInfo := BitVec.ofNat 16 (startOffset src) } :=
    fun src => sampleDecode_of_noBytes src _ rfl
  exact ⟨congrArg _ (hparse .live), congrArg _ (hparse .replay), congrArg _ (hdecode .live),
    congrArg _ (hdecode .replay), congrArg _ (magnitudes_of_noMatrix rfl),
    congrArg _ (stability_of_noDecibels thr.toNat rfl)⟩

end Sys2Proof.Machine
end
